-- ==== Sys2Proof/Word.lean ====
section
/-! DEFINITION. The word types of the block: the widths that R10 fixes. -/

namespace Sys2Proof

/-- A 4-bit value: what the data bus carries and a digit element holds (R12, R17). -/
abbrev Nibble := BitVec 4

/-- An 8-bit value: one register of the chip (R10, R12, R45). -/
abbrev Byte := BitVec 8

/-- A command word `CW` and the result register `RES` (R10, R65). -/
abbrev Word := BitVec 32

end Sys2Proof
end

