-- ==== Sys2Proof/Syntax.lean ====
section
/-! DEFINITION. The sixteen commands (R3, R73): one constructor per row of the opcode table, and their listing
syntax (R78). -/

namespace Sys2Proof

/-- The two ButtonInput instances (R2, R71): `b = 0` is the hour button H, `b = 1` the minute button M. -/
inductive Button where
  | hour
  | minute
  deriving DecidableEq, Repr

/-- A command. The rules are stated over all integers, not only the encodable ones (R72): `WellFormed` says
which operands a command word can carry. `DECHR` takes a byte (R103). -/
inductive Instr where
  | wrnib (v : Int)
  | latch (idx : Int)
  /-- The source's operand order: value, then digit index (R78, R90). -/
  | wrdig (v idx : Int)
  | wrnum (n : Int)
  | lastv
  | rtcinit
  | dechr (raw : Byte)
  | gettime
  | settime (h m s : Int)
  | btnrst (b : Button)
  | btnproc (b : Button)
  | start
  | tick
  | inch
  | incm
  | recon
  deriving DecidableEq, Repr

/-- The mnemonic of the opcode table (R73). -/
def Instr.mnemonic : Instr → String
  | .wrnib _ => "WRNIB"
  | .latch _ => "LATCH"
  | .wrdig _ _ => "WRDIG"
  | .wrnum _ => "WRNUM"
  | .lastv => "LASTV"
  | .rtcinit => "RTCINIT"
  | .dechr _ => "DECHR"
  | .gettime => "GETTIME"
  | .settime _ _ _ => "SETTIME"
  | .btnrst _ => "BTNRST"
  | .btnproc _ => "BTNPROC"
  | .start => "START"
  | .tick => "TICK"
  | .inch => "INCH"
  | .incm => "INCM"
  | .recon => "RECON"

/-- A button as the listing spells it (R78). -/
def Button.letter : Button → String
  | .hour => "H"
  | .minute => "M"

/-- The operands of a command in listing order, in decimal (R78). -/
def Instr.operands : Instr → List String
  | .wrnib v => [toString v]
  | .latch idx => [toString idx]
  | .wrdig v idx => [toString v, toString idx]
  | .wrnum n => [toString n]
  | .dechr raw => [toString raw.toNat]
  | .settime h m s => [toString h, toString m, toString s]
  | .btnrst b => [b.letter]
  | .btnproc b => [b.letter]
  | .lastv => []
  | .rtcinit => []
  | .gettime => []
  | .start => []
  | .tick => []
  | .inch => []
  | .incm => []
  | .recon => []

/-- One line of a listing (R78): the mnemonic, then the operands with commas between them. -/
def Instr.listing (i : Instr) : String :=
  match i.operands with
  | [] => i.mnemonic
  | os => i.mnemonic ++ " " ++ String.intercalate ", " os

end Sys2Proof
end

