-- ==== Sys2Proof/WellFormed.lean ====
section
/-! DEFINITION. Which commands a command word can carry (R67 to R72): the encodable range of every operand. -/

namespace Sys2Proof

/-- An unsigned 8-bit field (R67, R68, R70): 0..255. -/
def fitsByte (x : Int) : Bool := decide (0 ≤ x) && decide (x ≤ 255)

/-- The signed 16-bit field of format W (R69): -32768..32767. -/
def fitsSigned16 (x : Int) : Bool := decide (-32768 ≤ x) && decide (x ≤ 32767)

/-- Every operand lies in the range of its field (R72). -/
def Instr.wellFormed : Instr → Bool
  | .wrnib v => fitsByte v
  | .latch idx => fitsByte idx
  | .wrdig v idx => fitsByte v && fitsByte idx
  | .wrnum n => fitsSigned16 n
  | .lastv => true
  | .rtcinit => true
  | .dechr _ => true
  | .gettime => true
  | .settime h m s => fitsByte h && fitsByte m && fitsByte s
  | .btnrst _ => true
  | .btnproc _ => true
  | .start => true
  | .tick => true
  | .inch => true
  | .incm => true
  | .recon => true

/-- The command can be written as a command word. -/
abbrev Instr.WellFormed (i : Instr) : Prop := i.wellFormed = true

end Sys2Proof
end

