-- ==== Sys2Proof/Decode.lean ====
section
/-! DEFINITION. The command encoding (R65 to R77): the decoder, total on all words, and the encoder. -/

namespace Sys2Proof

/-- Why a word is illegal (R75). -/
inductive Reject where
  /-- The opcode is not in the table. -/
  | unknownOpcode (op : Byte)
  /-- The opcode is listed and a reserved bit of its format is not 0. -/
  | reservedBits (op : Byte)
  deriving DecidableEq, Repr

/-- `op`, bits 31:24 (R65). -/
def opcodeOf (w : Word) : Byte := w.extractLsb' 24 8

/-- The 8-bit field whose lowest bit is `lo`, read as unsigned (R72). -/
def byteField (w : Word) (lo : Nat) : Int := Int.ofNat (w.extractLsb' lo 8).toNat

/-- The field `n` of format W, bits 15:0, read as two's complement (R69, R72). -/
def signedField (w : Word) : Int := (w.extractLsb' 0 16).toInt

/-- The field `b` of format B, bit 0 (R71). -/
def buttonField (w : Word) : Button := if w.getLsbD 0 then .minute else .hour

/-- Bits 23:0 are 0: format Z's reserved bits (R66). -/
def reservedZ (w : Word) : Bool := w.extractLsb' 0 24 == 0#24

/-- Bits 23:8 are 0: format V's reserved bits (R67). -/
def reservedV (w : Word) : Bool := w.extractLsb' 8 16 == 0#16

/-- Bits 23:16 are 0: the reserved bits of formats DV and W (R68, R69). -/
def reservedDW (w : Word) : Bool := w.extractLsb' 16 8 == 0#8

/-- Bits 23:1 are 0: format B's reserved bits (R71). -/
def reservedB (w : Word) : Bool := w.extractLsb' 1 23 == 0#23

/-- A listed opcode: the command, unless a reserved bit is set (R74). -/
def listed (w : Word) (reservedZero : Bool) (i : Instr) : Except Reject Instr :=
  if reservedZero then .ok i else .error (.reservedBits (opcodeOf w))

/-- The decoder (R74): the row by the opcode, then the reserved bits, then the fields. -/
def decode (w : Word) : Except Reject Instr :=
  match opcodeOf w with
  | 0x10#8 => listed w (reservedV w) (.wrnib (byteField w 0))
  | 0x11#8 => listed w (reservedV w) (.latch (byteField w 0))
  | 0x12#8 => listed w (reservedDW w) (.wrdig (byteField w 0) (byteField w 8))
  | 0x13#8 => listed w (reservedDW w) (.wrnum (signedField w))
  | 0x14#8 => listed w (reservedZ w) .lastv
  | 0x20#8 => listed w (reservedZ w) .rtcinit
  | 0x21#8 => listed w (reservedV w) (.dechr (w.extractLsb' 0 8))
  | 0x22#8 => listed w (reservedZ w) .gettime
  | 0x23#8 => listed w true (.settime (byteField w 16) (byteField w 8) (byteField w 0))
  | 0x30#8 => listed w (reservedB w) (.btnrst (buttonField w))
  | 0x31#8 => listed w (reservedB w) (.btnproc (buttonField w))
  | 0x40#8 => listed w (reservedZ w) .start
  | 0x41#8 => listed w (reservedZ w) .tick
  | 0x42#8 => listed w (reservedZ w) .inch
  | 0x43#8 => listed w (reservedZ w) .incm
  | 0x44#8 => listed w (reservedZ w) .recon
  | op => .error (.unknownOpcode op)

/-- The bit `b` of format B (R71). -/
def Button.bit : Button → BitVec 1
  | .hour => 0#1
  | .minute => 1#1

/-- Format Z (R66). -/
def wordZ (op : Byte) : Word := op ++ 0#24

/-- Format V (R67). -/
def wordV (op v : Byte) : Word := op ++ (0#16 ++ v)

/-- Format DV (R68). -/
def wordDV (op idx v : Byte) : Word := op ++ (0#8 ++ (idx ++ v))

/-- Format W (R69). -/
def wordW (op : Byte) (n : BitVec 16) : Word := op ++ (0#8 ++ n)

/-- Format T (R70). -/
def wordT (op h m s : Byte) : Word := op ++ (h ++ (m ++ s))

/-- Format B (R71). -/
def wordB (op : Byte) (b : Button) : Word := op ++ (0#23 ++ b.bit)

/-- The encoder (R65 to R73): the command word of a well-formed command. -/
def encode : Instr → Word
  | .wrnib v => wordV 0x10#8 (BitVec.ofInt 8 v)
  | .latch idx => wordV 0x11#8 (BitVec.ofInt 8 idx)
  | .wrdig v idx => wordDV 0x12#8 (BitVec.ofInt 8 idx) (BitVec.ofInt 8 v)
  | .wrnum n => wordW 0x13#8 (BitVec.ofInt 16 n)
  | .lastv => wordZ 0x14#8
  | .rtcinit => wordZ 0x20#8
  | .dechr raw => wordV 0x21#8 raw
  | .gettime => wordZ 0x22#8
  | .settime h m s => wordT 0x23#8 (BitVec.ofInt 8 h) (BitVec.ofInt 8 m) (BitVec.ofInt 8 s)
  | .btnrst b => wordB 0x30#8 b
  | .btnproc b => wordB 0x31#8 b
  | .start => wordZ 0x40#8
  | .tick => wordZ 0x41#8
  | .inch => wordZ 0x42#8
  | .incm => wordZ 0x43#8
  | .recon => wordZ 0x44#8

/-- One row of the opcode table (R73): the word is this command if and only if `word &&& mask = value`. -/
structure Row where
  mnemonic : String
  value : Word
  mask : Word
  deriving DecidableEq, Repr

/-- R73's table, row by row, letter for letter. -/
def opcodeTable : List Row :=
  [ ⟨"WRNIB", 0x10000000#32, 0xFFFFFF00#32⟩,
    ⟨"LATCH", 0x11000000#32, 0xFFFFFF00#32⟩,
    ⟨"WRDIG", 0x12000000#32, 0xFFFF0000#32⟩,
    ⟨"WRNUM", 0x13000000#32, 0xFFFF0000#32⟩,
    ⟨"LASTV", 0x14000000#32, 0xFFFFFFFF#32⟩,
    ⟨"RTCINIT", 0x20000000#32, 0xFFFFFFFF#32⟩,
    ⟨"DECHR", 0x21000000#32, 0xFFFFFF00#32⟩,
    ⟨"GETTIME", 0x22000000#32, 0xFFFFFFFF#32⟩,
    ⟨"SETTIME", 0x23000000#32, 0xFF000000#32⟩,
    ⟨"BTNRST", 0x30000000#32, 0xFFFFFFFE#32⟩,
    ⟨"BTNPROC", 0x31000000#32, 0xFFFFFFFE#32⟩,
    ⟨"START", 0x40000000#32, 0xFFFFFFFF#32⟩,
    ⟨"TICK", 0x41000000#32, 0xFFFFFFFF#32⟩,
    ⟨"INCH", 0x42000000#32, 0xFFFFFFFF#32⟩,
    ⟨"INCM", 0x43000000#32, 0xFFFFFFFF#32⟩,
    ⟨"RECON", 0x44000000#32, 0xFFFFFFFF#32⟩ ]

/-- What the decoder reads from an instruction whose bits are `w`, as `spec/opcode_table.json` numbers them. A
command is presented whole as one 32-bit word on `CMD` (R34, R65), so there is no byte order (log 12); a number
that 32 bits cannot hold is no command word. -/
def decodeTableWord (nbits w : Nat) : Option Instr :=
  if w % 2 ^ nbits < 2 ^ 32 then (decode (BitVec.ofNat 32 (w % 2 ^ nbits))).toOption else none

end Sys2Proof
end

