-- ==== Sys2Proof/Config.lean ====
section
/-! DEFINITION. What an instantiation fixes (`CFG`, R8), the environment's decisions as plain data (R53), and
the values that the spec leaves free: constants without a body, so that no proof can see what they are. -/

namespace Sys2Proof

/-- The configuration record `CFG` (R8): fixed when the model is instantiated, never changed (D5). Both buttons
share `longMs`, `repeatMs` and `activeLevel` (R9). -/
structure Cfg where
  /-- `PULSE_US`, the latch pulse width in µs (R88). -/
  pulseUs : Nat
  /-- `SETTLE_US`, the data settle delay in µs (R90). -/
  settleUs : Nat
  /-- `LONG_MS`, the hold before auto-repeat begins (R123, R125). -/
  longMs : Nat
  /-- `REPEAT_MS`, the interval between repeats (R124). -/
  repeatMs : Nat
  /-- `ACTIVE_LEVEL`: the pin level of a pressed button, `true` = high (R121). -/
  activeLevel : Bool
  /-- `REFRESH_MS`, the reconciliation interval (R151). -/
  refreshMs : Nat
  /-- `TICK_MS`, the nominal spacing of ticks: read by no rule (R209). -/
  tickMs : Nat
  deriving DecidableEq, Repr

/-- The defaults of R8's table. -/
def Cfg.default : Cfg :=
  { pulseUs := 20, settleUs := 0, longMs := 600, repeatMs := 200, activeLevel := false, refreshMs := 100, tickMs := 20 }

/-- The identifier a model carries (R1). -/
def Config.identifier : String := "ukagit/clock_nixi (reimplementation spec v7)"

/-- `DEV_ADDR` (R8, R46): the device every transaction is made to. No rule computes with it, no command names it. -/
def Config.devAddr : BitVec 7 := 0x68#7

/-- How the environment ends one register transaction (R47 to R49). -/
inductive Verdict where
  /-- The transaction succeeds. -/
  | ok
  /-- The transaction fails. `left`: what a failed write leaves in its register (R48: neither unchanged nor
  written may be assumed), `none` = what stood there. A failed read has no such effect. -/
  | failed (left : Option Byte)
  deriving DecidableEq, Repr, Inhabited

/-- The environment's move at one register transaction (R53): first it may change registers, then it decides
the transaction. -/
structure Turn where
  /-- Registers the chip or anyone outside the block changes just before the transaction, in order. -/
  changes : List (Fin 3 × Byte)
  verdict : Verdict
  deriving DecidableEq, Repr, Inhabited

/-- The move of the quiescent chip (R53): nothing changes but by the block's own writes, nothing fails. -/
def Turn.quiet : Turn := { changes := [], verdict := .ok }

/-- The elements that R41's table leaves unspecified at reset (U1 to U4). -/
structure Unspecified where
  dv : Nibble
  disp0 : Nibble
  disp1 : Nibble
  disp2 : Nibble
  disp3 : Nibble
  hour : Nat
  minute : Nat
  pressDownAtH : Nat
  nextRepeatAtH : Nat
  pressDownAtM : Nat
  nextRepeatAtM : Nat
  deriving DecidableEq, Repr, Inhabited

/-- The four digit elements, ones first (R24). -/
def Unspecified.disp (u : Unspecified) : Vector Nibble 4 := #v[u.disp0, u.disp1, u.disp2, u.disp3]

/-- FREE (log 3). What the `n`-th reset leaves in the elements that R41 calls unspecified: any value. -/
opaque Config.unspecified : Nat → Unspecified

/-- FREE (log 4). The byte the battery-backed chip holds in register `a` when nothing has changed it since the
model began (R41: "their content after power-up is whatever the chip holds"). -/
opaque Config.chipPowerUp : Nat → Byte

/-- FREE (log 5). The environment's `n`-th move that no script gives: any changes, any verdict (R53, D32). -/
opaque Config.freeTurn : Nat → Turn

end Sys2Proof
end

