-- ==== Sys2Proof/Machine/State.lean ====
section
/-! DEFINITION. The state of the block (R20 to R29, R35, R37), its ports (R30 to R36), the chip's registers
(R45) and the observer's output trace (R15), as plain data; the state after reset (R41). -/

namespace Sys2Proof.Machine

/-- The error kinds (R165). None of them stops the machine: the next command executes normally (R16). -/
inductive ErrorKind where
  /-- A digit index outside 0..3 reached `latch` (R166). -/
  | invalidArgument
  /-- The environment failed a register transaction (R167). -/
  | transportError
  /-- The word is in no row of the table, or a controller command came in the wrong phase (R168). -/
  | illegalCommand
  deriving DecidableEq, Repr

/-- The direction of a register transaction, as `RegFail` names it (R15). -/
inductive Access where
  | rd
  | wr
  deriving DecidableEq, Repr

/-- One event of the output trace (R15). -/
inductive Event where
  /-- `Data(n)`: the four data lines carry `n`. -/
  | data (n : Nibble)
  /-- `Settle(us)`: a wait with no pin changing. -/
  | settle (us : Nat)
  /-- `LatchHigh(i)`: latch line `i` driven high. -/
  | latchHigh (i : Fin 4)
  /-- `Hold(us)`: a wait with no pin changing. -/
  | hold (us : Nat)
  /-- `LatchLow(i)`: latch line `i` driven low. -/
  | latchLow (i : Fin 4)
  /-- `RegRead(a, v)`: a read of register `a` returned `v`. -/
  | regRead (a : Fin 3) (v : Byte)
  /-- `RegWrite(a, v)`: a write of `v` to register `a` completed. -/
  | regWrite (a : Fin 3) (v : Byte)
  /-- `RegFail(rd, a)`, `RegFail(wr, a)`: a transaction on register `a` failed. -/
  | regFail (dir : Access) (a : Fin 3)
  /-- `Click(b)`: button `b`'s `onClick` fired. -/
  | click (b : Button)
  /-- `Repeat(b)`: button `b`'s `onRepeat` fired. -/
  | autoRepeat (b : Button)
  /-- `Report(e)`: the controller reported an error and went on. -/
  | report (e : ErrorKind)
  deriving DecidableEq, Repr

/-- The two states of a button (R25). -/
inductive Press where
  | idle
  | pressed
  deriving DecidableEq, Repr

/-- ButtonState: `st[b]`, `pressDownAt[b]`, `nextRepeatAt[b]` (R25, R26). -/
structure ButtonState where
  st : Press
  pressDownAt : Nat
  nextRepeatAt : Nat
  deriving DecidableEq, Repr

/-- The callback that one `process` call fires, if any (R39, R128). -/
inductive Firing where
  | click
  | autoRepeat
  deriving DecidableEq, Repr

/-- The chip register space (R45): address and byte, addresses strictly rising. A register that is not listed
has no entry here; what it reads as is said in `State.chipByte`. -/
abbrev Memory := List Host.Cell

/-- A command with the environment inputs it samples (R21, R78): the word, the `NOW` sample, the two button
levels (`true` = high), and the environment's moves at its register transactions, first to last. -/
structure Presented where
  word : Word
  now : Nat
  pinH : Bool
  pinM : Bool
  turns : List Turn
  deriving DecidableEq, Repr

/-- What the host does next (R34, R44). -/
inductive HostInput where
  /-- A command word on `CMD`. -/
  | command (c : Presented)
  /-- `rst` asserted, between two commands (R191). `digits` is what the digit elements hold afterwards: any nibbles
  (R41, U2), or what they held (`none`, R192); the environment's choice, log 8. -/
  | reset (digits : Option (Vector Nibble 4))
  /-- Power lost and back, between two commands (R192). -/
  | powerCycle
  deriving DecidableEq, Repr

/-- Everything the spec gives the machine. The first group is R20's complete list of the block's state. -/
structure State where
  /-- DigitValue, and what the data pins carry (R22, R30). -/
  dv : Nibble
  /-- Levels of the latch lines (R23, R31), `true` = high. -/
  le : Vector Bool 4
  /-- The hour button (R25, R26). -/
  btnH : ButtonState
  /-- The minute button (R25, R26). -/
  btnM : ButtonState
  /-- `START` has completed (R27). -/
  running : Bool
  /-- The mirror's hour (R28). -/
  hour : Nat
  /-- The mirror's minute (R28). -/
  minute : Nat
  /-- The `now` of the last attempted reconciliation; `none`: the next tick is the first (R29). -/
  lastRecon : Option Nat
  /-- Sticky: a tick caught a transport error (R37). -/
  terr : Bool
  /-- `RES` (R35). -/
  res : Word
  /-- `ERR` (R35). -/
  err : BitVec 2
  /-- The digit elements on the far side of the pins (R24, D11). -/
  disp : Vector Nibble 4
  /-- The chip's registers (R45), not the block's. -/
  rtc : Memory
  /-- Port `CMD` (R34): the word being executed. -/
  cmd : Word
  /-- Port `NOW` (R33), unbounded (D19). -/
  now : Nat
  /-- Pin `BTN[H]` (R32), `true` = high. -/
  pinH : Bool
  /-- Pin `BTN[M]` (R32), `true` = high. -/
  pinM : Bool
  /-- `CFG` (R8): no step changes it (D5). -/
  cfg : Cfg
  /-- The output trace (R15), oldest event first: an observer's, no rule reads it (R43). -/
  trace : List Event
  /-- What the host will still present, first to last (R21, D37). -/
  host : List HostInput
  /-- The environment's coming moves that are scripted (R53); after them `Config.freeTurn`. -/
  turns : List Turn
  /-- How many moves were drawn from `Config.freeTurn`. -/
  draws : Nat
  /-- The number of the last reset: the argument of `Config.unspecified`. -/
  resets : Nat
  deriving DecidableEq, Repr

/-- Why a step faults: never. No behaviour of this block is stuck and its step is total (R187), so the type has
no constructor. -/
inductive Fault where
  deriving DecidableEq, Repr

/-- Why a step is refused. -/
inductive Refusal where
  /-- Raised by an arm of `exec` whose command has no meaning yet; no arm does. Safe. -/
  | notModelled (mnemonic : String)
  deriving DecidableEq, Repr

/-- A ButtonState as reset leaves it: `Idle`, the timestamps unspecified (R41). -/
def ButtonState.atReset (pressDownAt nextRepeatAt : Nat) : ButtonState :=
  { st := .idle, pressDownAt := pressDownAt, nextRepeatAt := nextRepeatAt }

/-- The state right after reset (R41, R190), with nothing placed: the default configuration, nothing listed in
the chip's registers, nothing presented. What R41 calls unspecified is free (log 3). -/
def State.reset : State :=
  { dv := (Config.unspecified 0).dv
    le := Vector.replicate 4 false
    btnH := .atReset (Config.unspecified 0).pressDownAtH (Config.unspecified 0).nextRepeatAtH
    btnM := .atReset (Config.unspecified 0).pressDownAtM (Config.unspecified 0).nextRepeatAtM
    running := false
    hour := (Config.unspecified 0).hour
    minute := (Config.unspecified 0).minute
    lastRecon := none
    terr := false
    res := 0#32
    err := 0#2
    disp := (Config.unspecified 0).disp
    rtc := []
    cmd := 0#32
    now := 0
    pinH := true
    pinM := true
    cfg := Cfg.default
    trace := []
    host := []
    turns := []
    draws := 0
    resets := 0 }

end Sys2Proof.Machine
end

