-- ==== Sys2Proof/Machine/Operands.lean ====
section
/-! DEFINITION. The arithmetic of the operands: masks, clamps, decimal digits, packed BCD and the hour decoder.
All of it is pure; numbers are integers unless a width is written (R13). -/

namespace Sys2Proof.Machine

/-- `clamp(lo, hi, x)` (R13). -/
def clamp (lo hi x : Int) : Int := if x < lo then lo else if hi < x then hi else x

/-- The nibble applied for `v`: `v mod 16`, floored (R86, R87). -/
def nibbleOf (v : Int) : Nibble := BitVec.ofNat 4 (v % 16).toNat

/-- The latch line of a digit index: none outside 0..3 (R88). -/
def lineOf (idx : Int) : Option (Fin 4) :=
  if h : 0 ≤ idx ∧ idx < 4 then some ⟨idx.toNat, by omega⟩ else none

/-- The number `WRNUM` shows: clamped to [0, 9999] (R91). -/
def shownNumber (n : Int) : Nat := (clamp 0 9999 n).toNat

/-- Digit `i` of `x`, the ones at index 0 (R91, R92). -/
def decimalDigit (x i : Nat) : Nat := x / 10 ^ i % 10

/-- The high nibble of a byte: the BCD tens digit (R12). -/
def highNibble (b : Byte) : Nat := (b.extractLsb' 4 4).toNat

/-- The low nibble of a byte: the BCD units digit (R12). -/
def lowNibble (b : Byte) : Nat := (b.extractLsb' 0 4).toNat

/-- `bcd2dec` (R100): total, nibbles above 9 are used as they are (D15). -/
def bcd2dec (b : Byte) : Nat := highNibble b * 10 + lowNibble b

/-- `dec2bcd` (R101): tens in bits 7:4, units in bits 3:0. -/
def dec2bcd (d : Nat) : Byte := BitVec.ofNat 4 (d / 10) ++ BitVec.ofNat 4 (d % 10)

/-- The clock-halt flag `CH`, bit 7 of the seconds register (R50). -/
def haltFlag (r0 : Byte) : Bool := r0.getLsbD 7

/-- A seconds byte without its clock-halt flag (R102, R105). -/
def withoutHalt (r0 : Byte) : Byte := r0 &&& 0x7F#8

/-- Bit 6 of the hours register: 12-hour mode (R52). -/
def twelveHourFlag (r2 : Byte) : Bool := r2.getLsbD 6

/-- Bit 5 of the hours register: PM, in 12-hour mode only (R52). -/
def pmFlag (r2 : Byte) : Bool := r2.getLsbD 5

/-- The 5-bit BCD hour of 12-hour mode: the tens are bit 4 alone (R52, R103). -/
def hourField12 (raw : Byte) : Nat := (raw.extractLsb' 4 1).toNat * 10 + lowNibble raw

/-- The 6-bit BCD hour of 24-hour mode: the tens are bits 5:4 (R52, R103). -/
def hourField24 (raw : Byte) : Nat := (raw.extractLsb' 4 2).toNat * 10 + lowNibble raw

/-- `decodeHours` (R103): total on all bytes, bit 7 ignored. -/
def decodeHours (raw : Byte) : Nat :=
  if twelveHourFlag raw then
    if pmFlag raw then hourField12 raw % 12 + 12 else hourField12 raw % 12
  else hourField24 raw

/-- The seconds value of register 0: the clock-halt flag is no part of it (R105). -/
def decodeSeconds (r0 : Byte) : Nat := bcd2dec (withoutHalt r0)

/-- A time as `getTime` returns it: hour, minute, second (R104). -/
structure Time where
  hour : Nat
  minute : Nat
  second : Nat
  deriving DecidableEq, Repr

/-- The time that three register bytes spell (R104). -/
def decodeTime (r0 r1 r2 : Byte) : Time :=
  { hour := decodeHours r2, minute := bcd2dec r1, second := decodeSeconds r0 }

/-- `x mod n` for a time field of `setTime`, floored (R13, R106). -/
def wrapField (x : Int) (n : Nat) : Nat := (x % (n : Int)).toNat

/-- The byte `setTime` writes to register 0 (R106). -/
def secondsByte (s : Int) : Byte := dec2bcd (wrapField s 60)

/-- The byte `setTime` writes to register 1 (R106). -/
def minutesByte (m : Int) : Byte := dec2bcd (wrapField m 60)

/-- The byte `setTime` writes to register 2: always the 24-hour layout (R106). -/
def hoursByte (h : Int) : Byte := dec2bcd (wrapField h 24)

/-- The 12-hour meridiem (R54). -/
inductive Meridiem where
  | am
  | pm
  deriving DecidableEq, Repr

/-- ChipTime, the abstract view of the three registers (R54). -/
structure ChipTime where
  time : Time
  clockHalted : Bool
  /-- `hourMode = 12h`. -/
  twelveHour : Bool
  /-- Meaningful in 12-hour mode only (R54): none in 24-hour mode. -/
  meridiem : Option Meridiem
  deriving DecidableEq, Repr

/-- ChipTime of three bytes (R54). -/
def chipTimeOf (r0 r1 r2 : Byte) : ChipTime :=
  { time := decodeTime r0 r1 r2
    clockHalted := haltFlag r0
    twelveHour := twelveHourFlag r2
    meridiem := if twelveHourFlag r2 then some (if pmFlag r2 then .pm else .am) else none }

end Sys2Proof.Machine
end

