-- ==== Sys2Proof/Machine/Flags.lean ====
section
/-! DEFINITION. The status registers `RES` and `ERR`. The block has no flags and no condition codes (R39): what a
command leaves for the host is these two registers (R35), packed as R80 says. -/

namespace Sys2Proof.Machine

/-- The number of an error kind in `ERR` (R165); 0 means completed. -/
def ErrorKind.code : ErrorKind → BitVec 2
  | .invalidArgument => 1#2
  | .transportError => 2#2
  | .illegalCommand => 3#2

/-- `RES` of `WRNIB`, `WRDIG`, `LASTV`: the nibble in bits 3:0 (R80). -/
def resultNibble (n : Nibble) : Word := n.setWidth 32

/-- `RES` of `DECHR`: the hour in bits 7:0 (R80). -/
def resultHour (hour : Nat) : Word := (BitVec.ofNat 8 hour).setWidth 32

/-- `RES` of `GETTIME`: hour in bits 23:16, minute in 15:8, second in 7:0, bits 31:24 = 0 (R80). -/
def resultTime (t : Time) : Word :=
  0#8 ++ (BitVec.ofNat 8 t.hour ++ (BitVec.ofNat 8 t.minute ++ BitVec.ofNat 8 t.second))

/-- `RES` of `BTNPROC`: 0 no event, 1 `Click`, 2 `Repeat` (R80, R127). -/
def resultFiring : Option Firing → Word
  | none => 0#32
  | some .click => 1#32
  | some .autoRepeat => 2#32

end Sys2Proof.Machine
end

