-- ==== Sys2Proof/Machine/Ops.lean ====
section
/-! DEFINITION. The named operations over state, pins, the chip's registers and the error registers, and how a
command raises, catches and ends. -/

namespace Sys2Proof.Machine

/-! ## Attempts: a piece of pseudocode that may raise (R14, R170) -/

/-- How a piece of pseudocode ends. A raise keeps everything done before it (R170). -/
inductive Attempt (α : Type) where
  | done (a : α) (s : State)
  | raised (e : ErrorKind) (s : State)

/-- Goes on after a piece of pseudocode, unless it raised: "nothing after it in the pseudocode runs" (R14). -/
def Attempt.andThen {α β : Type} (r : Attempt α) (f : α → State → Attempt β) : Attempt β :=
  match r with
  | .done a s => f a s
  | .raised e s => .raised e s

/-- `emit e` (R14): appends to the output trace. -/
def State.emit (e : Event) (s : State) : State := { s with trace := s.trace ++ [e] }

/-! ## Raising an error and ending a command (R16, R35, R170, R171) -/

/-- The end of a failed command: `ERR` gets the kind's code, `RES` gets 0, nothing else is recorded (R171). There
is no vector and no saved state (R170), hence nothing to return from (R177). -/
def takeError (e : ErrorKind) (s : State) : State := { s with res := 0#32, err := e.code }

/-- The end of a completed command: `RES` gets the result, `ERR` gets 0 (R35, R171). -/
def complete (result : Word) (s : State) : State := { s with res := result, err := 0#2 }

/-- How a command ends (R16): completed with its result, or failed. -/
def conclude (r : Attempt Word) : State :=
  match r with
  | .done result s => complete result s
  | .raised e s => takeError e s

/-- How a command without a result ends: `RES` = 0 (R80). -/
def concludePlain (r : Attempt Unit) : State := conclude (r.andThen fun _ s => .done 0#32 s)

/-- The catch of `TICK` (R153, R176): a transport error sets `terr`, is reported, and the tick goes on to its
end. No other kind is caught. -/
def catchTransport (r : Attempt Unit) : Attempt Unit :=
  match r with
  | .raised .transportError s => .done () (({ s with terr := true }).emit (.report .transportError))
  | .raised .invalidArgument s => .raised .invalidArgument s
  | .raised .illegalCommand s => .raised .illegalCommand s
  | .done u s => .done u s

/-- The phase check of `TICK`, `INCH`, `INCM`, `RECON` (R141): only while running. -/
def whileRunning (body : State → Attempt Unit) (s : State) : Attempt Unit :=
  if s.running then body s else .raised .illegalCommand s

/-- The phase check of `START` (R141): only while not running. -/
def whileStopped (body : State → Attempt Unit) (s : State) : Attempt Unit :=
  if s.running then .raised .illegalCommand s else body s

/-! ## The chip's registers (R45) -/

/-- The byte listed at `a`, if any. -/
def Memory.read : Memory → Nat → Option Byte
  | [], _ => none
  | (b, v) :: m, a => if a = b then some v else Memory.read m a

/-- Stores `v` at `a`; addresses stay strictly rising. -/
def Memory.write : Memory → Nat → Byte → Memory
  | [], a, v => [(a, v)]
  | (b, w) :: m, a, v =>
    if a < b then (a, v) :: (b, w) :: m
    else if a = b then (a, v) :: m
    else (b, w) :: Memory.write m a v

/-- Every listed address is above `a`, strictly rising. -/
def Memory.risingFrom : Nat → Memory → Bool
  | _, [] => true
  | a, (b, _) :: m => decide (a ≤ b) && Memory.risingFrom (b + 1) m

/-- The canonical form: addresses strictly rising. An unlisted address has no value in the list, so no entry can
equal it. -/
def Memory.wf (m : Memory) : Bool := Memory.risingFrom 0 m

/-- What register `a` of the chip holds: the listed byte, else the free byte it held at power-up (log 4). -/
def Memory.byteAt (m : Memory) (a : Fin 3) : Byte := (Memory.read m a.val).getD (Config.chipPowerUp a.val)

/-- What register `a` of the chip holds now. -/
def State.chipByte (s : State) (a : Fin 3) : Byte := Memory.byteAt s.rtc a

/-- `rtc[a] <- v` (R48). -/
def State.putChip (a : Fin 3) (v : Byte) (s : State) : State := { s with rtc := Memory.write s.rtc a.val v }

/-- ChipTime of the chip's registers as they stand (R54). -/
def State.chipTime (s : State) : ChipTime := chipTimeOf (s.chipByte 0) (s.chipByte 1) (s.chipByte 2)

/-! ## The environment's move and the two transactions (R47 to R49, R53) -/

/-- Registers changed by someone else, in order (R53). -/
def applyChanges (changes : List (Fin 3 × Byte)) (m : Memory) : Memory :=
  changes.foldl (fun m c => Memory.write m c.1.val c.2) m

/-- The environment's coming move: the next of the script, else a free one (log 5). -/
def State.turn (s : State) : Turn :=
  match s.turns with
  | t :: _ => t
  | [] => Config.freeTurn s.draws

/-- The environment makes its move: its changes happen, the move is used up. -/
def State.envMove (s : State) : State :=
  match s.turns with
  | t :: ts => { s with turns := ts, rtc := applyChanges t.changes s.rtc }
  | [] => { s with draws := s.draws + 1, rtc := applyChanges (Config.freeTurn s.draws).changes s.rtc }

/-- What a failed write leaves in its register (R48): the environment's choice. -/
def State.leave (a : Fin 3) (left : Option Byte) (s : State) : State :=
  match left with
  | none => s
  | some v => s.putChip a v

/-- `RegRead(a)` (R47, R49). -/
def regRead (a : Fin 3) (s : State) : Attempt Byte :=
  match s.turn.verdict with
  | .ok => .done (s.envMove.chipByte a) (s.envMove.emit (.regRead a (s.envMove.chipByte a)))
  | .failed _ => .raised .transportError (s.envMove.emit (.regFail .rd a))

/-- `RegWrite(a, v)` (R48, R49). -/
def regWrite (a : Fin 3) (v : Byte) (s : State) : Attempt Unit :=
  match s.turn.verdict with
  | .ok => .done () ((s.envMove.putChip a v).emit (.regWrite a v))
  | .failed left => .raised .transportError ((s.envMove.leave a left).emit (.regFail .wr a))

/-! ## Buttons and pins (R25, R30 to R32) -/

/-- The ButtonState of button `b`. -/
def State.button (s : State) : Button → ButtonState
  | .hour => s.btnH
  | .minute => s.btnM

/-- Writes the ButtonState of button `b`, and of no other. -/
def State.setButton (b : Button) (x : ButtonState) (s : State) : State :=
  match b with
  | .hour => { s with btnH := x }
  | .minute => { s with btnM := x }

/-- The level of pin `BTN[b]` (R32). -/
def State.buttonPin (s : State) : Button → Bool
  | .hour => s.pinH
  | .minute => s.pinM

/-- The level of data pin `D[k]`: bit `k` of `dv` (R22, R30). -/
def State.dataPin (s : State) (k : Fin 4) : Bool := s.dv.getLsbD k.val

/-- The level of latch pin `LE[i]` (R31). -/
def State.latchPin (s : State) (i : Fin 4) : Bool := s.le[i]

/-- The display's four contents, thousands first (R24). -/
def State.digits (s : State) : List Nibble := [s.disp[3], s.disp[2], s.disp[1], s.disp[0]]

/-- The display string (R24); none where a digit holds 10 to 15, whose glyph is in no rule (U7). -/
def State.displayString (s : State) : Option (List Char) :=
  s.digits.mapM fun d => if d.toNat ≤ 9 then some (Char.ofNat (48 + d.toNat)) else none

/-! ## Presenting a command, and reset (R34, R44) -/

/-- A command is presented: its word and its environment inputs stand on the ports, its scripted moves are the
coming ones. -/
def State.present (c : Presented) (s : State) : State :=
  { s with cmd := c.word, now := c.now, pinH := c.pinH, pinM := c.pinM, turns := c.turns }

/-- `rst` asserted between two commands (R41, R44, R190): every element of the block gets its value of R41's table,
the unspecified ones a fresh free one (log 3). The chip's registers are not reset; the digit elements, not the block's,
hold `digits`, which may be anything, or what they last latched (R41, R192, log 8); the trace starts empty. -/
def State.assertReset (digits : Option (Vector Nibble 4)) (s : State) : State :=
  { s with
    dv := (Config.unspecified (s.resets + 1)).dv
    le := Vector.replicate 4 false
    btnH := .atReset (Config.unspecified (s.resets + 1)).pressDownAtH (Config.unspecified (s.resets + 1)).nextRepeatAtH
    btnM := .atReset (Config.unspecified (s.resets + 1)).pressDownAtM (Config.unspecified (s.resets + 1)).nextRepeatAtM
    running := false
    hour := (Config.unspecified (s.resets + 1)).hour
    minute := (Config.unspecified (s.resets + 1)).minute
    lastRecon := none
    terr := false
    res := 0#32
    err := 0#2
    disp := digits.getD s.disp
    trace := []
    resets := s.resets + 1 }

/-- Power lost and back (R192): the block's elements are rebuilt from R41's table, the digit elements hold anything;
the chip's registers are battery-backed. -/
def State.losePower (s : State) : State := s.assertReset (some (Config.unspecified (s.resets + 1)).disp)

/-- An illegal word (R75): only `RES` and `ERR` change. -/
def refuseWord (s : State) : State := takeError .illegalCommand s

/-- The word the next step takes is replaced by `w`; where the host presents no command, one is put in front,
with the ports as they stand. -/
def withWordPresented (w : Word) (s : State) : State :=
  match s.host with
  | .command c :: rest => { s with host := .command { c with word := w } :: rest }
  | .reset digits :: rest =>
    { s with host :=
      .command { word := w, now := s.now, pinH := s.pinH, pinM := s.pinM, turns := s.turns } :: .reset digits :: rest }
  | .powerCycle :: rest =>
    { s with host := .command { word := w, now := s.now, pinH := s.pinH, pinM := s.pinM, turns := s.turns } :: .powerCycle :: rest }
  | [] => { s with host := [.command { word := w, now := s.now, pinH := s.pinH, pinM := s.pinM, turns := s.turns }] }

end Sys2Proof.Machine
end

