-- ==== Sys2Proof/Machine/ButtonInput.lean ====
section
/-! DEFINITION. ButtonInput (`42_buttoninput.md`): `BTNRST`, `BTNPROC`. -/

namespace Sys2Proof.Machine

/-- The press edge (R123): both timestamps are set, nothing fires (D20). -/
def pressEdge (cfg : Cfg) (now : Nat) : ButtonState :=
  { st := .pressed, pressDownAt := now, nextRepeatAt := now + cfg.longMs }

/-- A held call (R124): at most one repeat; the schedule advances from its own old value. -/
def heldCall (cfg : Cfg) (now : Nat) (x : ButtonState) : ButtonState × Option Firing :=
  if now ≥ x.nextRepeatAt then ({ x with nextRepeatAt := x.nextRepeatAt + cfg.repeatMs }, some .autoRepeat) else (x, none)

/-- The release edge (R125): a click only if the hold was shorter than `LONG_MS`; `Idle` regardless. -/
def releaseEdge (cfg : Cfg) (now : Nat) (x : ButtonState) : ButtonState × Option Firing :=
  ({ x with st := .idle }, if (now : Int) - (x.pressDownAt : Int) < (cfg.longMs : Int) then some .click else none)

/-- One call of the two-state machine: the one of R123 to R126 that applies. -/
def nextButton (cfg : Cfg) (asserted : Bool) (now : Nat) (x : ButtonState) : ButtonState × Option Firing :=
  match x.st, asserted with
  | .idle, true => (pressEdge cfg now, none)
  | .pressed, true => heldCall cfg now x
  | .pressed, false => releaseEdge cfg now x
  | .idle, false => (x, none)

/-- The sample of pin `BTN[b]` (R121). -/
def State.asserted (s : State) (b : Button) : Bool := s.buttonPin b == s.cfg.activeLevel

/-- What `process(b, now)` fires. -/
def firing (b : Button) (now : Nat) (s : State) : Option Firing :=
  (nextButton s.cfg (s.asserted b) now (s.button b)).2

/-- The event of a firing (R124, R125). -/
def emitFiring (b : Button) : Option Firing → State → State
  | none, s => s
  | some .click, s => s.emit (.click b)
  | some .autoRepeat, s => s.emit (.autoRepeat b)

/-- `process(b, now)` (R127): the button's state moves first (R133), then its event is emitted. -/
def process (b : Button) (now : Nat) (s : State) : State :=
  emitFiring b (firing b now s) (s.setButton b (nextButton s.cfg (s.asserted b) now (s.button b)).1)

/-- Construction of a ButtonInput (R122): `Idle`; the timestamps keep what they hold. -/
def resetButton (b : Button) (s : State) : State := s.setButton b { s.button b with st := .idle }

/-- `BTNRST b` (R122). -/
def execBtnrst (b : Button) (s : State) : Host.Outcome State Fault Refusal := .next (complete 0#32 (resetButton b s))

/-- `BTNPROC b` (R127): the callbacks are wired to nothing, the event is in `RES` and in the trace. -/
def execBtnproc (b : Button) (s : State) : Host.Outcome State Fault Refusal :=
  .next (complete (resultFiring (firing b s.now s)) (process b s.now s))

end Sys2Proof.Machine
end

