-- ==== Sys2Proof/Machine/ClockChip.lean ====
section
/-! DEFINITION. ClockChip (`41_clockchip.md`): `RTCINIT`, `DECHR`, `GETTIME`, `SETTIME`. The unit has no state
of its own (R20). -/

namespace Sys2Proof.Machine

/-- ClockChip construction (R102): clears the clock-halt flag if it is set, and only then writes. -/
def rtcInit (s : State) : Attempt Unit :=
  (regRead 0 s).andThen fun r s => if haltFlag r then regWrite 0 (withoutHalt r) s else .done () s

/-- `getTime()` (R104): registers 0, 1, 2, in this order (R64). -/
def getTime (s : State) : Attempt Time :=
  (regRead 0 s).andThen fun r0 s =>
  (regRead 1 s).andThen fun r1 s =>
  (regRead 2 s).andThen fun r2 s =>
  .done (decodeTime r0 r1 r2) s

/-- `setTime(h, m, s)` (R106): every field wraps; registers 0, 1, 2, in this order (R64), written whole. -/
def setTime (h m sec : Int) (s : State) : Attempt Unit :=
  (regWrite 0 (secondsByte sec) s).andThen fun _ s =>
  (regWrite 1 (minutesByte m) s).andThen fun _ s =>
  regWrite 2 (hoursByte h) s

/-- `RTCINIT` (R102). -/
def execRtcinit (s : State) : Host.Outcome State Fault Refusal := .next (concludePlain (rtcInit s))

/-- `DECHR raw` (R103): pure. -/
def execDechr (raw : Byte) (s : State) : Host.Outcome State Fault Refusal :=
  .next (complete (resultHour (decodeHours raw)) s)

/-- `GETTIME` (R104). -/
def execGettime (s : State) : Host.Outcome State Fault Refusal :=
  .next (conclude ((getTime s).andThen fun t s => .done (resultTime t) s))

/-- `SETTIME h, m, s` (R106). -/
def execSettime (h m sec : Int) (s : State) : Host.Outcome State Fault Refusal :=
  .next (concludePlain (setTime h m sec s))

end Sys2Proof.Machine
end

