-- ==== Sys2Proof/Machine/DigitBus.lean ====
section
/-! DEFINITION. DigitBus (`40_digitbus.md`): `WRNIB`, `LATCH`, `WRDIG`, `WRNUM`, `LASTV`. -/

namespace Sys2Proof.Machine

/-- `writeNibble(v)` (R86): the data lines carry the low four bits of `v`; no latch line moves. -/
def writeNibble (v : Int) (s : State) : State := ({ s with dv := nibbleOf v }).emit (.data (nibbleOf v))

/-- Latch line `i` is driven high (R88). -/
def latchHigh (i : Fin 4) (s : State) : State := ({ s with le := s.le.set i true }).emit (.latchHigh i)

/-- The pulse width is waited with no pin changing (R88). -/
def holdPulse (s : State) : State := s.emit (.hold s.cfg.pulseUs)

/-- Latch line `i` is driven low (R88). -/
def latchLow (i : Fin 4) (s : State) : State := ({ s with le := s.le.set i false }).emit (.latchLow i)

/-- What a completed pulse does downstream (R89). -/
def commitDigit (i : Fin 4) (s : State) : State := { s with disp := s.disp.set i s.dv }

/-- One complete pulse on latch line `i` (R88, R89). -/
def pulse (i : Fin 4) (s : State) : State := commitDigit i (latchLow i (holdPulse (latchHigh i s)))

/-- `latch(idx)` (R88): an index outside 0..3 raises, and no pin moves. -/
def latch (idx : Int) (s : State) : Attempt Unit :=
  match lineOf idx with
  | some i => .done () (pulse i s)
  | none => .raised .invalidArgument s

/-- The settle delay between the data and the pulse (R90): an event only when it is above 0. -/
def settle (s : State) : State := if s.cfg.settleUs > 0 then s.emit (.settle s.cfg.settleUs) else s

/-- `writeDigit(v, idx)` (R90): the literal composition, so a bad index raises after the nibble was applied. -/
def writeDigit (v idx : Int) (s : State) : Attempt Nibble :=
  (latch idx (settle (writeNibble v s))).andThen fun _ s => .done (nibbleOf v) s

/-- `writeDigit` with an index that is a digit position, which cannot raise (R91). -/
def putDigit (v : Int) (i : Fin 4) (s : State) : State := pulse i (settle (writeNibble v s))

/-- The loop of `writeNumber` (R91): the ones of `x` to the first index, the rest to the following ones. -/
def putDigits : List (Fin 4) → Nat → State → State
  | [], _, s => s
  | i :: is, x, s => putDigits is (x / 10) (putDigit (x % 10 : Nat) i s)

/-- `writeNumber(n)` (R91): clamped to [0, 9999], digits 0, 1, 2, 3 in this order, leading zeros written. -/
def writeNumber (n : Int) (s : State) : State := putDigits [0, 1, 2, 3] (shownNumber n) s

/-- `WRNIB v` (R86). -/
def execWrnib (v : Int) (s : State) : Host.Outcome State Fault Refusal :=
  .next (complete (resultNibble (nibbleOf v)) (writeNibble v s))

/-- `LATCH idx` (R88). -/
def execLatch (idx : Int) (s : State) : Host.Outcome State Fault Refusal := .next (concludePlain (latch idx s))

/-- `WRDIG v, idx` (R90). -/
def execWrdig (v idx : Int) (s : State) : Host.Outcome State Fault Refusal :=
  .next (conclude ((writeDigit v idx s).andThen fun n s => .done (resultNibble n) s))

/-- `WRNUM n` (R91). -/
def execWrnum (n : Int) (s : State) : Host.Outcome State Fault Refusal := .next (complete 0#32 (writeNumber n s))

/-- `LASTV` (R93). -/
def execLastv (s : State) : Host.Outcome State Fault Refusal := .next (complete (resultNibble s.dv) s)

end Sys2Proof.Machine
end

