-- ==== Sys2Proof/Machine/Controller.lean ====
section
/-! DEFINITION. ClockController (`43_controller.md`): `START`, `TICK`, `INCH`, `INCM`, `RECON`. -/

namespace Sys2Proof.Machine

/-- `hour`, `minute` are set together (R142, R152). -/
def State.setMirror (hour minute : Nat) (s : State) : State := { s with hour := hour, minute := minute }

/-- `render()` (R144): `writeNumber(hour*100 + minute)` for every mirror value (D33). -/
def render (s : State) : State := writeNumber (s.hour * 100 + s.minute : Nat) s

/-- `incHour` (R145): the chip first; the mirror and the display only after the write succeeded (R157). -/
def incHour (s : State) : Attempt Unit :=
  (setTime ((s.hour + 1) % 24 : Nat) s.minute 0 s).andThen fun _ t =>
  .done () (render (t.setMirror ((s.hour + 1) % 24) t.minute))

/-- `incMinute` (R146): no carry into the hour (R147). -/
def incMinute (s : State) : Attempt Unit :=
  (setTime s.hour ((s.minute + 1) % 60 : Nat) 0 s).andThen fun _ t =>
  .done () (render (t.setMirror t.hour ((s.minute + 1) % 60)))

/-- `lastRecon <- now`: an attempt counts (R154). -/
def stampRecon (now : Nat) (s : State) : State := { s with lastRecon := some now }

/-- The chip's hour and minute are adopted and rendered if they differ from the mirror (R152). -/
def adopt (t : Time) (s : State) : State :=
  if t.hour = s.hour ∧ t.minute = s.minute then s else render (s.setMirror t.hour t.minute)

/-- `reconcile(now)` (R152). -/
def reconcile (now : Nat) (s : State) : Attempt Unit :=
  (getTime (stampRecon now s)).andThen fun t s => .done () (adopt t s)

/-- The body of `START` after its phase check (R142). -/
def startUp (s : State) : Attempt Unit :=
  (rtcInit s).andThen fun _ s =>
  (getTime (resetButton .minute (resetButton .hour s))).andThen fun t s =>
  .done () { render (s.setMirror t.hour t.minute) with lastRecon := none, running := true }

/-- One button step of a tick (R150): both callbacks are the same increment (R148). -/
def buttonStep (b : Button) (increment : State → Attempt Unit) (now : Nat) (s : State) : Attempt Unit :=
  match firing b now s with
  | none => .done () (process b now s)
  | some _ => increment (process b now s)

/-- The condition of step 4 (R151): the first tick, or `REFRESH_MS` since the last attempt. -/
def reconDue (now : Nat) (s : State) : Bool :=
  match s.lastRecon with
  | none => true
  | some last => decide ((now : Int) - (last : Int) ≥ (s.cfg.refreshMs : Int))

/-- Step 4 of a tick (R151, R152). -/
def reconStep (now : Nat) (s : State) : Attempt Unit := if reconDue now s then reconcile now s else .done () s

/-- Steps 2 to 4 of a tick, all with the one `now` of step 1 (R149, R155). -/
def tickSteps (now : Nat) (s : State) : Attempt Unit :=
  (buttonStep .hour incHour now s).andThen fun _ s =>
  (buttonStep .minute incMinute now s).andThen fun _ s =>
  reconStep now s

/-- `START` (R142, R143). -/
def execStart (s : State) : Host.Outcome State Fault Refusal := .next (concludePlain (whileStopped startUp s))

/-- `TICK` (R149, R153). -/
def execTick (s : State) : Host.Outcome State Fault Refusal :=
  .next (concludePlain (whileRunning (fun s => catchTransport (tickSteps s.now s)) s))

/-- `INCH` (R145). -/
def execInch (s : State) : Host.Outcome State Fault Refusal := .next (concludePlain (whileRunning incHour s))

/-- `INCM` (R146). -/
def execIncm (s : State) : Host.Outcome State Fault Refusal := .next (concludePlain (whileRunning incMinute s))

/-- `RECON` (R152): unconditional. -/
def execRecon (s : State) : Host.Outcome State Fault Refusal :=
  .next (concludePlain (whileRunning (fun s => reconcile s.now s) s))

end Sys2Proof.Machine
end

