-- ==== Sys2Proof/Machine/Dispatch.lean ====
section
/-! DEFINITION. One arm per command: the meaning of each. -/

namespace Sys2Proof.Machine

def exec (i : Instr) (s : State) : Host.Outcome State Fault Refusal :=
  match i with
  | .wrnib v => Sys2Proof.Machine.execWrnib v s
  | .latch idx => Sys2Proof.Machine.execLatch idx s
  | .wrdig v idx => Sys2Proof.Machine.execWrdig v idx s
  | .wrnum n => Sys2Proof.Machine.execWrnum n s
  | .lastv => Sys2Proof.Machine.execLastv s
  | .rtcinit => Sys2Proof.Machine.execRtcinit s
  | .dechr raw => Sys2Proof.Machine.execDechr raw s
  | .gettime => Sys2Proof.Machine.execGettime s
  | .settime h m sec => Sys2Proof.Machine.execSettime h m sec s
  | .btnrst b => Sys2Proof.Machine.execBtnrst b s
  | .btnproc b => Sys2Proof.Machine.execBtnproc b s
  | .start => Sys2Proof.Machine.execStart s
  | .tick => Sys2Proof.Machine.execTick s
  | .inch => Sys2Proof.Machine.execInch s
  | .incm => Sys2Proof.Machine.execIncm s
  | .recon => Sys2Proof.Machine.execRecon s

end Sys2Proof.Machine
end

