-- ==== Sys2Proof/Machine/Step.lean ====
section
/-! DEFINITION. One step: what the host presents next is executed to completion (R11, R34). -/

namespace Sys2Proof.Machine

/-- Executes the word on `CMD` (R74): an illegal word is refused (R75), any other runs. -/
def execWord (s : State) : Host.Outcome State Fault Refusal :=
  match decode s.cmd with
  | .ok i => exec i s
  | .error _ => .next (refuseWord s)

/-- One step. The host's next command is accepted, executed to completion, and only then is the next accepted
(R34); `rst` and a power cycle act between commands (R191, R192); with nothing presented the block holds its state (R186). -/
def step (s : State) : Host.Outcome State Fault Refusal :=
  match s.host with
  | [] => .next s
  | .command c :: rest => execWord (({ s with host := rest }).present c)
  | .reset digits :: rest => .next (({ s with host := rest }).assertReset digits)
  | .powerCycle :: rest => .next ({ s with host := rest }).losePower

/-- `s` with the word `w` presented to the next step (log 1, log 12). -/
def State.withFetchWord (s : State) (nbits w : Nat) : State := withWordPresented (BitVec.ofNat 32 (w % 2 ^ nbits)) s

end Sys2Proof.Machine
end

