-- ==== Sys2Proof/Safety.lean ====
section
/-! DEFINITION. The terms claims are stated in: the invariant of the block (R42), what the display shows (R24,
R92), the events of a digit and of a number (R15, R90, R91), the environment's coming moves (R53), and runs of one
button (R129, R130). -/

namespace Sys2Proof.Machine

/-! ## The invariant (R42) -/

/-- R42 (c): a pressed button's next repeat lies at least `LONG_MS` after its press. -/
def ButtonState.Scheduled (cfg : Cfg) (x : ButtonState) : Prop :=
  x.st = .pressed → x.pressDownAt + cfg.longMs ≤ x.nextRepeatAt

/-- What holds between commands (R42), with what the model adds for its own fields. -/
structure State.Inv (s : State) : Prop where
  /-- R42 (b): every latch line is low. -/
  linesLow : s.le = Vector.replicate 4 false
  /-- R42 (c), hour button. -/
  hourButton : s.btnH.Scheduled s.cfg
  /-- R42 (c), minute button. -/
  minuteButton : s.btnM.Scheduled s.cfg
  /-- R42 (d): what a chip holding anything at all can put into the mirror. -/
  mirror : s.running = true → s.hour ≤ 45 ∧ s.minute ≤ 165
  /-- Before `START` no reconciliation was attempted (R29, R141). -/
  noRecon : s.running = false → s.lastRecon = none
  /-- R35: a failed command leaves `RES` = 0. -/
  failedResult : s.err ≠ 0#2 → s.res = 0#32
  /-- The chip's registers are in canonical form. -/
  chipCanonical : Memory.wf s.rtc = true
  /-- Only registers 0, 1, 2 are ever listed (R58, R59). -/
  chipRegisters : ∀ c ∈ s.rtc, c.1 < 3

/-! ## The display (R24, R92) -/

/-- The four digit elements show the number `x`: the ones at index 0 (R92). -/
def State.Shows (s : State) (x : Nat) : Prop :=
  s.disp = #v[BitVec.ofNat 4 (decimalDigit x 0), BitVec.ofNat 4 (decimalDigit x 1),
    BitVec.ofNat 4 (decimalDigit x 2), BitVec.ofNat 4 (decimalDigit x 3)]

/-- R42 (e): the display equals `clamp(0, 9999, hour*100 + minute)`. -/
def State.ShowsMirror (s : State) : Prop := s.Shows (shownNumber (s.hour * 100 + s.minute : Nat))

/-- The settle event of a digit write: only if `SETTLE_US` > 0 (R90). -/
def settleEvents (cfg : Cfg) : List Event := if cfg.settleUs > 0 then [.settle cfg.settleUs] else []

/-- The events of one pulse on line `i` (R88). -/
def pulseEvents (cfg : Cfg) (i : Fin 4) : List Event := [.latchHigh i, .hold cfg.pulseUs, .latchLow i]

/-- `W(d@i)`, the events of one digit write (R90). -/
def digitEvents (cfg : Cfg) (d : Nibble) (i : Fin 4) : List Event :=
  .data d :: (settleEvents cfg ++ pulseEvents cfg i)

/-- The events of a whole number: ones, tens, hundreds, thousands (R91, R92). -/
def numberEvents (cfg : Cfg) (x : Nat) : List Event :=
  digitEvents cfg (BitVec.ofNat 4 (decimalDigit x 0)) 0 ++ digitEvents cfg (BitVec.ofNat 4 (decimalDigit x 1)) 1 ++
  digitEvents cfg (BitVec.ofNat 4 (decimalDigit x 2)) 2 ++ digitEvents cfg (BitVec.ofNat 4 (decimalDigit x 3)) 3

/-- What a completed `writeNumber` of the in-range number `x` leaves (R91, R92): the four digits in the digit
elements, the thousands digit on the data lines, all latch lines low, its events in the trace. -/
def State.rendered (x : Nat) (s : State) : State :=
  { s with
    dv := BitVec.ofNat 4 (decimalDigit x 3)
    le := Vector.replicate 4 false
    disp := #v[BitVec.ofNat 4 (decimalDigit x 0), BitVec.ofNat 4 (decimalDigit x 1), BitVec.ofNat 4 (decimalDigit x 2),
      BitVec.ofNat 4 (decimalDigit x 3)]
    trace := s.trace ++ numberEvents s.cfg x }

/-- The number a mirror (hour, minute) is rendered as (R144). -/
def mirrorNumber (hour minute : Nat) : Nat := shownNumber (hour * 100 + minute : Nat)

/-! ## The environment's coming moves (R53) -/

/-- The state after the environment made its next `k` moves and nothing else happened. -/
def State.moves : Nat → State → State
  | 0, s => s
  | k + 1, s => (State.moves k s).envMove

/-- The `k`-th coming transaction (from 0) succeeds. -/
def State.Succeeds (s : State) (k : Nat) : Prop := (s.moves k).turn.verdict = .ok

/-- The byte that a read of register `a` returns when it is the `k`-th coming transaction (from 0) and no write
comes before it. -/
def State.readAt (s : State) (k : Nat) (a : Fin 3) : Byte := (s.moves (k + 1)).chipByte a

/-- What a successful write of `v` to register `a` does to everything but the trace (R48). -/
def State.wrote (a : Fin 3) (v : Byte) (s : State) : State := s.envMove.putChip a v

/-- Of the next three transactions, those before the `k`-th succeed and the `k`-th fails. `left` is what the environment
leaves in the register if it is a write (R48); a read does not look at it. -/
def State.FailsAt (s : State) (k : Fin 3) (left : Option Byte) : Prop :=
  (∀ j < k.val, s.Succeeds j) ∧ (s.moves k).turn.verdict = .failed left

/-- What writes to registers 0, 1, 2 in this order, of `b0`, `b1` and a third byte, leave when the `k`-th fails (R106): the
writes before it stay, its register is as the environment leaves it, the later ones are not made, so the third byte never
reaches the chip. -/
def State.writeFailure (b0 b1 : Byte) (k : Fin 3) (left : Option Byte) (s : State) : State :=
  match k with
  | 0 => { s.envMove.leave 0 left with trace := s.trace ++ [.regFail .wr 0] }
  | 1 => { (s.wrote 0 b0).envMove.leave 1 left with trace := s.trace ++ [.regWrite 0 b0, .regFail .wr 1] }
  | 2 => { ((s.wrote 0 b0).wrote 1 b1).envMove.leave 2 left with
           trace := s.trace ++ [.regWrite 0 b0, .regWrite 1 b1, .regFail .wr 2] }

/-- What three reads of registers 0, 1, 2 leave when the `k`-th fails (R104): nothing is written, the later reads are
not made. -/
def State.readFailure (k : Fin 3) (s : State) : State :=
  match k with
  | 0 => { s.moves 1 with trace := s.trace ++ [.regFail .rd 0] }
  | 1 => { s.moves 2 with trace := s.trace ++ [.regRead 0 (s.readAt 0 0), .regFail .rd 1] }
  | 2 => { s.moves 3 with trace := s.trace ++ [.regRead 0 (s.readAt 0 0), .regRead 1 (s.readAt 1 1), .regFail .rd 2] }

/-- The quiescent chip for the next `n` transactions (R53): nothing but the block changes a register, nothing
fails. -/
def State.Quiescent (s : State) (n : Nat) : Prop := s.turns.take n = List.replicate n Turn.quiet

/-! ## Events -/

/-- A failed transaction in the trace (R49, R187). -/
def Event.isFailure : Event → Bool
  | .regFail _ _ => true
  | _ => false

/-- A register transaction in the trace. -/
def Event.isTransaction : Event → Bool
  | .regRead _ _ => true
  | .regWrite _ _ => true
  | .regFail _ _ => true
  | _ => false

/-- A write to register `a`, completed or failed. -/
def Event.isWriteTo (a : Fin 3) : Event → Bool
  | .regWrite b _ => a == b
  | .regFail .wr b => a == b
  | _ => false

/-- The byte that a completed write stored. -/
def Event.byteWritten : Event → Option Byte
  | .regWrite _ v => some v
  | _ => none

/-- The environment changes no register of its own at the next `n` transactions; it may still fail them (R53). -/
def State.Untouched (s : State) (n : Nat) : Prop := n ≤ s.turns.length ∧ ∀ x ∈ s.turns, x.changes = []

/-- What register `a` holds after the events `es` if it held `held` before (R48): the byte last written to it, else
`held`; `none` once a write to it failed, until the next good one. -/
def heldAfter (a : Fin 3) (held : Option Byte) (es : List Event) : Option Byte :=
  es.foldl (fun h e => if e.isWriteTo a then e.byteWritten else h) held

/-- A byte the block may write (R54, R107): never the clock-halt bit, always the 24-hour layout with bit 7 = 0. -/
def Event.WritesTamely : Event → Prop
  | .regWrite a v => (a = 0 → haltFlag v = false) ∧ (a = 2 → twelveHourFlag v = false ∧ v.getLsbD 7 = false)
  | _ => True

/-- The event of a firing of button `b` (R124, R125). -/
def firingEvent (b : Button) : Firing → Event
  | .click => .click b
  | .autoRepeat => .autoRepeat b

/-- The events of one `process` call: none or one (R128). -/
def firingEvents (b : Button) : Option Firing → List Event
  | none => []
  | some f => [firingEvent b f]

/-! ## The steps of a tick (R149 to R153) -/

/-- The state after one `process` call of button `b` (R127): its own button has moved, its event is in the trace. -/
def State.polled (b : Button) (s : State) : State :=
  { s.setButton b (nextButton s.cfg (s.buttonPin b == s.cfg.activeLevel) s.now (s.button b)).1 with
    trace := s.trace ++ firingEvents b (firing b s.now s) }

/-- Step 2 or 3 of a tick after its `process` call, gone well (R149): with no event the state `p` stays; with one, the
command `i` of the increment completes, but for `RES` and `ERR`, which are written at the end of the tick only. -/
def StepRan (i : Instr) (f : Option Firing) (p u : State) : Prop :=
  match f with
  | none => u = p
  | some _ => exec i p = .next { u with res := 0#32, err := 0#2 } ∧ u.res = p.res ∧ u.err = p.err

/-- R151: the first tick, or at least `REFRESH_MS` since the last attempt. -/
def State.ReconDue (s : State) : Prop :=
  s.lastRecon = none ∨ ∃ last, s.lastRecon = some last ∧ (s.cfg.refreshMs : Int) ≤ (s.now : Int) - (last : Int)

/-- How a tick ends that caught a transport error in the state `s` (R153). -/
def State.reported (s : State) : State :=
  { s with terr := true, trace := s.trace ++ [.report .transportError], res := 0#32, err := 0#2 }

/-! ## The four units (R2, R73) -/

/-- Which unit a command belongs to: the high nibble of its opcode (R73). -/
inductive BlockUnit where
  | digitBus
  | clockChip
  | buttonInput
  | clockController
  deriving DecidableEq, Repr

/-- The unit of a command (R73). -/
def blockUnitOf : Instr → BlockUnit
  | .wrnib _ => .digitBus
  | .latch _ => .digitBus
  | .wrdig _ _ => .digitBus
  | .wrnum _ => .digitBus
  | .lastv => .digitBus
  | .rtcinit => .clockChip
  | .dechr _ => .clockChip
  | .gettime => .clockChip
  | .settime _ _ _ => .clockChip
  | .btnrst _ => .buttonInput
  | .btnproc _ => .buttonInput
  | .start => .clockController
  | .tick => .clockController
  | .inch => .clockController
  | .incm => .clockController
  | .recon => .clockController

/-- The host commands that can change a digit element (R42 e): those that pulse a latch line. -/
def pulsesALine : Instr → Bool
  | .latch _ => true
  | .wrdig _ _ => true
  | .wrnum _ => true
  | .wrnib _ => false
  | .lastv => false
  | .rtcinit => false
  | .dechr _ => false
  | .gettime => false
  | .settime _ _ _ => false
  | .btnrst _ => false
  | .btnproc _ => false
  | .start => false
  | .tick => false
  | .inch => false
  | .incm => false
  | .recon => false

/-! ## Runs of one button (R129, R130) -/

/-- `BTNPROC b` presented at `now` with both pins at `level`. -/
def pollInput (b : Button) (level : Bool) (now : Nat) : HostInput :=
  .command { word := encode (.btnproc b), now := now, pinH := level, pinM := level, turns := [] }

/-- `NOW` never decreases over the calls of a list that starts after a call at `t0` (R134). -/
def NonDecreasing : Nat → List Nat → Prop
  | _, [] => True
  | t0, t :: ts => t0 ≤ t ∧ NonDecreasing t ts

/-- Consecutive calls are never more than `gap` apart, and `NOW` never decreases (R130, R134). -/
def Dense (gap : Nat) : Nat → List Nat → Prop
  | _, [] => True
  | t0, t :: ts => t0 ≤ t ∧ t ≤ t0 + gap ∧ Dense gap t ts

/-- The time of the last call of a list, `t0` if it is empty: R130's `ta`. -/
def lastCall (t0 : Nat) (ts : List Nat) : Nat := ts.getLastD t0

/-- R130's count: how many repeats a press held from `t0` to `ta` fires. -/
def repeatCount (cfg : Cfg) (t0 ta : Nat) : Nat :=
  if ta - t0 < cfg.longMs then 0 else (ta - t0 - cfg.longMs) / cfg.repeatMs + 1

end Sys2Proof.Machine
end

