-- ==== Sys2Proof/Certificates/Slice0/Obligations.lean ====
section
/-! DEFINITION. The statements for the provers. Where a statement gives the next state as one record update, every
field it does not name is unchanged: that is the command's frame. -/

open Sys2Proof Sys2Proof.Machine

/-! ## Encoding (30_encoding.md) -/

/-- R65 to R73: no bit of an encoding is dropped, for every command and every operand its field admits. -/
def Obligations.DecodeOfEncodeIsTheCommand : Prop :=
  ∀ i : Instr, i.WellFormed → decode (encode i) = .ok i

/-- R65 to R74: every word that decodes is the encoding of what it decodes to, and its operands are in range. -/
def Obligations.EncodeOfDecodeIsTheWord : Prop :=
  ∀ (w : Word) (i : Instr), decode w = .ok i → i.WellFormed ∧ encode i = w

/-- R73: `match` and `mask` are such that a word is the command if and only if `word & mask = match`, row by row. -/
def Obligations.WordIsTheCommandIffItMatchesItsRow : Prop :=
  ∀ (w : Word) (r : Row), r ∈ opcodeTable →
    ((∃ i, decode w = .ok i ∧ i.mnemonic = r.mnemonic) ↔ w &&& r.mask = r.value)

/-- R74: at most one row matches a word. -/
def Obligations.AtMostOneRowMatches : Prop :=
  ∀ (w : Word) (r r' : Row), r ∈ opcodeTable → r' ∈ opcodeTable → w &&& r.mask = r.value → w &&& r'.mask = r'.value → r = r'

/-- R81: the worked encodings, each word as the spec writes it. -/
def Obligations.WorkedEncodingsDecode : Prop :=
  decode 0x10000007#32 = .ok (.wrnib 7) ∧ decode 0x1000001F#32 = .ok (.wrnib 0x1F) ∧
  decode 0x11000002#32 = .ok (.latch 2) ∧ decode 0x11000004#32 = .ok (.latch 4) ∧
  decode 0x12000309#32 = .ok (.wrdig 9 3) ∧ decode 0x1300032F#32 = .ok (.wrnum 815) ∧
  decode 0x1300270F#32 = .ok (.wrnum 9999) ∧ decode 0x1300FFFF#32 = .ok (.wrnum (-1)) ∧
  decode 0x13002710#32 = .ok (.wrnum 10000) ∧ decode 0x14000000#32 = .ok .lastv ∧
  decode 0x20000000#32 = .ok .rtcinit ∧ decode 0x21000072#32 = .ok (.dechr 0x72#8) ∧
  decode 0x22000000#32 = .ok .gettime ∧ decode 0x23070F1E#32 = .ok (.settime 7 15 30) ∧
  decode 0x23183C3C#32 = .ok (.settime 24 60 60) ∧ decode 0x30000000#32 = .ok (.btnrst .hour) ∧
  decode 0x30000001#32 = .ok (.btnrst .minute) ∧ decode 0x31000000#32 = .ok (.btnproc .hour) ∧
  decode 0x31000001#32 = .ok (.btnproc .minute) ∧ decode 0x40000000#32 = .ok .start ∧
  decode 0x41000000#32 = .ok .tick ∧ decode 0x42000000#32 = .ok .inch ∧ decode 0x43000000#32 = .ok .incm ∧
  decode 0x44000000#32 = .ok .recon ∧
  (∀ i, decode 0x00000000#32 ≠ .ok i) ∧ (∀ i, decode 0x14000001#32 ≠ .ok i) ∧
  (∀ i, decode 0x10000107#32 ≠ .ok i) ∧ (∀ i, decode 0x31000002#32 ≠ .ok i)

/-! ## Steps, reset, errors (60_exceptions.md, 70_reset_and_hazards.md, 10_state.md) -/

/-- R34, R74: the next presented word, if it decodes, is executed with its environment inputs on the ports, and is
used up. -/
def Obligations.StepRunsTheDecodedCommand : Prop :=
  ∀ (s : State) (c : Presented) (rest : List HostInput) (i : Instr),
    s.host = .command c :: rest → decode c.word = .ok i →
    step s = exec i { s with host := rest, cmd := c.word, now := c.now, pinH := c.pinH, pinM := c.pinM, turns := c.turns }

/-- R75, R168 (a): a word that matches no row changes `RES` and `ERR` only, emits nothing, and the block goes on. (The
word and its inputs stand on the ports, which are no state of the block.) -/
def Obligations.IllegalWordChangesOnlyTheErrorRegisters : Prop :=
  ∀ (s : State) (c : Presented) (rest : List HostInput),
    s.host = .command c :: rest → (∀ r ∈ opcodeTable, c.word &&& r.mask ≠ r.value) →
    step s = .next { s with
      host := rest, cmd := c.word, now := c.now, pinH := c.pinH, pinM := c.pinM, turns := c.turns, res := 0#32, err := 3#2 }

/-- R186: with nothing presented the block holds its pins and its state (log 1: an idle step is the model's form). -/
def Obligations.IdleStepHoldsTheState : Prop :=
  ∀ s : State, s.host = [] → step s = .next s

/-- R41: every value of the reset table that is not unspecified, in the state after reset. -/
def Obligations.ResetValuesAreTheTable : Prop :=
  (∀ i : Fin 4, State.reset.le[i] = false) ∧ State.reset.btnH.st = .idle ∧ State.reset.btnM.st = .idle ∧
  State.reset.running = false ∧ State.reset.lastRecon = none ∧ State.reset.terr = false ∧ State.reset.res = 0#32 ∧
  State.reset.err = 0#2 ∧ State.reset.trace = []

/-- R41, R44, R190, R192: asserting `rst` between two commands puts every element of the table at its value; the chip's
registers and the configuration are not reset; the trace starts empty. The digit elements hold any value: the one the
environment chose, or what they last latched (log 8, the model's form). (What R41 leaves unspecified in the block is
free: log 3.) -/
def Obligations.AssertedResetPutsTheTable : Prop :=
  ∀ (s : State) (digits : Option (Vector Nibble 4)) (rest : List HostInput), s.host = .reset digits :: rest →
    ∃ t, step s = .next t ∧ (∀ i : Fin 4, t.le[i] = false) ∧ t.btnH.st = .idle ∧ t.btnM.st = .idle ∧ t.running = false ∧
      t.lastRecon = none ∧ t.terr = false ∧ t.res = 0#32 ∧ t.err = 0#2 ∧ t.trace = [] ∧
      t.disp = digits.getD s.disp ∧ t.rtc = s.rtc ∧ t.cfg = s.cfg ∧ t.host = rest

/-- R192: over a power cycle only the chip's registers survive; the block comes back with the values of the reset table.
(Of the digit elements nothing is said: they hold anything, log 8.) -/
def Obligations.PowerCycleKeepsOnlyTheChip : Prop :=
  ∀ (s : State) (rest : List HostInput), s.host = .powerCycle :: rest →
    ∃ t, step s = .next t ∧ t.rtc = s.rtc ∧ (∀ i : Fin 4, t.le[i] = false) ∧ t.btnH.st = .idle ∧ t.btnM.st = .idle ∧
      t.running = false ∧ t.lastRecon = none ∧ t.terr = false ∧ t.res = 0#32 ∧ t.err = 0#2 ∧ t.trace = [] ∧ t.cfg = s.cfg ∧
      t.host = rest

/-- R187: the step is total: every state has a next one, whatever is presented and whatever the environment does. -/
def Obligations.EveryStepAnswersANextState : Prop :=
  ∀ s : State, ∃ t, step s = .next t

/-- R141, R168 (b): a controller command in the wrong phase fails with IllegalCommand, changes nothing else and emits
nothing; the eleven other commands are never refused. -/
def Obligations.WrongPhaseIsRefused : Prop :=
  (∀ s : State, s.running = true → exec .start s = .next { s with res := 0#32, err := 3#2 }) ∧
  (∀ (s : State) (i : Instr), s.running = false → i = .tick ∨ i = .inch ∨ i = .incm ∨ i = .recon →
    exec i s = .next { s with res := 0#32, err := 3#2 }) ∧
  (∀ (s : State) (i : Instr), blockUnitOf i ≠ .clockController → ∃ t, exec i s = .next t ∧ t.err ≠ 3#2)

/-! ## DigitBus (40_digitbus.md) -/

/-- R86: the low four bits of `v` go to the data lines and to `RES`; one event; no latch line, no digit moves. -/
def Obligations.WrnibAppliesTheMaskedNibble : Prop :=
  ∀ (v : Int) (s : State), exec (.wrnib v) s = .next { s with
    dv := BitVec.ofNat 4 (v % 16).toNat
    trace := s.trace ++ [.data (BitVec.ofNat 4 (v % 16).toNat)]
    res := BitVec.ofNat 32 (v % 16).toNat
    err := 0#2 }

/-- R87: the applied nibble is the low four bits of `v` in two's complement of any width of at least five bits. -/
def Obligations.AppliedNibbleIsTheTwosComplementMask : Prop :=
  ∀ (v : Int) (w : Nat) (s : State), 5 ≤ w →
    ∃ t, exec (.wrnib v) s = .next t ∧ t.dv = (BitVec.ofInt w v).setWidth 4

/-- R88, R89: a legal index pulses its own line and commits `dv` to its own digit; any other index fails with
InvalidArgument, and nothing moves. -/
def Obligations.LatchPulsesOnlyItsOwnLine : Prop :=
  (∀ (i : Fin 4) (s : State), exec (.latch (i.val : Int)) s = .next { s with
    le := s.le.set i false
    disp := s.disp.set i s.dv
    trace := s.trace ++ [.latchHigh i, .hold s.cfg.pulseUs, .latchLow i]
    res := 0#32
    err := 0#2 }) ∧
  (∀ (idx : Int) (s : State), idx < 0 ∨ 3 < idx → exec (.latch idx) s = .next { s with res := 0#32, err := 1#2 })

/-- R90: the nibble is applied, the settle delay is an event only if it is above 0, then the digit is latched; with a
bad index the nibble has been applied when the error is raised, and no digit changes. -/
def Obligations.WrdigAppliesThenLatches : Prop :=
  (∀ (v : Int) (i : Fin 4) (s : State), exec (.wrdig v (i.val : Int)) s = .next { s with
    dv := nibbleOf v
    le := s.le.set i false
    disp := s.disp.set i (nibbleOf v)
    trace := s.trace ++ [.data (nibbleOf v)] ++ (if s.cfg.settleUs > 0 then [.settle s.cfg.settleUs] else []) ++
      [.latchHigh i, .hold s.cfg.pulseUs, .latchLow i]
    res := (nibbleOf v).setWidth 32
    err := 0#2 }) ∧
  (∀ (v idx : Int) (s : State), idx < 0 ∨ 3 < idx → exec (.wrdig v idx) s = .next { s with
    dv := nibbleOf v
    trace := s.trace ++ [.data (nibbleOf v)] ++ (if s.cfg.settleUs > 0 then [.settle s.cfg.settleUs] else [])
    res := 0#32
    err := 1#2 })

/-- R91, R92: `WRNUM` shows the four decimal digits of the number clamped to [0, 9999], ones first, leading zeros
written; 16 events, 20 with a settle delay; `dv` is left at the thousands digit. -/
def Obligations.WrnumShowsTheClampedNumber : Prop :=
  ∀ (n : Int) (x d0 d1 d2 d3 : Nat) (s : State), (x : Int) = max 0 (min 9999 n) →
    d0 < 10 → d1 < 10 → d2 < 10 → d3 < 10 → x = d0 + 10 * d1 + 100 * d2 + 1000 * d3 →
    exec (.wrnum n) s = .next { s with
      dv := BitVec.ofNat 4 d3
      le := Vector.replicate 4 false
      disp := #v[BitVec.ofNat 4 d0, BitVec.ofNat 4 d1, BitVec.ofNat 4 d2, BitVec.ofNat 4 d3]
      trace := s.trace ++ digitEvents s.cfg (BitVec.ofNat 4 d0) 0 ++ digitEvents s.cfg (BitVec.ofNat 4 d1) 1 ++
        digitEvents s.cfg (BitVec.ofNat 4 d2) 2 ++ digitEvents s.cfg (BitVec.ofNat 4 d3) 3
      res := 0#32
      err := 0#2 } ∧
    (numberEvents s.cfg x).length = (if s.cfg.settleUs > 0 then 20 else 16)

/-- R93: `LASTV` returns `dv` and changes nothing but the result registers. -/
def Obligations.LastvReturnsTheAppliedNibble : Prop :=
  ∀ s : State, exec .lastv s = .next { s with res := BitVec.ofNat 32 s.dv.toNat, err := 0#2 }

/-! ## ClockChip (41_clockchip.md, 20_memory.md) -/

/-- R102: the halt flag is cleared if it is set, and only then a write is made; a failing read writes nothing; a
failing write leaves register 0 as the environment leaves it. -/
def Obligations.RtcinitClearsOnlyTheHaltFlag : Prop :=
  (∀ s : State, s.Succeeds 0 → (s.readAt 0 0).getLsbD 7 = false → exec .rtcinit s = .next { s.moves 1 with
    trace := s.trace ++ [.regRead 0 (s.readAt 0 0)], res := 0#32, err := 0#2 }) ∧
  (∀ s : State, s.Succeeds 0 → s.Succeeds 1 → (s.readAt 0 0).getLsbD 7 = true →
    exec .rtcinit s = .next { (s.moves 1).wrote 0 (s.readAt 0 0 &&& 0x7F#8) with
      trace := s.trace ++ [.regRead 0 (s.readAt 0 0), .regWrite 0 (s.readAt 0 0 &&& 0x7F#8)], res := 0#32, err := 0#2 }) ∧
  (∀ s : State, ¬ s.Succeeds 0 → exec .rtcinit s = .next { s.moves 1 with
    trace := s.trace ++ [.regFail .rd 0], res := 0#32, err := 2#2 }) ∧
  (∀ (s : State) (left : Option Byte), s.Succeeds 0 → (s.moves 1).turn.verdict = .failed left →
    (s.readAt 0 0).getLsbD 7 = true → exec .rtcinit s = .next { (s.moves 2).leave 0 left with
      trace := s.trace ++ [.regRead 0 (s.readAt 0 0), .regFail .wr 0], res := 0#32, err := 2#2 })

/-- R103: the hour of a byte in both modes, by the spec's formula over the byte's number; nothing but the result
registers changes; and for a 12-hour encoding of hour `h` with PM flag `p` it is `(h mod 12) + 12` or `h mod 12`. -/
def Obligations.DechrDecodesBothModes : Prop :=
  (∀ (raw : Byte) (s : State), exec (.dechr raw) s = .next { s with
    res := BitVec.ofNat 32 (
      if raw.toNat / 64 % 2 = 1 then
        (raw.toNat / 16 % 2 * 10 + raw.toNat % 16) % 12 + (if raw.toNat / 32 % 2 = 1 then 12 else 0)
      else raw.toNat / 16 % 4 * 10 + raw.toNat % 16)
    err := 0#2 }) ∧
  (∀ (h : Nat) (p : Bool) (s : State), 1 ≤ h → h ≤ 12 →
    exec (.dechr (BitVec.ofNat 8 (64 + (if p then 32 else 0) + h / 10 * 16 + h % 10))) s =
      .next { s with res := BitVec.ofNat 32 (h % 12 + (if p then 12 else 0)), err := 0#2 })

/-- R104, R105: three reads in ascending order; the result packs hour, minute and second (without the halt flag); the
first failing read ends the command, the later ones are not made, `RES` = 0. No register is written, no other state of
the block changes. -/
def Obligations.GettimeReadsThreeRegisters : Prop :=
  (∀ s : State, s.Succeeds 0 → s.Succeeds 1 → s.Succeeds 2 → exec .gettime s = .next { s.moves 3 with
    trace := s.trace ++ [.regRead 0 (s.readAt 0 0), .regRead 1 (s.readAt 1 1), .regRead 2 (s.readAt 2 2)]
    res := BitVec.ofNat 32 (decodeHours (s.readAt 2 2) * 65536 + bcd2dec (s.readAt 1 1) * 256 + bcd2dec (s.readAt 0 0 &&& 0x7F#8))
    err := 0#2 }) ∧
  (∀ s : State, ¬ s.Succeeds 0 → exec .gettime s = .next { s.moves 1 with
    trace := s.trace ++ [.regFail .rd 0], res := 0#32, err := 2#2 }) ∧
  (∀ s : State, s.Succeeds 0 → ¬ s.Succeeds 1 → exec .gettime s = .next { s.moves 2 with
    trace := s.trace ++ [.regRead 0 (s.readAt 0 0), .regFail .rd 1], res := 0#32, err := 2#2 }) ∧
  (∀ s : State, s.Succeeds 0 → s.Succeeds 1 → ¬ s.Succeeds 2 → exec .gettime s = .next { s.moves 3 with
    trace := s.trace ++ [.regRead 0 (s.readAt 0 0), .regRead 1 (s.readAt 1 1), .regFail .rd 2], res := 0#32, err := 2#2 })

/-- R106: each field wraps, is written as BCD to registers 0, 1, 2 in this order; the first failing write ends the
command: the writes before it stay, those after it are not made. Nothing else of the block changes. -/
def Obligations.SettimeWritesWrappedBcd : Prop :=
  (∀ (h m sec : Int) (b0 b1 b2 : Byte) (s : State), s.Succeeds 0 → s.Succeeds 1 → s.Succeeds 2 →
    (b0.toNat : Int) = sec % 60 / 10 * 16 + sec % 60 % 10 → (b1.toNat : Int) = m % 60 / 10 * 16 + m % 60 % 10 →
    (b2.toNat : Int) = h % 24 / 10 * 16 + h % 24 % 10 →
    exec (.settime h m sec) s = .next { ((s.wrote 0 b0).wrote 1 b1).wrote 2 b2 with
      trace := s.trace ++ [.regWrite 0 b0, .regWrite 1 b1, .regWrite 2 b2], res := 0#32, err := 0#2 }) ∧
  (∀ (h m sec : Int) (left : Option Byte) (s : State), s.turn.verdict = .failed left →
    exec (.settime h m sec) s = .next { s.envMove.leave 0 left with
      trace := s.trace ++ [.regFail .wr 0], res := 0#32, err := 2#2 }) ∧
  (∀ (h m sec : Int) (left : Option Byte) (s : State), s.Succeeds 0 → (s.moves 1).turn.verdict = .failed left →
    exec (.settime h m sec) s = .next { (s.wrote 0 (secondsByte sec)).envMove.leave 1 left with
      trace := s.trace ++ [.regWrite 0 (secondsByte sec), .regFail .wr 1], res := 0#32, err := 2#2 }) ∧
  (∀ (h m sec : Int) (left : Option Byte) (s : State), s.Succeeds 0 → s.Succeeds 1 →
    (s.moves 2).turn.verdict = .failed left →
    exec (.settime h m sec) s = .next { ((s.wrote 0 (secondsByte sec)).wrote 1 (minutesByte m)).envMove.leave 2 left with
      trace := s.trace ++ [.regWrite 0 (secondsByte sec), .regWrite 1 (minutesByte m), .regFail .wr 2]
      res := 0#32
      err := 2#2 })

/-- R107: on a quiescent chip a completed `SETTIME` leaves 24-hour mode, the clock-halt flag clear and bit 7 of the
hours clear, whatever the chip was in. -/
def Obligations.SettimeLeavesTwentyFourHourMode : Prop :=
  ∀ (h m sec : Int) (s : State), s.Quiescent 3 →
    ∃ t, exec (.settime h m sec) s = .next t ∧ t.err = 0#2 ∧ t.chipTime.clockHalted = false ∧
      t.chipTime.twelveHour = false ∧ (t.chipByte 2).getLsbD 7 = false

/-- R108: on a quiescent chip `GETTIME` after `SETTIME h, m, s` returns `(h mod 24, m mod 60, s mod 60)`, for every
integer `h`, `m`, `s`. -/
def Obligations.SettimeGettimeRoundTrip : Prop :=
  ∀ (h m sec : Int) (s : State), s.Quiescent 6 →
    ∃ t u, exec (.settime h m sec) s = .next t ∧ exec .gettime t = .next u ∧ t.err = 0#2 ∧ u.err = 0#2 ∧
      (u.res.toNat : Int) = h % 24 * 65536 + m % 60 * 256 + sec % 60 ∧
      u.chipTime.twelveHour = false ∧ u.chipTime.clockHalted = false

/-- R109: `RTCINIT`, `GETTIME`, `SETTIME` fail with `ERR` = 2 exactly when one of their transactions fails, and
complete otherwise; `DECHR` cannot fail. -/
def Obligations.TransportErrorExactlyWhenATransactionFails : Prop :=
  (∀ (i : Instr) (s : State), i = .rtcinit ∨ i = .gettime ∨ (∃ h m sec, i = .settime h m sec) →
    ∃ t es, exec i s = .next t ∧ t.trace = s.trace ++ es ∧
      (t.err = 2#2 ↔ ∃ e ∈ es, e.isFailure = true) ∧ (t.err = 0#2 ↔ ∀ e ∈ es, e.isFailure = false)) ∧
  (∀ (raw : Byte) (s : State), ∃ t, exec (.dechr raw) s = .next t ∧ t.err = 0#2)

/-! ## ButtonInput (42_buttoninput.md) -/

/-- R122: `BTNRST` makes the button `Idle`; its timestamps, the other button and everything else keep what they hold;
no pin is sampled, no event is emitted. -/
def Obligations.BtnrstGoesIdle : Prop :=
  (∀ s : State, exec (.btnrst .hour) s = .next { s with btnH := { s.btnH with st := .idle }, res := 0#32, err := 0#2 }) ∧
  (∀ s : State, exec (.btnrst .minute) s = .next { s with btnM := { s.btnM with st := .idle }, res := 0#32, err := 0#2 })

/-- R123: on the press edge the two timestamps are set and nothing fires, also when `LONG_MS` = 0. -/
def Obligations.BtnprocPressEdge : Prop :=
  ∀ (b : Button) (s : State), (s.button b).st = .idle → s.buttonPin b = s.cfg.activeLevel →
    exec (.btnproc b) s = .next { s.setButton b { st := .pressed, pressDownAt := s.now, nextRepeatAt := s.now + s.cfg.longMs } with
      res := 0#32, err := 0#2 }

/-- R124: a held call fires one repeat if `now` has reached `nextRepeatAt`, which advances by `REPEAT_MS` from its own
old value; otherwise nothing happens. -/
def Obligations.BtnprocHeld : Prop :=
  (∀ (b : Button) (s : State), (s.button b).st = .pressed → s.buttonPin b = s.cfg.activeLevel →
    (s.button b).nextRepeatAt ≤ s.now →
    exec (.btnproc b) s = .next {
      s.setButton b { s.button b with nextRepeatAt := (s.button b).nextRepeatAt + s.cfg.repeatMs } with
      trace := s.trace ++ [.autoRepeat b], res := 2#32, err := 0#2 }) ∧
  (∀ (b : Button) (s : State), (s.button b).st = .pressed → s.buttonPin b = s.cfg.activeLevel →
    s.now < (s.button b).nextRepeatAt → exec (.btnproc b) s = .next { s with res := 0#32, err := 0#2 })

/-- R125: the release edge goes `Idle` regardless of duration, and clicks exactly if the hold was shorter than
`LONG_MS`, the difference taken on integers. -/
def Obligations.BtnprocReleaseEdge : Prop :=
  (∀ (b : Button) (s : State), (s.button b).st = .pressed → s.buttonPin b ≠ s.cfg.activeLevel →
    (s.now : Int) - ((s.button b).pressDownAt : Int) < (s.cfg.longMs : Int) →
    exec (.btnproc b) s = .next { s.setButton b { s.button b with st := .idle } with
      trace := s.trace ++ [.click b], res := 1#32, err := 0#2 }) ∧
  (∀ (b : Button) (s : State), (s.button b).st = .pressed → s.buttonPin b ≠ s.cfg.activeLevel →
    (s.cfg.longMs : Int) ≤ (s.now : Int) - ((s.button b).pressDownAt : Int) →
    exec (.btnproc b) s = .next { s.setButton b { s.button b with st := .idle } with res := 0#32, err := 0#2 })

/-- R126: idle and released: nothing changes. -/
def Obligations.BtnprocIdleReleased : Prop :=
  ∀ (b : Button) (s : State), (s.button b).st = .idle → s.buttonPin b ≠ s.cfg.activeLevel →
    exec (.btnproc b) s = .next { s with res := 0#32, err := 0#2 }

/-- R129, R131: over a whole press, from its press edge at `t0` through held calls `held` to the release at `tr`, with
`NOW` never decreasing: repeats fire only if a held call reached `t0 + LONG_MS`, a click only if the release came
before it, so never both; and in the silent band neither. Run by `step` on presented `BTNPROC` words. -/
def Obligations.PressClicksOrRepeatsNeverBoth : Prop :=
  ∀ (b : Button) (s : State) (t0 tr : Nat) (held : List Nat) (rest : List HostInput),
    (s.button b).st = .idle → NonDecreasing t0 (held ++ [tr]) →
    s.host = (t0 :: held).map (pollInput b s.cfg.activeLevel) ++ pollInput b (!s.cfg.activeLevel) tr :: rest →
    ∃ t k, Host.Core.run core (held.length + 2) s = .next t ∧
      t.trace = s.trace ++ List.replicate k (.autoRepeat b) ++ (if tr < t0 + s.cfg.longMs then [.click b] else []) ∧
      (k = 0 ↔ held = [] ∨ lastCall t0 held < t0 + s.cfg.longMs) ∧ (tr < t0 + s.cfg.longMs → k = 0) ∧
      (t.button b).st = .idle

/-- R130: with `REPEAT_MS` > 0, calls never more than `REPEAT_MS` apart and `LONG_MS` > 0, a press held from `t0` to
its last held call `ta` fires `floor((ta - t0 - LONG_MS) / REPEAT_MS) + 1` repeats, none before `t0 + LONG_MS`. (At
`LONG_MS` = 0 the formula and R123, R124 differ: log 15.) Run by `step` on presented `BTNPROC` words. -/
def Obligations.RepeatCountOfAHeldPress : Prop :=
  ∀ (b : Button) (s : State) (t0 : Nat) (held : List Nat) (rest : List HostInput),
    0 < s.cfg.longMs → 0 < s.cfg.repeatMs → (s.button b).st = .idle → Dense s.cfg.repeatMs t0 held →
    s.host = (t0 :: held).map (pollInput b s.cfg.activeLevel) ++ rest →
    ∃ t, Host.Core.run core (held.length + 1) s = .next t ∧
      t.trace = s.trace ++ List.replicate (repeatCount s.cfg t0 (lastCall t0 held)) (.autoRepeat b) ∧
      t.button b = { st := .pressed, pressDownAt := t0,
                     nextRepeatAt := t0 + s.cfg.longMs + repeatCount s.cfg t0 (lastCall t0 held) * s.cfg.repeatMs } ∧
      t.host = rest

/-! ## ClockController (43_controller.md) -/

/-- R142: `START` while not running, when every transaction succeeds: the halt flag is cleared if it is set, both
buttons go `Idle`, the chip's time is read, adopted and rendered, `running` is set. First clause: the flag was clear (no
write is made); second: it was set; third: a `START` while running is refused. -/
def Obligations.StartInitialisesTheClock : Prop :=
  (∀ s : State, s.running = false → s.Succeeds 0 → s.Succeeds 1 → s.Succeeds 2 → s.Succeeds 3 →
    (s.readAt 0 0).getLsbD 7 = false →
    exec .start s = .next { State.rendered (mirrorNumber (decodeHours (s.readAt 3 2)) (bcd2dec (s.readAt 2 1))) { s.moves 4 with
        trace := s.trace ++ [.regRead 0 (s.readAt 0 0), .regRead 0 (s.readAt 1 0), .regRead 1 (s.readAt 2 1),
          .regRead 2 (s.readAt 3 2)] } with
      btnH := { s.btnH with st := .idle }
      btnM := { s.btnM with st := .idle }
      hour := decodeHours (s.readAt 3 2)
      minute := bcd2dec (s.readAt 2 1)
      lastRecon := none
      running := true
      res := 0#32
      err := 0#2 }) ∧
  (∀ s u : State, s.running = false → s.Succeeds 0 → s.Succeeds 1 → s.Succeeds 2 → s.Succeeds 3 → s.Succeeds 4 →
    (s.readAt 0 0).getLsbD 7 = true → u = (s.moves 1).wrote 0 (s.readAt 0 0 &&& 0x7F#8) →
    exec .start s = .next { State.rendered (mirrorNumber (decodeHours (u.readAt 2 2)) (bcd2dec (u.readAt 1 1))) { u.moves 3 with
        trace := s.trace ++ [.regRead 0 (s.readAt 0 0), .regWrite 0 (s.readAt 0 0 &&& 0x7F#8), .regRead 0 (u.readAt 0 0),
          .regRead 1 (u.readAt 1 1), .regRead 2 (u.readAt 2 2)] } with
      btnH := { s.btnH with st := .idle }
      btnM := { s.btnM with st := .idle }
      hour := decodeHours (u.readAt 2 2)
      minute := bcd2dec (u.readAt 1 1)
      lastRecon := none
      running := true
      res := 0#32
      err := 0#2 }) ∧
  (∀ s : State, s.running = true → exec .start s = .next { s with res := 0#32, err := 3#2 })

/-- R143: a `START` while not running either completes with no failed transaction and `running` set, or ends with
`ERR` = 2 after a failed one: then `running` stays false and the mirror, the display, the pins, `lastRecon` and `terr`
are not written. What was done stays done: the other clauses give the whole state for a failed construction read, a
failed construction write, and a failed read after a construction without and with a write, where the buttons are
already `Idle`. -/
def Obligations.FailedStartLeavesTheClockStopped : Prop :=
  (∀ s : State, s.running = false → ∃ t es, exec .start s = .next t ∧ t.trace = s.trace ++ es ∧ t.res = 0#32 ∧
    ((t.err = 0#2 ∧ t.running = true ∧ ∀ e ∈ es, e.isFailure = false) ∨
     (t.err = 2#2 ∧ t.running = false ∧ (∃ e ∈ es, e.isFailure = true) ∧ t.hour = s.hour ∧ t.minute = s.minute ∧
      t.disp = s.disp ∧ t.dv = s.dv ∧ t.le = s.le ∧ t.lastRecon = s.lastRecon ∧ t.terr = s.terr))) ∧
  (∀ s : State, s.running = false → ¬ s.Succeeds 0 → exec .start s = .next { s.moves 1 with
    trace := s.trace ++ [.regFail .rd 0], res := 0#32, err := 2#2 }) ∧
  (∀ (s : State) (left : Option Byte), s.running = false → s.Succeeds 0 → (s.moves 1).turn.verdict = .failed left →
    (s.readAt 0 0).getLsbD 7 = true → exec .start s = .next { (s.moves 2).leave 0 left with
      trace := s.trace ++ [.regRead 0 (s.readAt 0 0), .regFail .wr 0], res := 0#32, err := 2#2 }) ∧
  (∀ (s u : State) (k : Fin 3) (left : Option Byte), s.running = false → s.Succeeds 0 → (s.readAt 0 0).getLsbD 7 = false →
    u = { s.moves 1 with trace := s.trace ++ [.regRead 0 (s.readAt 0 0)] } → u.FailsAt k left →
    exec .start s = .next { u.readFailure k with
      btnH := { s.btnH with st := .idle }, btnM := { s.btnM with st := .idle }, res := 0#32, err := 2#2 }) ∧
  (∀ (s u : State) (k : Fin 3) (left : Option Byte), s.running = false → s.Succeeds 0 → s.Succeeds 1 →
    (s.readAt 0 0).getLsbD 7 = true →
    u = { (s.moves 1).wrote 0 (s.readAt 0 0 &&& 0x7F#8) with
      trace := s.trace ++ [.regRead 0 (s.readAt 0 0), .regWrite 0 (s.readAt 0 0 &&& 0x7F#8)] } → u.FailsAt k left →
    exec .start s = .next { u.readFailure k with
      btnH := { s.btnH with st := .idle }, btnM := { s.btnM with st := .idle }, res := 0#32, err := 2#2 })

/-- R145: `INCH` while running writes the next hour, the minute and zero seconds to the chip; when the three writes
succeed the hour is stored and rendered; when one fails the mirror and the display keep their values, `ERR` = 2, the
failed write is the last event, and the chip holds what the partial write left (R106). Not running, it is refused. -/
def Obligations.InchAdvancesTheHour : Prop :=
  (∀ s : State, s.running = true → s.Succeeds 0 → s.Succeeds 1 → s.Succeeds 2 →
    exec .inch s = .next { State.rendered (mirrorNumber ((s.hour + 1) % 24) s.minute)
        { ((s.wrote 0 0x00#8).wrote 1 (minutesByte s.minute)).wrote 2 (hoursByte ((s.hour + 1) % 24 : Nat)) with
          trace := s.trace ++ [.regWrite 0 0x00#8, .regWrite 1 (minutesByte s.minute),
            .regWrite 2 (hoursByte ((s.hour + 1) % 24 : Nat))] } with
      hour := (s.hour + 1) % 24
      res := 0#32
      err := 0#2 }) ∧
  (∀ s : State, s.running = true → ¬ (s.Succeeds 0 ∧ s.Succeeds 1 ∧ s.Succeeds 2) →
    ∃ t es, exec .inch s = .next t ∧ t.err = 2#2 ∧ t.res = 0#32 ∧ t.trace = s.trace ++ es ∧
      (∀ e ∈ es, e.isTransaction = true) ∧ (∃ a, es.getLast? = some (.regFail .wr a)) ∧
      t = { s with rtc := t.rtc, turns := t.turns, draws := t.draws, trace := t.trace, res := t.res, err := t.err }) ∧
  (∀ (s : State) (k : Fin 3) (left : Option Byte), s.running = true → s.FailsAt k left →
    exec .inch s = .next { s.writeFailure 0x00#8 (minutesByte s.minute) k left with
      res := 0#32, err := 2#2 }) ∧
  (∀ s : State, s.running = false → exec .inch s = .next { s with res := 0#32, err := 3#2 })

/-- R146: `INCM`, the same for the minute, with no carry into the hour. -/
def Obligations.IncmAdvancesTheMinute : Prop :=
  (∀ s : State, s.running = true → s.Succeeds 0 → s.Succeeds 1 → s.Succeeds 2 →
    exec .incm s = .next { State.rendered (mirrorNumber s.hour ((s.minute + 1) % 60))
        { ((s.wrote 0 0x00#8).wrote 1 (minutesByte ((s.minute + 1) % 60 : Nat))).wrote 2 (hoursByte s.hour) with
          trace := s.trace ++ [.regWrite 0 0x00#8, .regWrite 1 (minutesByte ((s.minute + 1) % 60 : Nat)),
            .regWrite 2 (hoursByte s.hour)] } with
      minute := (s.minute + 1) % 60
      res := 0#32
      err := 0#2 }) ∧
  (∀ s : State, s.running = true → ¬ (s.Succeeds 0 ∧ s.Succeeds 1 ∧ s.Succeeds 2) →
    ∃ t es, exec .incm s = .next t ∧ t.err = 2#2 ∧ t.res = 0#32 ∧ t.trace = s.trace ++ es ∧
      (∀ e ∈ es, e.isTransaction = true) ∧ (∃ a, es.getLast? = some (.regFail .wr a)) ∧
      t = { s with rtc := t.rtc, turns := t.turns, draws := t.draws, trace := t.trace, res := t.res, err := t.err }) ∧
  (∀ (s : State) (k : Fin 3) (left : Option Byte), s.running = true → s.FailsAt k left →
    exec .incm s = .next { s.writeFailure 0x00#8 (minutesByte ((s.minute + 1) % 60 : Nat)) k left with
      res := 0#32, err := 2#2 }) ∧
  (∀ s : State, s.running = false → exec .incm s = .next { s with res := 0#32, err := 3#2 })

/-- R147: minute rollover never touches the hour, and hour rollover never touches the minute, however the command
ends; a minute of 59 that is incremented becomes 0. -/
def Obligations.IncrementsNeverCarry : Prop :=
  ∀ s : State, (∃ t, exec .incm s = .next t ∧ t.hour = s.hour ∧
      (s.minute = 59 → t.err = 0#2 → t.minute = 0)) ∧
    (∃ t, exec .inch s = .next t ∧ t.minute = s.minute ∧ (s.hour = 23 → t.err = 0#2 → t.hour = 0))

/-- R152, R154: `RECON` while running stamps the attempt, reads the chip, and adopts and renders its hour and minute
only where they differ from the mirror; a failing read keeps the mirror and the display, and the attempt still counts.
No register is written. Not running, it is refused. -/
def Obligations.ReconAdoptsTheChip : Prop :=
  (∀ s : State, s.running = true → s.Succeeds 0 → s.Succeeds 1 → s.Succeeds 2 →
    decodeHours (s.readAt 2 2) = s.hour → bcd2dec (s.readAt 1 1) = s.minute →
    exec .recon s = .next { s.moves 3 with
      lastRecon := some s.now
      trace := s.trace ++ [.regRead 0 (s.readAt 0 0), .regRead 1 (s.readAt 1 1), .regRead 2 (s.readAt 2 2)]
      res := 0#32
      err := 0#2 }) ∧
  (∀ s : State, s.running = true → s.Succeeds 0 → s.Succeeds 1 → s.Succeeds 2 →
    (decodeHours (s.readAt 2 2) ≠ s.hour ∨ bcd2dec (s.readAt 1 1) ≠ s.minute) →
    exec .recon s = .next { State.rendered (mirrorNumber (decodeHours (s.readAt 2 2)) (bcd2dec (s.readAt 1 1))) { s.moves 3 with
        trace := s.trace ++ [.regRead 0 (s.readAt 0 0), .regRead 1 (s.readAt 1 1), .regRead 2 (s.readAt 2 2)] } with
      hour := decodeHours (s.readAt 2 2)
      minute := bcd2dec (s.readAt 1 1)
      lastRecon := some s.now
      res := 0#32
      err := 0#2 }) ∧
  (∀ s : State, s.running = true → ¬ (s.Succeeds 0 ∧ s.Succeeds 1 ∧ s.Succeeds 2) →
    ∃ t es, exec .recon s = .next t ∧ t.err = 2#2 ∧ t.res = 0#32 ∧ t.lastRecon = some s.now ∧ t.trace = s.trace ++ es ∧
      (∀ e ∈ es, e.isTransaction = true) ∧ (∃ a, es.getLast? = some (.regFail .rd a)) ∧ (∀ a v, .regWrite a v ∉ es) ∧
      t = { s with rtc := t.rtc, turns := t.turns, draws := t.draws, trace := t.trace, lastRecon := t.lastRecon
                   res := t.res, err := t.err }) ∧
  (∀ (s : State) (k : Fin 3) (left : Option Byte), s.running = true → s.FailsAt k left →
    exec .recon s = .next { s.readFailure k with lastRecon := some s.now, res := 0#32, err := 2#2 }) ∧
  (∀ s : State, s.running = false → exec .recon s = .next { s with res := 0#32, err := 3#2 })

/-- R149, R151: a tick while running with no button event and no reconciliation due makes no transaction and emits
nothing: only the two button states move, by their own machines. -/
def Obligations.QuietTickMovesOnlyTheButtons : Prop :=
  ∀ s : State, s.running = true → firing .hour s.now s = none → firing .minute s.now s = none →
    (∃ last, s.lastRecon = some last ∧ (s.now : Int) - (last : Int) < (s.cfg.refreshMs : Int)) →
    exec .tick s = .next { s with
      btnH := (nextButton s.cfg (s.pinH == s.cfg.activeLevel) s.now s.btnH).1
      btnM := (nextButton s.cfg (s.pinM == s.cfg.activeLevel) s.now s.btnM).1
      res := 0#32
      err := 0#2 }

/-- R150, R155, R174: with a quiescent chip, both buttons firing and a reconciliation due, one tick handles the hour,
then the minute, then the chip: the hour's three writes and render, the minute's three writes (carrying the new hour)
and render, then three reads that find nothing to adopt; both changes survive. -/
def Obligations.TickHandlesHourThenMinuteThenChip : Prop :=
  ∀ (s : State) (f g : Firing), s.running = true → s.Quiescent 9 →
    firing .hour s.now s = some f → firing .minute s.now s = some g →
    (s.lastRecon = none ∨ ∃ last, s.lastRecon = some last ∧ (s.cfg.refreshMs : Int) ≤ (s.now : Int) - (last : Int)) →
    ∃ t, exec .tick s = .next t ∧ t.err = 0#2 ∧ t.res = 0#32 ∧ t.hour = (s.hour + 1) % 24 ∧ t.minute = (s.minute + 1) % 60 ∧
      t.lastRecon = some s.now ∧ t.terr = s.terr ∧ t.ShowsMirror ∧
      t.trace = s.trace ++
        ([firingEvent .hour f, .regWrite 0 0x00#8, .regWrite 1 (minutesByte s.minute),
          .regWrite 2 (hoursByte ((s.hour + 1) % 24 : Nat))] ++ numberEvents s.cfg (mirrorNumber ((s.hour + 1) % 24) s.minute)) ++
        ([firingEvent .minute g, .regWrite 0 0x00#8, .regWrite 1 (minutesByte ((s.minute + 1) % 60 : Nat)),
          .regWrite 2 (hoursByte ((s.hour + 1) % 24 : Nat))] ++
          numberEvents s.cfg (mirrorNumber ((s.hour + 1) % 24) ((s.minute + 1) % 60))) ++
        [.regRead 0 0x00#8, .regRead 1 (minutesByte ((s.minute + 1) % 60 : Nat)), .regRead 2 (hoursByte ((s.hour + 1) % 24 : Nat))]

/-- R149 to R152, R155: a tick on a quiescent chip, whichever buttons fire and whether or not a reconciliation is due. `h`,
`m` is the mirror after the two button steps, `b0`, `b1`, `b2` the chip after them (the chip as it stands if no button
fires). Not due, the tick ends there; due, the chip is read, and its hour and minute end up in the mirror, rendered if
they differ from `h`, `m`. A tick that renders nothing leaves the display and the pins. -/
def Obligations.TickOnAQuietChip : Prop :=
  ∀ (s : State) (oh om : Option Firing) (h m : Nat) (b0 b1 b2 : Byte) (es : List Event), s.running = true → s.Quiescent 9 →
    firing .hour s.now s = oh → firing .minute s.now s = om →
    h = (if oh = none then s.hour else (s.hour + 1) % 24) → m = (if om = none then s.minute else (s.minute + 1) % 60) →
    (if oh = none ∧ om = none then b0 = s.chipByte 0 ∧ b1 = s.chipByte 1 ∧ b2 = s.chipByte 2
      else b0 = 0x00#8 ∧ b1 = minutesByte m ∧ b2 = hoursByte h) →
    es = firingEvents .hour oh ++
      (if oh = none then [] else [.regWrite 0 0x00#8, .regWrite 1 (minutesByte s.minute), .regWrite 2 (hoursByte h)] ++
        numberEvents s.cfg (mirrorNumber h s.minute)) ++
      firingEvents .minute om ++
      (if om = none then [] else [.regWrite 0 0x00#8, .regWrite 1 (minutesByte m), .regWrite 2 (hoursByte h)] ++
        numberEvents s.cfg (mirrorNumber h m)) →
    ∃ t, exec .tick s = .next t ∧ t.chipByte 0 = b0 ∧ t.chipByte 1 = b1 ∧ t.chipByte 2 = b2 ∧
      t = { s with
        btnH := (nextButton s.cfg (s.pinH == s.cfg.activeLevel) s.now s.btnH).1
        btnM := (nextButton s.cfg (s.pinM == s.cfg.activeLevel) s.now s.btnM).1
        hour := t.hour, minute := t.minute, lastRecon := t.lastRecon, rtc := t.rtc, turns := t.turns
        dv := t.dv, le := t.le, disp := t.disp, trace := t.trace, res := 0#32, err := 0#2 } ∧
      (¬ s.ReconDue → t.hour = h ∧ t.minute = m ∧ t.lastRecon = s.lastRecon ∧ t.trace = s.trace ++ es) ∧
      (s.ReconDue → t.hour = decodeHours b2 ∧ t.minute = bcd2dec b1 ∧ t.lastRecon = some s.now ∧
        t.trace = s.trace ++ es ++ [.regRead 0 b0, .regRead 1 b1, .regRead 2 b2] ++
          (if decodeHours b2 = h ∧ bcd2dec b1 = m then [] else numberEvents s.cfg (mirrorNumber (decodeHours b2) (bcd2dec b1)))) ∧
      (oh ≠ none ∨ om ≠ none ∨ (s.ReconDue ∧ ¬ (decodeHours b2 = h ∧ bcd2dec b1 = m)) → t.ShowsMirror) ∧
      (oh = none ∧ om = none ∧ ¬ (s.ReconDue ∧ ¬ (decodeHours b2 = h ∧ bcd2dec b1 = m)) →
        t.disp = s.disp ∧ t.dv = s.dv ∧ t.le = s.le)

/-- R149, R153: a tick is its steps in order, each the effect of the command it is made of: `process` of the hour button,
with an event `INCH`; `process` of the minute button, with an event `INCM`; if due, `RECON`. First clause: all goes well.
Second to fourth: the step that fails is the last, and the tick reports it. Fifth: not running, it is refused. -/
def Obligations.TickRunsItsStepsInOrder : Prop :=
  (∀ s u v w : State, s.running = true → StepRan .inch (firing .hour s.now s) (s.polled .hour) u →
    StepRan .incm (firing .minute u.now u) (u.polled .minute) v →
    (v.ReconDue ∧ exec .recon v = .next w ∧ w.err = 0#2 ∨ ¬ v.ReconDue ∧ w = v) →
    exec .tick s = .next { w with res := 0#32, err := 0#2 }) ∧
  (∀ s u : State, s.running = true → firing .hour s.now s ≠ none → exec .inch (s.polled .hour) = .next u → u.err ≠ 0#2 →
    exec .tick s = .next u.reported) ∧
  (∀ s u v : State, s.running = true → StepRan .inch (firing .hour s.now s) (s.polled .hour) u →
    firing .minute u.now u ≠ none → exec .incm (u.polled .minute) = .next v → v.err ≠ 0#2 →
    exec .tick s = .next v.reported) ∧
  (∀ s u v w : State, s.running = true → StepRan .inch (firing .hour s.now s) (s.polled .hour) u →
    StepRan .incm (firing .minute u.now u) (u.polled .minute) v → v.ReconDue → exec .recon v = .next w → w.err ≠ 0#2 →
    exec .tick s = .next w.reported) ∧
  (∀ s : State, s.running = false → exec .tick s = .next { s with res := 0#32, err := 3#2 })

/-- R151, R152, R154: a tick with no button event and a reconciliation due, in any environment: `lastRecon` is stamped and
the chip is read; equal to the mirror, nothing else changes; different, it is adopted and rendered; a failing read is
caught and reported, nothing is adopted, and the attempt counts. -/
def Obligations.TickWithoutEventsReconciles : Prop :=
  (∀ s : State, s.running = true → firing .hour s.now s = none → firing .minute s.now s = none → s.ReconDue →
    s.Succeeds 0 → s.Succeeds 1 → s.Succeeds 2 → decodeHours (s.readAt 2 2) = s.hour → bcd2dec (s.readAt 1 1) = s.minute →
    exec .tick s = .next { s.moves 3 with
      btnH := (nextButton s.cfg (s.pinH == s.cfg.activeLevel) s.now s.btnH).1
      btnM := (nextButton s.cfg (s.pinM == s.cfg.activeLevel) s.now s.btnM).1
      lastRecon := some s.now
      trace := s.trace ++ [.regRead 0 (s.readAt 0 0), .regRead 1 (s.readAt 1 1), .regRead 2 (s.readAt 2 2)]
      res := 0#32
      err := 0#2 }) ∧
  (∀ s : State, s.running = true → firing .hour s.now s = none → firing .minute s.now s = none → s.ReconDue →
    s.Succeeds 0 → s.Succeeds 1 → s.Succeeds 2 →
    (decodeHours (s.readAt 2 2) ≠ s.hour ∨ bcd2dec (s.readAt 1 1) ≠ s.minute) →
    exec .tick s = .next { State.rendered (mirrorNumber (decodeHours (s.readAt 2 2)) (bcd2dec (s.readAt 1 1))) { s.moves 3 with
        trace := s.trace ++ [.regRead 0 (s.readAt 0 0), .regRead 1 (s.readAt 1 1), .regRead 2 (s.readAt 2 2)] } with
      btnH := (nextButton s.cfg (s.pinH == s.cfg.activeLevel) s.now s.btnH).1
      btnM := (nextButton s.cfg (s.pinM == s.cfg.activeLevel) s.now s.btnM).1
      hour := decodeHours (s.readAt 2 2)
      minute := bcd2dec (s.readAt 1 1)
      lastRecon := some s.now
      res := 0#32
      err := 0#2 }) ∧
  (∀ (s : State) (k : Fin 3) (left : Option Byte), s.running = true → firing .hour s.now s = none →
    firing .minute s.now s = none → s.ReconDue → s.FailsAt k left →
    exec .tick s = .next (State.reported { s.readFailure k with
      btnH := (nextButton s.cfg (s.pinH == s.cfg.activeLevel) s.now s.btnH).1
      btnM := (nextButton s.cfg (s.pinM == s.cfg.activeLevel) s.now s.btnM).1
      lastRecon := some s.now }))

/-- R150: exactly one button fires and no reconciliation is due, in any environment whose three writes succeed: that
button's increment is made, as `INCH` or `INCM` makes it, the other button moves by its own machine, and nothing else
changes. -/
def Obligations.TickWithOneEventIncrementsOne : Prop :=
  (∀ (s : State) (f : Firing), s.running = true → firing .hour s.now s = some f → firing .minute s.now s = none →
    ¬ s.ReconDue → s.Succeeds 0 → s.Succeeds 1 → s.Succeeds 2 →
    exec .tick s = .next { State.rendered (mirrorNumber ((s.hour + 1) % 24) s.minute)
        { ((s.wrote 0 0x00#8).wrote 1 (minutesByte s.minute)).wrote 2 (hoursByte ((s.hour + 1) % 24 : Nat)) with
          trace := s.trace ++ [firingEvent .hour f, .regWrite 0 0x00#8, .regWrite 1 (minutesByte s.minute),
            .regWrite 2 (hoursByte ((s.hour + 1) % 24 : Nat))] } with
      btnH := (nextButton s.cfg (s.pinH == s.cfg.activeLevel) s.now s.btnH).1
      btnM := (nextButton s.cfg (s.pinM == s.cfg.activeLevel) s.now s.btnM).1
      hour := (s.hour + 1) % 24
      res := 0#32
      err := 0#2 }) ∧
  (∀ (s : State) (f : Firing), s.running = true → firing .hour s.now s = none → firing .minute s.now s = some f →
    ¬ s.ReconDue → s.Succeeds 0 → s.Succeeds 1 → s.Succeeds 2 →
    exec .tick s = .next { State.rendered (mirrorNumber s.hour ((s.minute + 1) % 60))
        { ((s.wrote 0 0x00#8).wrote 1 (minutesByte ((s.minute + 1) % 60 : Nat))).wrote 2 (hoursByte s.hour) with
          trace := s.trace ++ [firingEvent .minute f, .regWrite 0 0x00#8, .regWrite 1 (minutesByte ((s.minute + 1) % 60 : Nat)),
            .regWrite 2 (hoursByte s.hour)] } with
      btnH := (nextButton s.cfg (s.pinH == s.cfg.activeLevel) s.now s.btnH).1
      btnM := (nextButton s.cfg (s.pinM == s.cfg.activeLevel) s.now s.btnM).1
      minute := (s.minute + 1) % 60
      res := 0#32
      err := 0#2 })

/-- R153, R174: if the hour step of a tick has an event and one of its writes fails, the tick completes with `ERR` = 0,
`terr` is set and the failure is reported; the mirror, the display and `lastRecon` are as before; the hour button has
moved; the minute button was not processed. The second clause gives the whole state: the chip holds what the partial
write left (R106). -/
def Obligations.FailedHourStepSkipsTheRestOfTheTick : Prop :=
  (∀ (s : State) (f : Firing), s.running = true → firing .hour s.now s = some f →
    ¬ (s.Succeeds 0 ∧ s.Succeeds 1 ∧ s.Succeeds 2) →
    ∃ t es, exec .tick s = .next t ∧ t.err = 0#2 ∧ t.res = 0#32 ∧ t.terr = true ∧ t.running = true ∧
      t.hour = s.hour ∧ t.minute = s.minute ∧ t.disp = s.disp ∧ t.dv = s.dv ∧ t.le = s.le ∧ t.lastRecon = s.lastRecon ∧
      t.btnM = s.btnM ∧ t.btnH = (nextButton s.cfg (s.pinH == s.cfg.activeLevel) s.now s.btnH).1 ∧
      t.trace = s.trace ++ [firingEvent .hour f] ++ es ++ [.report .transportError] ∧
      (∀ e ∈ es, e.isTransaction = true) ∧ ∃ a, es.getLast? = some (.regFail .wr a)) ∧
  (∀ (s : State) (f : Firing) (k : Fin 3) (left : Option Byte), s.running = true → firing .hour s.now s = some f →
    s.FailsAt k left →
    exec .tick s = .next (State.reported (State.writeFailure 0x00#8 (minutesByte s.minute) k left
      { s with
        btnH := (nextButton s.cfg (s.pinH == s.cfg.activeLevel) s.now s.btnH).1
        trace := s.trace ++ [firingEvent .hour f] })))

/-- R153: if the minute step of a tick has an event and one of its writes fails: what the hour step did stays (first
clause: it had no event; second: it incremented the hour), the minute and its display are as before the step, the chip
holds what the partial write left, no reconciliation is attempted, and the failure is reported. -/
def Obligations.FailedMinuteStepKeepsTheHoursChange : Prop :=
  (∀ (s : State) (f : Firing) (k : Fin 3) (left : Option Byte), s.running = true → firing .hour s.now s = none →
    firing .minute s.now s = some f → s.FailsAt k left →
    exec .tick s = .next (State.reported (State.writeFailure 0x00#8 (minutesByte ((s.minute + 1) % 60 : Nat)) k left
      { s with
        btnH := (nextButton s.cfg (s.pinH == s.cfg.activeLevel) s.now s.btnH).1
        btnM := (nextButton s.cfg (s.pinM == s.cfg.activeLevel) s.now s.btnM).1
        trace := s.trace ++ [firingEvent .minute f] }))) ∧
  (∀ (s u : State) (f g : Firing) (k : Fin 3) (left : Option Byte), s.running = true → firing .hour s.now s = some f →
    firing .minute s.now s = some g → s.Succeeds 0 → s.Succeeds 1 → s.Succeeds 2 →
    u = { State.rendered (mirrorNumber ((s.hour + 1) % 24) s.minute)
        { ((s.wrote 0 0x00#8).wrote 1 (minutesByte s.minute)).wrote 2 (hoursByte ((s.hour + 1) % 24 : Nat)) with
          trace := s.trace ++ [firingEvent .hour f, .regWrite 0 0x00#8, .regWrite 1 (minutesByte s.minute),
            .regWrite 2 (hoursByte ((s.hour + 1) % 24 : Nat))] } with
      btnH := (nextButton s.cfg (s.pinH == s.cfg.activeLevel) s.now s.btnH).1
      hour := (s.hour + 1) % 24 } →
    u.FailsAt k left →
    exec .tick s = .next (State.reported (State.writeFailure 0x00#8 (minutesByte ((s.minute + 1) % 60 : Nat)) k left
      { u with
        btnM := (nextButton s.cfg (s.pinM == s.cfg.activeLevel) s.now s.btnM).1
        trace := u.trace ++ [firingEvent .minute g] })))

/-- R153, R176: while running, `TICK` always completes with `ERR` = 0 and keeps running; it sets `terr` and reports
exactly when one of its transactions failed. -/
def Obligations.TickCatchesEveryTransportError : Prop :=
  ∀ s : State, s.running = true → ∃ t es, exec .tick s = .next t ∧ t.err = 0#2 ∧ t.res = 0#32 ∧ t.running = true ∧
    t.trace = s.trace ++ es ∧ ((∃ e ∈ es, e.isFailure = true) ↔ .report .transportError ∈ es) ∧
    (t.terr = true ↔ s.terr = true ∨ .report .transportError ∈ es)

/-! ## The whole machine -/

/-- R42, R35: every step keeps the invariant, from every state that has it, whatever is presented and whatever the
environment does. (`chipCanonical`, `chipRegisters` and `noRecon` are the model's own clauses.) -/
def Obligations.InvariantKeptByEveryStep : Prop :=
  ∀ s t : State, s.Inv → step s = .next t → t.Inv

/-- The invariant holds right after reset (R41). -/
def Obligations.InvariantHoldsAtReset : Prop := State.reset.Inv

/-- R42 (e): while running, the display shows the mirror between commands; every step keeps it but a host command that
pulses a latch line. A completed `START` establishes it. -/
def Obligations.DisplayFollowsTheMirror : Prop :=
  ∀ s t : State, (s.running = true → s.ShowsMirror) → step s = .next t →
    (∀ c rest i, s.host = .command c :: rest → decode c.word = .ok i → pulsesALine i = false) →
    t.running = true → t.ShowsMirror

/-- R27, R37: nothing but reset clears `running` or `terr` (a power cycle is one, R192). -/
def Obligations.OnlyResetClearsRunningAndTerr : Prop :=
  ∀ s t : State, (∀ digits rest, s.host ≠ .reset digits :: rest) → (∀ rest, s.host ≠ .powerCycle :: rest) → step s = .next t →
    (s.running = true → t.running = true) ∧ (s.terr = true → t.terr = true)

/-- R15, R54, R107: a command only appends to the trace, and every byte it writes to register 0 has bit 7 clear, every
byte it writes to register 2 has bits 7 and 6 clear. -/
def Obligations.EveryWrittenByteIsTame : Prop :=
  ∀ (i : Instr) (s : State), ∃ t es, exec i s = .next t ∧ t.trace = s.trace ++ es ∧
    ∀ a v, Event.regWrite a v ∈ es → (a = 0 → v.getLsbD 7 = false) ∧ (a = 2 → v.getLsbD 7 = false ∧ v.getLsbD 6 = false)

/-- R2, R22, R25: DigitBus, ClockChip and ButtonInput keep to their own state. DigitBus commands touch only `dv`, the latch lines and the
digits; ClockChip commands only the chip; ButtonInput commands only their own button; all of them the trace and the
result registers. No command touches the configuration (R8, log 2), the ports (R43: inputs of the step; held in the
state by log 6), what the host will present or the number of the last reset (the model's own, log 1, log 3). -/
def Obligations.UnitsKeepToTheirState : Prop :=
  ∀ (i : Instr) (s : State), ∃ t, exec i s = .next t ∧
    t.cfg = s.cfg ∧ t.host = s.host ∧ t.cmd = s.cmd ∧ t.now = s.now ∧ t.pinH = s.pinH ∧ t.pinM = s.pinM ∧
    t.resets = s.resets ∧
    (blockUnitOf i = .digitBus →
      t = { s with dv := t.dv, le := t.le, disp := t.disp, trace := t.trace, res := t.res, err := t.err }) ∧
    (blockUnitOf i = .clockChip →
      t = { s with rtc := t.rtc, turns := t.turns, draws := t.draws, trace := t.trace, res := t.res, err := t.err }) ∧
    (∀ b, i = .btnrst b ∨ i = .btnproc b →
      t = { s.setButton b (t.button b) with trace := t.trace, res := t.res, err := t.err })

/-- R48, R60 (b): with an environment that changes no register by itself (it may fail transactions), every register
holds after a command the byte the command last wrote to it, and what it held before if the command wrote it none: no
write reaches another register. (Where a write to it failed, nothing is said: the environment leaves what it leaves.) -/
def Obligations.RegistersHoldWhatWasLastWritten : Prop :=
  ∀ (i : Instr) (s : State) (a : Fin 3), s.Untouched 9 →
    ∃ t es, exec i s = .next t ∧ t.trace = s.trace ++ es ∧
      ∀ v, heldAfter a (some (s.chipByte a)) es = some v → t.chipByte a = v
end

