-- ==== Sys2Proof/Laws/State.lean ====
section
/-! SUPPORT. What each named update does to each field of State: one lemma per field, so that no later proof
unfolds a record update. -/

namespace Sys2Proof.Machine

/-! ### emit -/

@[simp] theorem State.emit_dv (e : Event) (s : State) : (s.emit e).dv = s.dv := rfl
@[simp] theorem State.emit_le (e : Event) (s : State) : (s.emit e).le = s.le := rfl
@[simp] theorem State.emit_btnH (e : Event) (s : State) : (s.emit e).btnH = s.btnH := rfl
@[simp] theorem State.emit_btnM (e : Event) (s : State) : (s.emit e).btnM = s.btnM := rfl
@[simp] theorem State.emit_running (e : Event) (s : State) : (s.emit e).running = s.running := rfl
@[simp] theorem State.emit_hour (e : Event) (s : State) : (s.emit e).hour = s.hour := rfl
@[simp] theorem State.emit_minute (e : Event) (s : State) : (s.emit e).minute = s.minute := rfl
@[simp] theorem State.emit_lastRecon (e : Event) (s : State) : (s.emit e).lastRecon = s.lastRecon := rfl
@[simp] theorem State.emit_terr (e : Event) (s : State) : (s.emit e).terr = s.terr := rfl
@[simp] theorem State.emit_res (e : Event) (s : State) : (s.emit e).res = s.res := rfl
@[simp] theorem State.emit_err (e : Event) (s : State) : (s.emit e).err = s.err := rfl
@[simp] theorem State.emit_disp (e : Event) (s : State) : (s.emit e).disp = s.disp := rfl
@[simp] theorem State.emit_rtc (e : Event) (s : State) : (s.emit e).rtc = s.rtc := rfl
@[simp] theorem State.emit_cmd (e : Event) (s : State) : (s.emit e).cmd = s.cmd := rfl
@[simp] theorem State.emit_now (e : Event) (s : State) : (s.emit e).now = s.now := rfl
@[simp] theorem State.emit_pinH (e : Event) (s : State) : (s.emit e).pinH = s.pinH := rfl
@[simp] theorem State.emit_pinM (e : Event) (s : State) : (s.emit e).pinM = s.pinM := rfl
@[simp] theorem State.emit_cfg (e : Event) (s : State) : (s.emit e).cfg = s.cfg := rfl
@[simp] theorem State.emit_trace (e : Event) (s : State) : (s.emit e).trace = s.trace ++ [e] := rfl
@[simp] theorem State.emit_host (e : Event) (s : State) : (s.emit e).host = s.host := rfl
@[simp] theorem State.emit_turns (e : Event) (s : State) : (s.emit e).turns = s.turns := rfl
@[simp] theorem State.emit_draws (e : Event) (s : State) : (s.emit e).draws = s.draws := rfl
@[simp] theorem State.emit_resets (e : Event) (s : State) : (s.emit e).resets = s.resets := rfl

/-! ### putChip -/

@[simp] theorem State.putChip_dv (a : Fin 3) (v : Byte) (s : State) : (s.putChip a v).dv = s.dv := rfl
@[simp] theorem State.putChip_le (a : Fin 3) (v : Byte) (s : State) : (s.putChip a v).le = s.le := rfl
@[simp] theorem State.putChip_btnH (a : Fin 3) (v : Byte) (s : State) : (s.putChip a v).btnH = s.btnH := rfl
@[simp] theorem State.putChip_btnM (a : Fin 3) (v : Byte) (s : State) : (s.putChip a v).btnM = s.btnM := rfl
@[simp] theorem State.putChip_running (a : Fin 3) (v : Byte) (s : State) : (s.putChip a v).running = s.running := rfl
@[simp] theorem State.putChip_hour (a : Fin 3) (v : Byte) (s : State) : (s.putChip a v).hour = s.hour := rfl
@[simp] theorem State.putChip_minute (a : Fin 3) (v : Byte) (s : State) : (s.putChip a v).minute = s.minute := rfl
@[simp] theorem State.putChip_lastRecon (a : Fin 3) (v : Byte) (s : State) : (s.putChip a v).lastRecon = s.lastRecon := rfl
@[simp] theorem State.putChip_terr (a : Fin 3) (v : Byte) (s : State) : (s.putChip a v).terr = s.terr := rfl
@[simp] theorem State.putChip_res (a : Fin 3) (v : Byte) (s : State) : (s.putChip a v).res = s.res := rfl
@[simp] theorem State.putChip_err (a : Fin 3) (v : Byte) (s : State) : (s.putChip a v).err = s.err := rfl
@[simp] theorem State.putChip_disp (a : Fin 3) (v : Byte) (s : State) : (s.putChip a v).disp = s.disp := rfl
@[simp] theorem State.putChip_rtc (a : Fin 3) (v : Byte) (s : State) : (s.putChip a v).rtc = Memory.write s.rtc a.val v := rfl
@[simp] theorem State.putChip_cmd (a : Fin 3) (v : Byte) (s : State) : (s.putChip a v).cmd = s.cmd := rfl
@[simp] theorem State.putChip_now (a : Fin 3) (v : Byte) (s : State) : (s.putChip a v).now = s.now := rfl
@[simp] theorem State.putChip_pinH (a : Fin 3) (v : Byte) (s : State) : (s.putChip a v).pinH = s.pinH := rfl
@[simp] theorem State.putChip_pinM (a : Fin 3) (v : Byte) (s : State) : (s.putChip a v).pinM = s.pinM := rfl
@[simp] theorem State.putChip_cfg (a : Fin 3) (v : Byte) (s : State) : (s.putChip a v).cfg = s.cfg := rfl
@[simp] theorem State.putChip_trace (a : Fin 3) (v : Byte) (s : State) : (s.putChip a v).trace = s.trace := rfl
@[simp] theorem State.putChip_host (a : Fin 3) (v : Byte) (s : State) : (s.putChip a v).host = s.host := rfl
@[simp] theorem State.putChip_turns (a : Fin 3) (v : Byte) (s : State) : (s.putChip a v).turns = s.turns := rfl
@[simp] theorem State.putChip_draws (a : Fin 3) (v : Byte) (s : State) : (s.putChip a v).draws = s.draws := rfl
@[simp] theorem State.putChip_resets (a : Fin 3) (v : Byte) (s : State) : (s.putChip a v).resets = s.resets := rfl

/-! ### setMirror -/

@[simp] theorem State.setMirror_dv (h m : Nat) (s : State) : (s.setMirror h m).dv = s.dv := rfl
@[simp] theorem State.setMirror_le (h m : Nat) (s : State) : (s.setMirror h m).le = s.le := rfl
@[simp] theorem State.setMirror_btnH (h m : Nat) (s : State) : (s.setMirror h m).btnH = s.btnH := rfl
@[simp] theorem State.setMirror_btnM (h m : Nat) (s : State) : (s.setMirror h m).btnM = s.btnM := rfl
@[simp] theorem State.setMirror_running (h m : Nat) (s : State) : (s.setMirror h m).running = s.running := rfl
@[simp] theorem State.setMirror_hour (h m : Nat) (s : State) : (s.setMirror h m).hour = h := rfl
@[simp] theorem State.setMirror_minute (h m : Nat) (s : State) : (s.setMirror h m).minute = m := rfl
@[simp] theorem State.setMirror_lastRecon (h m : Nat) (s : State) : (s.setMirror h m).lastRecon = s.lastRecon := rfl
@[simp] theorem State.setMirror_terr (h m : Nat) (s : State) : (s.setMirror h m).terr = s.terr := rfl
@[simp] theorem State.setMirror_res (h m : Nat) (s : State) : (s.setMirror h m).res = s.res := rfl
@[simp] theorem State.setMirror_err (h m : Nat) (s : State) : (s.setMirror h m).err = s.err := rfl
@[simp] theorem State.setMirror_disp (h m : Nat) (s : State) : (s.setMirror h m).disp = s.disp := rfl
@[simp] theorem State.setMirror_rtc (h m : Nat) (s : State) : (s.setMirror h m).rtc = s.rtc := rfl
@[simp] theorem State.setMirror_cmd (h m : Nat) (s : State) : (s.setMirror h m).cmd = s.cmd := rfl
@[simp] theorem State.setMirror_now (h m : Nat) (s : State) : (s.setMirror h m).now = s.now := rfl
@[simp] theorem State.setMirror_pinH (h m : Nat) (s : State) : (s.setMirror h m).pinH = s.pinH := rfl
@[simp] theorem State.setMirror_pinM (h m : Nat) (s : State) : (s.setMirror h m).pinM = s.pinM := rfl
@[simp] theorem State.setMirror_cfg (h m : Nat) (s : State) : (s.setMirror h m).cfg = s.cfg := rfl
@[simp] theorem State.setMirror_trace (h m : Nat) (s : State) : (s.setMirror h m).trace = s.trace := rfl
@[simp] theorem State.setMirror_host (h m : Nat) (s : State) : (s.setMirror h m).host = s.host := rfl
@[simp] theorem State.setMirror_turns (h m : Nat) (s : State) : (s.setMirror h m).turns = s.turns := rfl
@[simp] theorem State.setMirror_draws (h m : Nat) (s : State) : (s.setMirror h m).draws = s.draws := rfl
@[simp] theorem State.setMirror_resets (h m : Nat) (s : State) : (s.setMirror h m).resets = s.resets := rfl

/-! ### present -/

@[simp] theorem State.present_dv (c : Presented) (s : State) : (s.present c).dv = s.dv := rfl
@[simp] theorem State.present_le (c : Presented) (s : State) : (s.present c).le = s.le := rfl
@[simp] theorem State.present_btnH (c : Presented) (s : State) : (s.present c).btnH = s.btnH := rfl
@[simp] theorem State.present_btnM (c : Presented) (s : State) : (s.present c).btnM = s.btnM := rfl
@[simp] theorem State.present_running (c : Presented) (s : State) : (s.present c).running = s.running := rfl
@[simp] theorem State.present_hour (c : Presented) (s : State) : (s.present c).hour = s.hour := rfl
@[simp] theorem State.present_minute (c : Presented) (s : State) : (s.present c).minute = s.minute := rfl
@[simp] theorem State.present_lastRecon (c : Presented) (s : State) : (s.present c).lastRecon = s.lastRecon := rfl
@[simp] theorem State.present_terr (c : Presented) (s : State) : (s.present c).terr = s.terr := rfl
@[simp] theorem State.present_res (c : Presented) (s : State) : (s.present c).res = s.res := rfl
@[simp] theorem State.present_err (c : Presented) (s : State) : (s.present c).err = s.err := rfl
@[simp] theorem State.present_disp (c : Presented) (s : State) : (s.present c).disp = s.disp := rfl
@[simp] theorem State.present_rtc (c : Presented) (s : State) : (s.present c).rtc = s.rtc := rfl
@[simp] theorem State.present_cmd (c : Presented) (s : State) : (s.present c).cmd = c.word := rfl
@[simp] theorem State.present_now (c : Presented) (s : State) : (s.present c).now = c.now := rfl
@[simp] theorem State.present_pinH (c : Presented) (s : State) : (s.present c).pinH = c.pinH := rfl
@[simp] theorem State.present_pinM (c : Presented) (s : State) : (s.present c).pinM = c.pinM := rfl
@[simp] theorem State.present_cfg (c : Presented) (s : State) : (s.present c).cfg = s.cfg := rfl
@[simp] theorem State.present_trace (c : Presented) (s : State) : (s.present c).trace = s.trace := rfl
@[simp] theorem State.present_host (c : Presented) (s : State) : (s.present c).host = s.host := rfl
@[simp] theorem State.present_turns (c : Presented) (s : State) : (s.present c).turns = c.turns := rfl
@[simp] theorem State.present_draws (c : Presented) (s : State) : (s.present c).draws = s.draws := rfl
@[simp] theorem State.present_resets (c : Presented) (s : State) : (s.present c).resets = s.resets := rfl

/-! ### assertReset -/

@[simp] theorem State.assertReset_le (digits : Option (Vector Nibble 4)) (s : State) : (s.assertReset digits).le = Vector.replicate 4 false := rfl
@[simp] theorem State.assertReset_running (digits : Option (Vector Nibble 4)) (s : State) : (s.assertReset digits).running = false := rfl
@[simp] theorem State.assertReset_lastRecon (digits : Option (Vector Nibble 4)) (s : State) : (s.assertReset digits).lastRecon = none := rfl
@[simp] theorem State.assertReset_terr (digits : Option (Vector Nibble 4)) (s : State) : (s.assertReset digits).terr = false := rfl
@[simp] theorem State.assertReset_res (digits : Option (Vector Nibble 4)) (s : State) : (s.assertReset digits).res = 0#32 := rfl
@[simp] theorem State.assertReset_err (digits : Option (Vector Nibble 4)) (s : State) : (s.assertReset digits).err = 0#2 := rfl
@[simp] theorem State.assertReset_disp (digits : Option (Vector Nibble 4)) (s : State) : (s.assertReset digits).disp = digits.getD s.disp := rfl
@[simp] theorem State.assertReset_rtc (digits : Option (Vector Nibble 4)) (s : State) : (s.assertReset digits).rtc = s.rtc := rfl
@[simp] theorem State.assertReset_cmd (digits : Option (Vector Nibble 4)) (s : State) : (s.assertReset digits).cmd = s.cmd := rfl
@[simp] theorem State.assertReset_now (digits : Option (Vector Nibble 4)) (s : State) : (s.assertReset digits).now = s.now := rfl
@[simp] theorem State.assertReset_pinH (digits : Option (Vector Nibble 4)) (s : State) : (s.assertReset digits).pinH = s.pinH := rfl
@[simp] theorem State.assertReset_pinM (digits : Option (Vector Nibble 4)) (s : State) : (s.assertReset digits).pinM = s.pinM := rfl
@[simp] theorem State.assertReset_cfg (digits : Option (Vector Nibble 4)) (s : State) : (s.assertReset digits).cfg = s.cfg := rfl
@[simp] theorem State.assertReset_trace (digits : Option (Vector Nibble 4)) (s : State) : (s.assertReset digits).trace = [] := rfl
@[simp] theorem State.assertReset_host (digits : Option (Vector Nibble 4)) (s : State) : (s.assertReset digits).host = s.host := rfl
@[simp] theorem State.assertReset_turns (digits : Option (Vector Nibble 4)) (s : State) : (s.assertReset digits).turns = s.turns := rfl
@[simp] theorem State.assertReset_draws (digits : Option (Vector Nibble 4)) (s : State) : (s.assertReset digits).draws = s.draws := rfl
@[simp] theorem State.assertReset_resets (digits : Option (Vector Nibble 4)) (s : State) : (s.assertReset digits).resets = s.resets + 1 := rfl

/-! ### losePower -/

@[simp] theorem State.losePower_le (s : State) : (s.losePower).le = Vector.replicate 4 false := rfl
@[simp] theorem State.losePower_running (s : State) : (s.losePower).running = false := rfl
@[simp] theorem State.losePower_lastRecon (s : State) : (s.losePower).lastRecon = none := rfl
@[simp] theorem State.losePower_terr (s : State) : (s.losePower).terr = false := rfl
@[simp] theorem State.losePower_res (s : State) : (s.losePower).res = 0#32 := rfl
@[simp] theorem State.losePower_err (s : State) : (s.losePower).err = 0#2 := rfl
@[simp] theorem State.losePower_trace (s : State) : (s.losePower).trace = [] := rfl
@[simp] theorem State.losePower_resets (s : State) : (s.losePower).resets = s.resets + 1 := rfl
@[simp] theorem State.losePower_disp (s : State) : (s.losePower).disp = (Config.unspecified (s.resets + 1)).disp := rfl
@[simp] theorem State.losePower_rtc (s : State) : (s.losePower).rtc = s.rtc := rfl
@[simp] theorem State.losePower_cmd (s : State) : (s.losePower).cmd = s.cmd := rfl
@[simp] theorem State.losePower_now (s : State) : (s.losePower).now = s.now := rfl
@[simp] theorem State.losePower_pinH (s : State) : (s.losePower).pinH = s.pinH := rfl
@[simp] theorem State.losePower_pinM (s : State) : (s.losePower).pinM = s.pinM := rfl
@[simp] theorem State.losePower_cfg (s : State) : (s.losePower).cfg = s.cfg := rfl
@[simp] theorem State.losePower_host (s : State) : (s.losePower).host = s.host := rfl
@[simp] theorem State.losePower_turns (s : State) : (s.losePower).turns = s.turns := rfl
@[simp] theorem State.losePower_draws (s : State) : (s.losePower).draws = s.draws := rfl

/-! ### leave -/

@[simp] theorem State.leave_dv (a : Fin 3) (l : Option Byte) (s : State) : (s.leave a l).dv = s.dv := by cases l <;> rfl
@[simp] theorem State.leave_le (a : Fin 3) (l : Option Byte) (s : State) : (s.leave a l).le = s.le := by cases l <;> rfl
@[simp] theorem State.leave_btnH (a : Fin 3) (l : Option Byte) (s : State) : (s.leave a l).btnH = s.btnH := by cases l <;> rfl
@[simp] theorem State.leave_btnM (a : Fin 3) (l : Option Byte) (s : State) : (s.leave a l).btnM = s.btnM := by cases l <;> rfl
@[simp] theorem State.leave_running (a : Fin 3) (l : Option Byte) (s : State) : (s.leave a l).running = s.running := by cases l <;> rfl
@[simp] theorem State.leave_hour (a : Fin 3) (l : Option Byte) (s : State) : (s.leave a l).hour = s.hour := by cases l <;> rfl
@[simp] theorem State.leave_minute (a : Fin 3) (l : Option Byte) (s : State) : (s.leave a l).minute = s.minute := by cases l <;> rfl
@[simp] theorem State.leave_lastRecon (a : Fin 3) (l : Option Byte) (s : State) : (s.leave a l).lastRecon = s.lastRecon := by cases l <;> rfl
@[simp] theorem State.leave_terr (a : Fin 3) (l : Option Byte) (s : State) : (s.leave a l).terr = s.terr := by cases l <;> rfl
@[simp] theorem State.leave_res (a : Fin 3) (l : Option Byte) (s : State) : (s.leave a l).res = s.res := by cases l <;> rfl
@[simp] theorem State.leave_err (a : Fin 3) (l : Option Byte) (s : State) : (s.leave a l).err = s.err := by cases l <;> rfl
@[simp] theorem State.leave_disp (a : Fin 3) (l : Option Byte) (s : State) : (s.leave a l).disp = s.disp := by cases l <;> rfl
@[simp] theorem State.leave_cmd (a : Fin 3) (l : Option Byte) (s : State) : (s.leave a l).cmd = s.cmd := by cases l <;> rfl
@[simp] theorem State.leave_now (a : Fin 3) (l : Option Byte) (s : State) : (s.leave a l).now = s.now := by cases l <;> rfl
@[simp] theorem State.leave_pinH (a : Fin 3) (l : Option Byte) (s : State) : (s.leave a l).pinH = s.pinH := by cases l <;> rfl
@[simp] theorem State.leave_pinM (a : Fin 3) (l : Option Byte) (s : State) : (s.leave a l).pinM = s.pinM := by cases l <;> rfl
@[simp] theorem State.leave_cfg (a : Fin 3) (l : Option Byte) (s : State) : (s.leave a l).cfg = s.cfg := by cases l <;> rfl
@[simp] theorem State.leave_trace (a : Fin 3) (l : Option Byte) (s : State) : (s.leave a l).trace = s.trace := by cases l <;> rfl
@[simp] theorem State.leave_host (a : Fin 3) (l : Option Byte) (s : State) : (s.leave a l).host = s.host := by cases l <;> rfl
@[simp] theorem State.leave_turns (a : Fin 3) (l : Option Byte) (s : State) : (s.leave a l).turns = s.turns := by cases l <;> rfl
@[simp] theorem State.leave_draws (a : Fin 3) (l : Option Byte) (s : State) : (s.leave a l).draws = s.draws := by cases l <;> rfl
@[simp] theorem State.leave_resets (a : Fin 3) (l : Option Byte) (s : State) : (s.leave a l).resets = s.resets := by cases l <;> rfl

/-! ### setButton -/

@[simp] theorem State.setButton_dv (b : Button) (x : ButtonState) (s : State) : (s.setButton b x).dv = s.dv := by cases b <;> rfl
@[simp] theorem State.setButton_le (b : Button) (x : ButtonState) (s : State) : (s.setButton b x).le = s.le := by cases b <;> rfl
@[simp] theorem State.setButton_running (b : Button) (x : ButtonState) (s : State) : (s.setButton b x).running = s.running := by cases b <;> rfl
@[simp] theorem State.setButton_hour (b : Button) (x : ButtonState) (s : State) : (s.setButton b x).hour = s.hour := by cases b <;> rfl
@[simp] theorem State.setButton_minute (b : Button) (x : ButtonState) (s : State) : (s.setButton b x).minute = s.minute := by cases b <;> rfl
@[simp] theorem State.setButton_lastRecon (b : Button) (x : ButtonState) (s : State) : (s.setButton b x).lastRecon = s.lastRecon := by cases b <;> rfl
@[simp] theorem State.setButton_terr (b : Button) (x : ButtonState) (s : State) : (s.setButton b x).terr = s.terr := by cases b <;> rfl
@[simp] theorem State.setButton_res (b : Button) (x : ButtonState) (s : State) : (s.setButton b x).res = s.res := by cases b <;> rfl
@[simp] theorem State.setButton_err (b : Button) (x : ButtonState) (s : State) : (s.setButton b x).err = s.err := by cases b <;> rfl
@[simp] theorem State.setButton_disp (b : Button) (x : ButtonState) (s : State) : (s.setButton b x).disp = s.disp := by cases b <;> rfl
@[simp] theorem State.setButton_rtc (b : Button) (x : ButtonState) (s : State) : (s.setButton b x).rtc = s.rtc := by cases b <;> rfl
@[simp] theorem State.setButton_cmd (b : Button) (x : ButtonState) (s : State) : (s.setButton b x).cmd = s.cmd := by cases b <;> rfl
@[simp] theorem State.setButton_now (b : Button) (x : ButtonState) (s : State) : (s.setButton b x).now = s.now := by cases b <;> rfl
@[simp] theorem State.setButton_pinH (b : Button) (x : ButtonState) (s : State) : (s.setButton b x).pinH = s.pinH := by cases b <;> rfl
@[simp] theorem State.setButton_pinM (b : Button) (x : ButtonState) (s : State) : (s.setButton b x).pinM = s.pinM := by cases b <;> rfl
@[simp] theorem State.setButton_cfg (b : Button) (x : ButtonState) (s : State) : (s.setButton b x).cfg = s.cfg := by cases b <;> rfl
@[simp] theorem State.setButton_trace (b : Button) (x : ButtonState) (s : State) : (s.setButton b x).trace = s.trace := by cases b <;> rfl
@[simp] theorem State.setButton_host (b : Button) (x : ButtonState) (s : State) : (s.setButton b x).host = s.host := by cases b <;> rfl
@[simp] theorem State.setButton_turns (b : Button) (x : ButtonState) (s : State) : (s.setButton b x).turns = s.turns := by cases b <;> rfl
@[simp] theorem State.setButton_draws (b : Button) (x : ButtonState) (s : State) : (s.setButton b x).draws = s.draws := by cases b <;> rfl
@[simp] theorem State.setButton_resets (b : Button) (x : ButtonState) (s : State) : (s.setButton b x).resets = s.resets := by cases b <;> rfl

/-! ### envMove -/

@[simp] theorem State.envMove_dv (s : State) : (s.envMove).dv = s.dv := by unfold State.envMove; split <;> rfl
@[simp] theorem State.envMove_le (s : State) : (s.envMove).le = s.le := by unfold State.envMove; split <;> rfl
@[simp] theorem State.envMove_btnH (s : State) : (s.envMove).btnH = s.btnH := by unfold State.envMove; split <;> rfl
@[simp] theorem State.envMove_btnM (s : State) : (s.envMove).btnM = s.btnM := by unfold State.envMove; split <;> rfl
@[simp] theorem State.envMove_running (s : State) : (s.envMove).running = s.running := by unfold State.envMove; split <;> rfl
@[simp] theorem State.envMove_hour (s : State) : (s.envMove).hour = s.hour := by unfold State.envMove; split <;> rfl
@[simp] theorem State.envMove_minute (s : State) : (s.envMove).minute = s.minute := by unfold State.envMove; split <;> rfl
@[simp] theorem State.envMove_lastRecon (s : State) : (s.envMove).lastRecon = s.lastRecon := by unfold State.envMove; split <;> rfl
@[simp] theorem State.envMove_terr (s : State) : (s.envMove).terr = s.terr := by unfold State.envMove; split <;> rfl
@[simp] theorem State.envMove_res (s : State) : (s.envMove).res = s.res := by unfold State.envMove; split <;> rfl
@[simp] theorem State.envMove_err (s : State) : (s.envMove).err = s.err := by unfold State.envMove; split <;> rfl
@[simp] theorem State.envMove_disp (s : State) : (s.envMove).disp = s.disp := by unfold State.envMove; split <;> rfl
@[simp] theorem State.envMove_cmd (s : State) : (s.envMove).cmd = s.cmd := by unfold State.envMove; split <;> rfl
@[simp] theorem State.envMove_now (s : State) : (s.envMove).now = s.now := by unfold State.envMove; split <;> rfl
@[simp] theorem State.envMove_pinH (s : State) : (s.envMove).pinH = s.pinH := by unfold State.envMove; split <;> rfl
@[simp] theorem State.envMove_pinM (s : State) : (s.envMove).pinM = s.pinM := by unfold State.envMove; split <;> rfl
@[simp] theorem State.envMove_cfg (s : State) : (s.envMove).cfg = s.cfg := by unfold State.envMove; split <;> rfl
@[simp] theorem State.envMove_trace (s : State) : (s.envMove).trace = s.trace := by unfold State.envMove; split <;> rfl
@[simp] theorem State.envMove_host (s : State) : (s.envMove).host = s.host := by unfold State.envMove; split <;> rfl
@[simp] theorem State.envMove_resets (s : State) : (s.envMove).resets = s.resets := by unfold State.envMove; split <;> rfl

/-! ### takeError -/

@[simp] theorem takeError_dv (e : ErrorKind) (s : State) : (takeError e s).dv = s.dv := rfl
@[simp] theorem takeError_le (e : ErrorKind) (s : State) : (takeError e s).le = s.le := rfl
@[simp] theorem takeError_btnH (e : ErrorKind) (s : State) : (takeError e s).btnH = s.btnH := rfl
@[simp] theorem takeError_btnM (e : ErrorKind) (s : State) : (takeError e s).btnM = s.btnM := rfl
@[simp] theorem takeError_running (e : ErrorKind) (s : State) : (takeError e s).running = s.running := rfl
@[simp] theorem takeError_hour (e : ErrorKind) (s : State) : (takeError e s).hour = s.hour := rfl
@[simp] theorem takeError_minute (e : ErrorKind) (s : State) : (takeError e s).minute = s.minute := rfl
@[simp] theorem takeError_lastRecon (e : ErrorKind) (s : State) : (takeError e s).lastRecon = s.lastRecon := rfl
@[simp] theorem takeError_terr (e : ErrorKind) (s : State) : (takeError e s).terr = s.terr := rfl
@[simp] theorem takeError_res (e : ErrorKind) (s : State) : (takeError e s).res = 0#32 := rfl
@[simp] theorem takeError_err (e : ErrorKind) (s : State) : (takeError e s).err = e.code := rfl
@[simp] theorem takeError_disp (e : ErrorKind) (s : State) : (takeError e s).disp = s.disp := rfl
@[simp] theorem takeError_rtc (e : ErrorKind) (s : State) : (takeError e s).rtc = s.rtc := rfl
@[simp] theorem takeError_cmd (e : ErrorKind) (s : State) : (takeError e s).cmd = s.cmd := rfl
@[simp] theorem takeError_now (e : ErrorKind) (s : State) : (takeError e s).now = s.now := rfl
@[simp] theorem takeError_pinH (e : ErrorKind) (s : State) : (takeError e s).pinH = s.pinH := rfl
@[simp] theorem takeError_pinM (e : ErrorKind) (s : State) : (takeError e s).pinM = s.pinM := rfl
@[simp] theorem takeError_cfg (e : ErrorKind) (s : State) : (takeError e s).cfg = s.cfg := rfl
@[simp] theorem takeError_trace (e : ErrorKind) (s : State) : (takeError e s).trace = s.trace := rfl
@[simp] theorem takeError_host (e : ErrorKind) (s : State) : (takeError e s).host = s.host := rfl
@[simp] theorem takeError_turns (e : ErrorKind) (s : State) : (takeError e s).turns = s.turns := rfl
@[simp] theorem takeError_draws (e : ErrorKind) (s : State) : (takeError e s).draws = s.draws := rfl
@[simp] theorem takeError_resets (e : ErrorKind) (s : State) : (takeError e s).resets = s.resets := rfl

/-! ### complete -/

@[simp] theorem complete_dv (r : Word) (s : State) : (complete r s).dv = s.dv := rfl
@[simp] theorem complete_le (r : Word) (s : State) : (complete r s).le = s.le := rfl
@[simp] theorem complete_btnH (r : Word) (s : State) : (complete r s).btnH = s.btnH := rfl
@[simp] theorem complete_btnM (r : Word) (s : State) : (complete r s).btnM = s.btnM := rfl
@[simp] theorem complete_running (r : Word) (s : State) : (complete r s).running = s.running := rfl
@[simp] theorem complete_hour (r : Word) (s : State) : (complete r s).hour = s.hour := rfl
@[simp] theorem complete_minute (r : Word) (s : State) : (complete r s).minute = s.minute := rfl
@[simp] theorem complete_lastRecon (r : Word) (s : State) : (complete r s).lastRecon = s.lastRecon := rfl
@[simp] theorem complete_terr (r : Word) (s : State) : (complete r s).terr = s.terr := rfl
@[simp] theorem complete_res (r : Word) (s : State) : (complete r s).res = r := rfl
@[simp] theorem complete_err (r : Word) (s : State) : (complete r s).err = 0#2 := rfl
@[simp] theorem complete_disp (r : Word) (s : State) : (complete r s).disp = s.disp := rfl
@[simp] theorem complete_rtc (r : Word) (s : State) : (complete r s).rtc = s.rtc := rfl
@[simp] theorem complete_cmd (r : Word) (s : State) : (complete r s).cmd = s.cmd := rfl
@[simp] theorem complete_now (r : Word) (s : State) : (complete r s).now = s.now := rfl
@[simp] theorem complete_pinH (r : Word) (s : State) : (complete r s).pinH = s.pinH := rfl
@[simp] theorem complete_pinM (r : Word) (s : State) : (complete r s).pinM = s.pinM := rfl
@[simp] theorem complete_cfg (r : Word) (s : State) : (complete r s).cfg = s.cfg := rfl
@[simp] theorem complete_trace (r : Word) (s : State) : (complete r s).trace = s.trace := rfl
@[simp] theorem complete_host (r : Word) (s : State) : (complete r s).host = s.host := rfl
@[simp] theorem complete_turns (r : Word) (s : State) : (complete r s).turns = s.turns := rfl
@[simp] theorem complete_draws (r : Word) (s : State) : (complete r s).draws = s.draws := rfl
@[simp] theorem complete_resets (r : Word) (s : State) : (complete r s).resets = s.resets := rfl

/-! ### stampRecon -/

@[simp] theorem stampRecon_dv (n : Nat) (s : State) : (stampRecon n s).dv = s.dv := rfl
@[simp] theorem stampRecon_le (n : Nat) (s : State) : (stampRecon n s).le = s.le := rfl
@[simp] theorem stampRecon_btnH (n : Nat) (s : State) : (stampRecon n s).btnH = s.btnH := rfl
@[simp] theorem stampRecon_btnM (n : Nat) (s : State) : (stampRecon n s).btnM = s.btnM := rfl
@[simp] theorem stampRecon_running (n : Nat) (s : State) : (stampRecon n s).running = s.running := rfl
@[simp] theorem stampRecon_hour (n : Nat) (s : State) : (stampRecon n s).hour = s.hour := rfl
@[simp] theorem stampRecon_minute (n : Nat) (s : State) : (stampRecon n s).minute = s.minute := rfl
@[simp] theorem stampRecon_lastRecon (n : Nat) (s : State) : (stampRecon n s).lastRecon = some n := rfl
@[simp] theorem stampRecon_terr (n : Nat) (s : State) : (stampRecon n s).terr = s.terr := rfl
@[simp] theorem stampRecon_res (n : Nat) (s : State) : (stampRecon n s).res = s.res := rfl
@[simp] theorem stampRecon_err (n : Nat) (s : State) : (stampRecon n s).err = s.err := rfl
@[simp] theorem stampRecon_disp (n : Nat) (s : State) : (stampRecon n s).disp = s.disp := rfl
@[simp] theorem stampRecon_rtc (n : Nat) (s : State) : (stampRecon n s).rtc = s.rtc := rfl
@[simp] theorem stampRecon_cmd (n : Nat) (s : State) : (stampRecon n s).cmd = s.cmd := rfl
@[simp] theorem stampRecon_now (n : Nat) (s : State) : (stampRecon n s).now = s.now := rfl
@[simp] theorem stampRecon_pinH (n : Nat) (s : State) : (stampRecon n s).pinH = s.pinH := rfl
@[simp] theorem stampRecon_pinM (n : Nat) (s : State) : (stampRecon n s).pinM = s.pinM := rfl
@[simp] theorem stampRecon_cfg (n : Nat) (s : State) : (stampRecon n s).cfg = s.cfg := rfl
@[simp] theorem stampRecon_trace (n : Nat) (s : State) : (stampRecon n s).trace = s.trace := rfl
@[simp] theorem stampRecon_host (n : Nat) (s : State) : (stampRecon n s).host = s.host := rfl
@[simp] theorem stampRecon_turns (n : Nat) (s : State) : (stampRecon n s).turns = s.turns := rfl
@[simp] theorem stampRecon_draws (n : Nat) (s : State) : (stampRecon n s).draws = s.draws := rfl
@[simp] theorem stampRecon_resets (n : Nat) (s : State) : (stampRecon n s).resets = s.resets := rfl

/-! ### latchHigh -/

@[simp] theorem latchHigh_dv (i : Fin 4) (s : State) : (latchHigh i s).dv = s.dv := rfl
@[simp] theorem latchHigh_le (i : Fin 4) (s : State) : (latchHigh i s).le = s.le.set i true := rfl
@[simp] theorem latchHigh_btnH (i : Fin 4) (s : State) : (latchHigh i s).btnH = s.btnH := rfl
@[simp] theorem latchHigh_btnM (i : Fin 4) (s : State) : (latchHigh i s).btnM = s.btnM := rfl
@[simp] theorem latchHigh_running (i : Fin 4) (s : State) : (latchHigh i s).running = s.running := rfl
@[simp] theorem latchHigh_hour (i : Fin 4) (s : State) : (latchHigh i s).hour = s.hour := rfl
@[simp] theorem latchHigh_minute (i : Fin 4) (s : State) : (latchHigh i s).minute = s.minute := rfl
@[simp] theorem latchHigh_lastRecon (i : Fin 4) (s : State) : (latchHigh i s).lastRecon = s.lastRecon := rfl
@[simp] theorem latchHigh_terr (i : Fin 4) (s : State) : (latchHigh i s).terr = s.terr := rfl
@[simp] theorem latchHigh_res (i : Fin 4) (s : State) : (latchHigh i s).res = s.res := rfl
@[simp] theorem latchHigh_err (i : Fin 4) (s : State) : (latchHigh i s).err = s.err := rfl
@[simp] theorem latchHigh_disp (i : Fin 4) (s : State) : (latchHigh i s).disp = s.disp := rfl
@[simp] theorem latchHigh_rtc (i : Fin 4) (s : State) : (latchHigh i s).rtc = s.rtc := rfl
@[simp] theorem latchHigh_cmd (i : Fin 4) (s : State) : (latchHigh i s).cmd = s.cmd := rfl
@[simp] theorem latchHigh_now (i : Fin 4) (s : State) : (latchHigh i s).now = s.now := rfl
@[simp] theorem latchHigh_pinH (i : Fin 4) (s : State) : (latchHigh i s).pinH = s.pinH := rfl
@[simp] theorem latchHigh_pinM (i : Fin 4) (s : State) : (latchHigh i s).pinM = s.pinM := rfl
@[simp] theorem latchHigh_cfg (i : Fin 4) (s : State) : (latchHigh i s).cfg = s.cfg := rfl
@[simp] theorem latchHigh_trace (i : Fin 4) (s : State) : (latchHigh i s).trace = s.trace ++ [.latchHigh i] := rfl
@[simp] theorem latchHigh_host (i : Fin 4) (s : State) : (latchHigh i s).host = s.host := rfl
@[simp] theorem latchHigh_turns (i : Fin 4) (s : State) : (latchHigh i s).turns = s.turns := rfl
@[simp] theorem latchHigh_draws (i : Fin 4) (s : State) : (latchHigh i s).draws = s.draws := rfl
@[simp] theorem latchHigh_resets (i : Fin 4) (s : State) : (latchHigh i s).resets = s.resets := rfl

/-! ### latchLow -/

@[simp] theorem latchLow_dv (i : Fin 4) (s : State) : (latchLow i s).dv = s.dv := rfl
@[simp] theorem latchLow_le (i : Fin 4) (s : State) : (latchLow i s).le = s.le.set i false := rfl
@[simp] theorem latchLow_btnH (i : Fin 4) (s : State) : (latchLow i s).btnH = s.btnH := rfl
@[simp] theorem latchLow_btnM (i : Fin 4) (s : State) : (latchLow i s).btnM = s.btnM := rfl
@[simp] theorem latchLow_running (i : Fin 4) (s : State) : (latchLow i s).running = s.running := rfl
@[simp] theorem latchLow_hour (i : Fin 4) (s : State) : (latchLow i s).hour = s.hour := rfl
@[simp] theorem latchLow_minute (i : Fin 4) (s : State) : (latchLow i s).minute = s.minute := rfl
@[simp] theorem latchLow_lastRecon (i : Fin 4) (s : State) : (latchLow i s).lastRecon = s.lastRecon := rfl
@[simp] theorem latchLow_terr (i : Fin 4) (s : State) : (latchLow i s).terr = s.terr := rfl
@[simp] theorem latchLow_res (i : Fin 4) (s : State) : (latchLow i s).res = s.res := rfl
@[simp] theorem latchLow_err (i : Fin 4) (s : State) : (latchLow i s).err = s.err := rfl
@[simp] theorem latchLow_disp (i : Fin 4) (s : State) : (latchLow i s).disp = s.disp := rfl
@[simp] theorem latchLow_rtc (i : Fin 4) (s : State) : (latchLow i s).rtc = s.rtc := rfl
@[simp] theorem latchLow_cmd (i : Fin 4) (s : State) : (latchLow i s).cmd = s.cmd := rfl
@[simp] theorem latchLow_now (i : Fin 4) (s : State) : (latchLow i s).now = s.now := rfl
@[simp] theorem latchLow_pinH (i : Fin 4) (s : State) : (latchLow i s).pinH = s.pinH := rfl
@[simp] theorem latchLow_pinM (i : Fin 4) (s : State) : (latchLow i s).pinM = s.pinM := rfl
@[simp] theorem latchLow_cfg (i : Fin 4) (s : State) : (latchLow i s).cfg = s.cfg := rfl
@[simp] theorem latchLow_trace (i : Fin 4) (s : State) : (latchLow i s).trace = s.trace ++ [.latchLow i] := rfl
@[simp] theorem latchLow_host (i : Fin 4) (s : State) : (latchLow i s).host = s.host := rfl
@[simp] theorem latchLow_turns (i : Fin 4) (s : State) : (latchLow i s).turns = s.turns := rfl
@[simp] theorem latchLow_draws (i : Fin 4) (s : State) : (latchLow i s).draws = s.draws := rfl
@[simp] theorem latchLow_resets (i : Fin 4) (s : State) : (latchLow i s).resets = s.resets := rfl

/-! ### commitDigit -/

@[simp] theorem commitDigit_dv (i : Fin 4) (s : State) : (commitDigit i s).dv = s.dv := rfl
@[simp] theorem commitDigit_le (i : Fin 4) (s : State) : (commitDigit i s).le = s.le := rfl
@[simp] theorem commitDigit_btnH (i : Fin 4) (s : State) : (commitDigit i s).btnH = s.btnH := rfl
@[simp] theorem commitDigit_btnM (i : Fin 4) (s : State) : (commitDigit i s).btnM = s.btnM := rfl
@[simp] theorem commitDigit_running (i : Fin 4) (s : State) : (commitDigit i s).running = s.running := rfl
@[simp] theorem commitDigit_hour (i : Fin 4) (s : State) : (commitDigit i s).hour = s.hour := rfl
@[simp] theorem commitDigit_minute (i : Fin 4) (s : State) : (commitDigit i s).minute = s.minute := rfl
@[simp] theorem commitDigit_lastRecon (i : Fin 4) (s : State) : (commitDigit i s).lastRecon = s.lastRecon := rfl
@[simp] theorem commitDigit_terr (i : Fin 4) (s : State) : (commitDigit i s).terr = s.terr := rfl
@[simp] theorem commitDigit_res (i : Fin 4) (s : State) : (commitDigit i s).res = s.res := rfl
@[simp] theorem commitDigit_err (i : Fin 4) (s : State) : (commitDigit i s).err = s.err := rfl
@[simp] theorem commitDigit_disp (i : Fin 4) (s : State) : (commitDigit i s).disp = s.disp.set i s.dv := rfl
@[simp] theorem commitDigit_rtc (i : Fin 4) (s : State) : (commitDigit i s).rtc = s.rtc := rfl
@[simp] theorem commitDigit_cmd (i : Fin 4) (s : State) : (commitDigit i s).cmd = s.cmd := rfl
@[simp] theorem commitDigit_now (i : Fin 4) (s : State) : (commitDigit i s).now = s.now := rfl
@[simp] theorem commitDigit_pinH (i : Fin 4) (s : State) : (commitDigit i s).pinH = s.pinH := rfl
@[simp] theorem commitDigit_pinM (i : Fin 4) (s : State) : (commitDigit i s).pinM = s.pinM := rfl
@[simp] theorem commitDigit_cfg (i : Fin 4) (s : State) : (commitDigit i s).cfg = s.cfg := rfl
@[simp] theorem commitDigit_trace (i : Fin 4) (s : State) : (commitDigit i s).trace = s.trace := rfl
@[simp] theorem commitDigit_host (i : Fin 4) (s : State) : (commitDigit i s).host = s.host := rfl
@[simp] theorem commitDigit_turns (i : Fin 4) (s : State) : (commitDigit i s).turns = s.turns := rfl
@[simp] theorem commitDigit_draws (i : Fin 4) (s : State) : (commitDigit i s).draws = s.draws := rfl
@[simp] theorem commitDigit_resets (i : Fin 4) (s : State) : (commitDigit i s).resets = s.resets := rfl

/-! ### writeNibble -/

@[simp] theorem writeNibble_dv (v : Int) (s : State) : (writeNibble v s).dv = nibbleOf v := rfl
@[simp] theorem writeNibble_le (v : Int) (s : State) : (writeNibble v s).le = s.le := rfl
@[simp] theorem writeNibble_btnH (v : Int) (s : State) : (writeNibble v s).btnH = s.btnH := rfl
@[simp] theorem writeNibble_btnM (v : Int) (s : State) : (writeNibble v s).btnM = s.btnM := rfl
@[simp] theorem writeNibble_running (v : Int) (s : State) : (writeNibble v s).running = s.running := rfl
@[simp] theorem writeNibble_hour (v : Int) (s : State) : (writeNibble v s).hour = s.hour := rfl
@[simp] theorem writeNibble_minute (v : Int) (s : State) : (writeNibble v s).minute = s.minute := rfl
@[simp] theorem writeNibble_lastRecon (v : Int) (s : State) : (writeNibble v s).lastRecon = s.lastRecon := rfl
@[simp] theorem writeNibble_terr (v : Int) (s : State) : (writeNibble v s).terr = s.terr := rfl
@[simp] theorem writeNibble_res (v : Int) (s : State) : (writeNibble v s).res = s.res := rfl
@[simp] theorem writeNibble_err (v : Int) (s : State) : (writeNibble v s).err = s.err := rfl
@[simp] theorem writeNibble_disp (v : Int) (s : State) : (writeNibble v s).disp = s.disp := rfl
@[simp] theorem writeNibble_rtc (v : Int) (s : State) : (writeNibble v s).rtc = s.rtc := rfl
@[simp] theorem writeNibble_cmd (v : Int) (s : State) : (writeNibble v s).cmd = s.cmd := rfl
@[simp] theorem writeNibble_now (v : Int) (s : State) : (writeNibble v s).now = s.now := rfl
@[simp] theorem writeNibble_pinH (v : Int) (s : State) : (writeNibble v s).pinH = s.pinH := rfl
@[simp] theorem writeNibble_pinM (v : Int) (s : State) : (writeNibble v s).pinM = s.pinM := rfl
@[simp] theorem writeNibble_cfg (v : Int) (s : State) : (writeNibble v s).cfg = s.cfg := rfl
@[simp] theorem writeNibble_trace (v : Int) (s : State) : (writeNibble v s).trace = s.trace ++ [.data (nibbleOf v)] := rfl
@[simp] theorem writeNibble_host (v : Int) (s : State) : (writeNibble v s).host = s.host := rfl
@[simp] theorem writeNibble_turns (v : Int) (s : State) : (writeNibble v s).turns = s.turns := rfl
@[simp] theorem writeNibble_draws (v : Int) (s : State) : (writeNibble v s).draws = s.draws := rfl
@[simp] theorem writeNibble_resets (v : Int) (s : State) : (writeNibble v s).resets = s.resets := rfl

/-! ### Buttons -/

@[simp] theorem State.button_hour (s : State) : s.button .hour = s.btnH := rfl
@[simp] theorem State.button_minute (s : State) : s.button .minute = s.btnM := rfl
@[simp] theorem State.buttonPin_hour (s : State) : s.buttonPin .hour = s.pinH := rfl
@[simp] theorem State.buttonPin_minute (s : State) : s.buttonPin .minute = s.pinM := rfl
@[simp] theorem State.setButton_hour_btnH (x : ButtonState) (s : State) : (s.setButton .hour x).btnH = x := rfl
@[simp] theorem State.setButton_hour_btnM (x : ButtonState) (s : State) : (s.setButton .hour x).btnM = s.btnM := rfl
@[simp] theorem State.setButton_minute_btnH (x : ButtonState) (s : State) : (s.setButton .minute x).btnH = s.btnH := rfl
@[simp] theorem State.setButton_minute_btnM (x : ButtonState) (s : State) : (s.setButton .minute x).btnM = x := rfl

/-- Reading back the button that was written. -/
@[simp] theorem State.button_setButton_same (b : Button) (x : ButtonState) (s : State) : (s.setButton b x).button b = x := by
  cases b <;> rfl

/-- The other button is untouched (R120). -/
theorem State.button_setButton_other {b c : Button} (h : c ≠ b) (x : ButtonState) (s : State) :
    (s.setButton b x).button c = s.button c := by
  cases b <;> cases c <;> first | rfl | exact absurd rfl h

@[simp] theorem State.chipByte_emit (e : Event) (a : Fin 3) (s : State) : (s.emit e).chipByte a = s.chipByte a := rfl
@[simp] theorem State.turn_emit (e : Event) (s : State) : (s.emit e).turn = s.turn := rfl
@[simp] theorem State.turn_putChip (a : Fin 3) (v : Byte) (s : State) : (s.putChip a v).turn = s.turn := rfl

/-- The environment does not look at the trace: emitting and moving commute. -/
@[simp] theorem State.envMove_emit (e : Event) (s : State) : (s.emit e).envMove = s.envMove.emit e := by
  unfold State.envMove State.emit
  cases s.turns <;> rfl

end Sys2Proof.Machine
end

