-- ==== Sys2Proof/Laws/Attempts.lean ====
section
/-! SUPPORT. How attempts compose and end. -/

namespace Sys2Proof.Machine

@[simp] theorem Attempt.andThen_done {α β : Type} (a : α) (s : State) (f : α → State → Attempt β) :
    (Attempt.done a s).andThen f = f a s := rfl

@[simp] theorem Attempt.andThen_raised {α β : Type} (e : ErrorKind) (s : State) (f : α → State → Attempt β) :
    (Attempt.raised e s : Attempt α).andThen f = .raised e s := rfl

/-- The state an attempt ends in, raised or not (R170). -/
def Attempt.final {α : Type} : Attempt α → State
  | .done _ s => s
  | .raised _ s => s

@[simp] theorem Attempt.final_done {α : Type} (a : α) (s : State) : (Attempt.done a s).final = s := rfl
@[simp] theorem Attempt.final_raised {α : Type} (e : ErrorKind) (s : State) : (Attempt.raised e s : Attempt α).final = s := rfl

/-- A property of the state that both parts keep holds at the end of their composition. -/
theorem Attempt.final_andThen {α β : Type} (P : State → Prop) {r : Attempt α} {f : α → State → Attempt β} (hr : P r.final)
    (hf : ∀ a s, P s → P (f a s).final) : P (r.andThen f).final := by
  cases r with
  | done a s => exact hf a s hr
  | raised e s => exact hr

@[simp] theorem conclude_done (r : Word) (s : State) : conclude (.done r s) = complete r s := rfl
@[simp] theorem conclude_raised (e : ErrorKind) (s : State) : conclude (.raised e s) = takeError e s := rfl
@[simp] theorem concludePlain_done (s : State) : concludePlain (.done () s) = complete 0#32 s := rfl
@[simp] theorem concludePlain_raised (e : ErrorKind) (s : State) : concludePlain (.raised e s) = takeError e s := rfl
@[simp] theorem catchTransport_done (s : State) : catchTransport (.done () s) = .done () s := rfl
@[simp] theorem catchTransport_transport (s : State) :
    catchTransport (.raised .transportError s) = .done () (({ s with terr := true }).emit (.report .transportError)) := rfl

theorem whileRunning_running {s : State} (h : s.running = true) (body : State → Attempt Unit) :
    whileRunning body s = body s := by simp [whileRunning, h]

theorem whileRunning_stopped {s : State} (h : s.running = false) (body : State → Attempt Unit) :
    whileRunning body s = .raised .illegalCommand s := by simp [whileRunning, h]

theorem whileStopped_stopped {s : State} (h : s.running = false) (body : State → Attempt Unit) :
    whileStopped body s = body s := by simp [whileStopped, h]

theorem whileStopped_running {s : State} (h : s.running = true) (body : State → Attempt Unit) :
    whileStopped body s = .raised .illegalCommand s := by simp [whileStopped, h]

/-- The end of a command changes `RES` and `ERR` of the state its pseudocode ended in, and nothing else (R171). -/
theorem conclude_eq (r : Attempt Word) :
    conclude r = { r.final with res := (conclude r).res, err := (conclude r).err } := by
  cases r <;> rfl

/-- The same for a command without a result. -/
theorem concludePlain_eq (r : Attempt Unit) :
    concludePlain r = { r.final with res := 0#32, err := (concludePlain r).err } := by
  cases r <;> rfl

end Sys2Proof.Machine
end

