-- ==== Sys2Proof/Laws/Buttons.lean ====
section
/-! SUPPORT. What one `process` call does (R123 to R127), and what the machine keeps. -/

namespace Sys2Proof.Machine

/-! ## The four cases -/

theorem nextButton_pressEdge (cfg : Cfg) (now : Nat) {x : ButtonState} (h : x.st = .idle) :
    nextButton cfg true now x = ({ st := .pressed, pressDownAt := now, nextRepeatAt := now + cfg.longMs }, none) := by
  simp [nextButton, h, pressEdge]

theorem nextButton_fires (cfg : Cfg) {now : Nat} {x : ButtonState} (h : x.st = .pressed) (hn : x.nextRepeatAt ≤ now) :
    nextButton cfg true now x = ({ x with nextRepeatAt := x.nextRepeatAt + cfg.repeatMs }, some .autoRepeat) := by
  simp [nextButton, h, heldCall, hn]

theorem nextButton_waits (cfg : Cfg) {now : Nat} {x : ButtonState} (h : x.st = .pressed) (hn : now < x.nextRepeatAt) :
    nextButton cfg true now x = (x, none) := by
  simp [nextButton, h, heldCall, Nat.not_le.mpr hn]

theorem nextButton_clicks (cfg : Cfg) {now : Nat} {x : ButtonState} (h : x.st = .pressed)
    (hn : now < x.pressDownAt + cfg.longMs) :
    nextButton cfg false now x = ({ x with st := .idle }, some .click) := by
  have : (now : Int) - (x.pressDownAt : Int) < (cfg.longMs : Int) := by omega
  simp [nextButton, h, releaseEdge, this]

theorem nextButton_releases (cfg : Cfg) {now : Nat} {x : ButtonState} (h : x.st = .pressed)
    (hn : x.pressDownAt + cfg.longMs ≤ now) :
    nextButton cfg false now x = ({ x with st := .idle }, none) := by
  have : ¬ (now : Int) - (x.pressDownAt : Int) < (cfg.longMs : Int) := by omega
  simp [nextButton, h, releaseEdge, this]

theorem nextButton_rests (cfg : Cfg) (now : Nat) {x : ButtonState} (h : x.st = .idle) :
    nextButton cfg false now x = (x, none) := by
  simp [nextButton, h]

/-- R42 (c) is kept by every call. -/
theorem nextButton_scheduled (cfg : Cfg) (asserted : Bool) (now : Nat) {x : ButtonState} (h : x.Scheduled cfg) :
    (nextButton cfg asserted now x).1.Scheduled cfg := by
  obtain ⟨st, down, next⟩ := x
  unfold ButtonState.Scheduled at *
  cases st <;> cases asserted <;> simp [nextButton, pressEdge, releaseEdge, heldCall] at h ⊢
  split
  · show _ → _; intro; simp; omega
  · simpa using h

/-! ## `process` -/

/-- The event of a firing is the last of the trace, or there is none. -/
theorem emitFiring_eq (b : Button) (f : Option Firing) (s : State) :
    emitFiring b f s = { s with trace := s.trace ++ firingEvents b f } := by
  cases f with
  | none => simp [emitFiring, firingEvents]
  | some f => cases f <;> rfl

/-- One `process` call changes its own button and the trace, and nothing else (R120, R127). -/
theorem process_eq (b : Button) (now : Nat) (s : State) :
    process b now s = { s.setButton b (nextButton s.cfg (s.asserted b) now (s.button b)).1 with
      trace := s.trace ++ firingEvents b (firing b now s) } := by
  simp [process, emitFiring_eq]

/-- The firing of a call is the second part of the machine's transition. -/
theorem firing_eq (b : Button) (now : Nat) (s : State) :
    firing b now s = (nextButton s.cfg (s.asserted b) now (s.button b)).2 := rfl

/-- A pin at the active level is asserted (R121). -/
theorem asserted_of_active {s : State} {b : Button} (h : s.buttonPin b = s.cfg.activeLevel) : s.asserted b = true := by
  simp [State.asserted, h]

theorem not_asserted_of_inactive {s : State} {b : Button} (h : s.buttonPin b ≠ s.cfg.activeLevel) :
    s.asserted b = false := by
  simp [State.asserted, h]

/-- `process` in the words of claims. -/
theorem process_polled (b : Button) (s : State) : process b s.now s = s.polled b := process_eq b s.now s

/-- Without an event, only the button has moved. -/
theorem State.polled_none {b : Button} {s : State} (h : firing b s.now s = none) :
    s.polled b = s.setButton b (nextButton s.cfg (s.buttonPin b == s.cfg.activeLevel) s.now (s.button b)).1 := by
  simp only [State.polled, h, firingEvents, List.append_nil]
  cases b <;> rfl

/-- What one button fires does not depend on the other (R120). -/
theorem firing_setButton {b c : Button} (h : b ≠ c) (now : Nat) (x : ButtonState) (s : State) :
    firing b now (s.setButton c x) = firing b now s := by
  cases b <;> cases c <;> first | rfl | exact absurd rfl h

end Sys2Proof.Machine
end

