-- ==== Sys2Proof/Laws/Display.lean ====
section
/-! SUPPORT. What DigitBus's operations do: a pulse, a digit write, a whole number. -/

namespace Sys2Proof.Machine

/-- A pulse leaves its line low, commits `dv` to its digit, and changes nothing else (R88, R89). -/
theorem pulse_eq (i : Fin 4) (s : State) :
    pulse i s = { s with le := s.le.set i false, disp := s.disp.set i s.dv, trace := s.trace ++ pulseEvents s.cfg i } := by
  simp [pulse, commitDigit, latchLow, holdPulse, latchHigh, State.emit, pulseEvents]

/-- The settle delay is an event or nothing (R90). -/
theorem settle_eq (s : State) : settle s = { s with trace := s.trace ++ settleEvents s.cfg } := by
  unfold settle settleEvents
  split <;> simp [State.emit]

/-- One digit write (R90): the nibble is applied and latched. -/
theorem putDigit_eq (v : Int) (i : Fin 4) (s : State) :
    putDigit v i s = { s with
      dv := nibbleOf v
      le := s.le.set i false
      disp := s.disp.set i (nibbleOf v)
      trace := s.trace ++ digitEvents s.cfg (nibbleOf v) i } := by
  simp [putDigit, pulse_eq, settle_eq, writeNibble, State.emit, digitEvents]

/-- A legal digit index is a latch line. -/
theorem lineOf_legal (i : Fin 4) : lineOf (i.val : Int) = some i := by
  have h : (0 : Int) ≤ (i.val : Int) ∧ (i.val : Int) < 4 := by omega
  simp only [lineOf, h, and_self, dite_true, Int.toNat_natCast]

/-- An index outside 0..3 is none (R88). -/
theorem lineOf_illegal {idx : Int} (h : idx < 0 ∨ 3 < idx) : lineOf idx = none := by
  have : ¬ (0 ≤ idx ∧ idx < 4) := by omega
  simp [lineOf, this]

theorem latch_legal (i : Fin 4) (s : State) : latch (i.val : Int) s = .done () (pulse i s) := by
  simp [latch, lineOf_legal]

theorem latch_illegal {idx : Int} (h : idx < 0 ∨ 3 < idx) (s : State) : latch idx s = .raised .invalidArgument s := by
  simp [latch, lineOf_illegal h]

/-- `writeDigit` at a digit position is a digit write (R90). -/
theorem writeDigit_legal (v : Int) (i : Fin 4) (s : State) :
    writeDigit v (i.val : Int) s = .done (nibbleOf v) (putDigit v i s) := by
  simp [writeDigit, latch_legal, putDigit]

/-- `writeDigit` with a bad index applies the nibble and raises (R90). -/
theorem writeDigit_illegal (v : Int) {idx : Int} (h : idx < 0 ∨ 3 < idx) (s : State) :
    writeDigit v idx s = .raised .invalidArgument (settle (writeNibble v s)) := by
  simp [writeDigit, latch_illegal h]

/-- A decimal digit is its own nibble. -/
theorem nibbleOf_digit (x : Nat) : nibbleOf ((x % 10 : Nat) : Int) = BitVec.ofNat 4 (x % 10) := by
  unfold nibbleOf
  congr 1
  omega

/-- `writeNumber` leaves the four decimal digits of the clamped number in the digit elements, the thousands digit on
the data lines, all latch lines low, and changes nothing else (R91, R92). -/
theorem writeNumber_eq (n : Int) (s : State) :
    writeNumber n s = { s with
      dv := BitVec.ofNat 4 (decimalDigit (shownNumber n) 3)
      le := Vector.replicate 4 false
      disp := #v[BitVec.ofNat 4 (decimalDigit (shownNumber n) 0), BitVec.ofNat 4 (decimalDigit (shownNumber n) 1),
        BitVec.ofNat 4 (decimalDigit (shownNumber n) 2), BitVec.ofNat 4 (decimalDigit (shownNumber n) 3)]
      trace := s.trace ++ numberEvents s.cfg (shownNumber n) } := by
  have hset : ∀ (le : Vector Bool 4), (((le.set 0 false).set 1 false).set 2 false).set 3 false = Vector.replicate 4 false := by
    intro le
    ext i hi
    rcases i with _ | _ | _ | _ | i <;> simp_all
    omega
  have hdisp : ∀ (d : Vector Nibble 4) (a b c e : Nibble), (((d.set 0 a).set 1 b).set 2 c).set 3 e = #v[a, b, c, e] := by
    intro d a b c e
    ext i hi
    rcases i with _ | _ | _ | _ | i <;> simp_all
    omega
  simp only [writeNumber, putDigits, putDigit_eq, nibbleOf_digit, decimalDigit, numberEvents, List.append_assoc,
    Nat.div_div_eq_div_mul, pow_zero, Nat.div_one, pow_one, Nat.reduceMul, Nat.reducePow]
  congr 1
  · exact hset s.le
  · exact hdisp s.disp _ _ _ _

/-- Rendering shows the mirror (R144). -/
theorem render_eq (s : State) : render s = writeNumber (s.hour * 100 + s.minute : Nat) s := rfl

end Sys2Proof.Machine
end

