-- ==== Sys2Proof/Laws/Memory.lean ====
section
/-! SUPPORT. The laws of the chip's register space: read after write, the canonical form, and that every operation
over it keeps the form. -/

namespace Sys2Proof.Machine

/-- A register reads as what was last written to it (R60 b). -/
@[simp] theorem Memory.read_write_same (m : Memory) (a : Nat) (v : Byte) : Memory.read (Memory.write m a v) a = some v := by
  induction m with
  | nil => simp [Memory.write, Memory.read]
  | cons c m ih =>
    obtain ⟨b, w⟩ := c
    simp only [Memory.write]
    split
    · simp [Memory.read]
    · split
      · simp [Memory.read]
      · rename_i h; simp [Memory.read, h, ih]

/-- A write leaves every other register alone. -/
theorem Memory.read_write_other (m : Memory) {a k : Nat} (h : a ≠ k) (v : Byte) :
    Memory.read (Memory.write m k v) a = Memory.read m a := by
  induction m with
  | nil => simp [Memory.write, Memory.read, h]
  | cons c m ih =>
    obtain ⟨b, w⟩ := c
    simp only [Memory.write]
    split
    · simp [Memory.read, h]
    · split
      · rename_i hb; subst hb; simp [Memory.read, h]
      · simp [Memory.read, ih]

/-- The lower bound of a rising list may be lowered. -/
theorem Memory.risingFrom_lower {a b : Nat} (h : b ≤ a) {m : Memory} (hm : Memory.risingFrom a m = true) :
    Memory.risingFrom b m = true := by
  cases m with
  | nil => rfl
  | cons c m =>
    simp only [Memory.risingFrom, Bool.and_eq_true, decide_eq_true_eq] at hm ⊢
    exact ⟨by omega, hm.2⟩

/-- A write keeps a list rising. -/
theorem Memory.write_rising {a k : Nat} (hk : a ≤ k) (v : Byte) {m : Memory} (hm : Memory.risingFrom a m = true) :
    Memory.risingFrom a (Memory.write m k v) = true := by
  induction m generalizing a with
  | nil => simp [Memory.write, Memory.risingFrom, hk]
  | cons c m ih =>
    obtain ⟨b, w⟩ := c
    simp only [Memory.risingFrom, Bool.and_eq_true, decide_eq_true_eq] at hm
    simp only [Memory.write]
    split
    · simp only [Memory.risingFrom, Bool.and_eq_true, decide_eq_true_eq]
      exact ⟨hk, by omega, hm.2⟩
    · split
      · rename_i hb; subst hb
        simp only [Memory.risingFrom, Bool.and_eq_true, decide_eq_true_eq]
        exact ⟨hk, hm.2⟩
      · simp only [Memory.risingFrom, Bool.and_eq_true, decide_eq_true_eq]
        exact ⟨hm.1, ih (by omega) hm.2⟩

/-- A write keeps the canonical form. -/
theorem Memory.write_wf (m : Memory) (a : Nat) (v : Byte) (h : Memory.wf m = true) : Memory.wf (Memory.write m a v) = true :=
  Memory.write_rising (Nat.zero_le a) v h

/-- A write lists no address but its own and those listed before. -/
theorem Memory.mem_write {m : Memory} {a : Nat} {v : Byte} {c : Host.Cell} (h : c ∈ Memory.write m a v) :
    c = (a, v) ∨ c ∈ m := by
  induction m with
  | nil => simpa [Memory.write] using h
  | cons d m ih =>
    obtain ⟨b, w⟩ := d
    simp only [Memory.write] at h
    split at h
    · simpa using h
    · split at h
      · simp only [List.mem_cons] at h ⊢; tauto
      · simp only [List.mem_cons] at h ⊢
        rcases h with h | h
        · exact .inr (.inl h)
        · rcases ih h with h | h
          · exact .inl h
          · exact .inr (.inr h)

/-- The environment's changes keep the canonical form. -/
theorem applyChanges_wf (cs : List (Fin 3 × Byte)) (m : Memory) (h : Memory.wf m = true) :
    Memory.wf (applyChanges cs m) = true := by
  unfold applyChanges
  induction cs generalizing m with
  | nil => exact h
  | cons c cs ih => exact ih _ (Memory.write_wf _ _ _ h)

/-- The environment's changes list registers 0, 1, 2 only. -/
theorem applyChanges_registers (cs : List (Fin 3 × Byte)) (m : Memory) (h : ∀ c ∈ m, c.1 < 3) :
    ∀ c ∈ applyChanges cs m, c.1 < 3 := by
  unfold applyChanges
  induction cs generalizing m with
  | nil => exact h
  | cons d cs ih =>
    refine ih _ fun c hc => ?_
    rcases Memory.mem_write hc with rfl | hc
    · exact d.1.isLt
    · exact h c hc

/-- No changes: nothing changes. -/
@[simp] theorem applyChanges_nil (m : Memory) : applyChanges [] m = m := rfl

/-- Below the first address of a rising list nothing is listed. -/
theorem Memory.read_below {a k : Nat} (hk : k < a) {m : Memory} (hm : Memory.risingFrom a m = true) :
    Memory.read m k = none := by
  induction m generalizing a with
  | nil => rfl
  | cons c m ih =>
    obtain ⟨b, w⟩ := c
    simp only [Memory.risingFrom, Bool.and_eq_true, decide_eq_true_eq] at hm
    have hne : k ≠ b := by omega
    simp only [Memory.read, hne, if_false]
    exact ih (by omega) hm.2

/-- The form is canonical: register spaces that read alike everywhere are equal lists. -/
theorem Memory.eq_of_read_eq {a : Nat} {m m' : Memory} (hm : Memory.risingFrom a m = true)
    (hm' : Memory.risingFrom a m' = true) (h : ∀ k, Memory.read m k = Memory.read m' k) : m = m' := by
  induction m generalizing a m' with
  | nil =>
    cases m' with
    | nil => rfl
    | cons c m' => have := h c.1; simp [Memory.read] at this
  | cons c m ih =>
    obtain ⟨b, w⟩ := c
    simp only [Memory.risingFrom, Bool.and_eq_true, decide_eq_true_eq] at hm
    cases m' with
    | nil => have := h b; simp [Memory.read] at this
    | cons c' m' =>
      obtain ⟨b', w'⟩ := c'
      simp only [Memory.risingFrom, Bool.and_eq_true, decide_eq_true_eq] at hm'
      have hb := h b
      have hb' := h b'
      simp only [Memory.read, if_true] at hb hb'
      have hbb : b = b' := by
        rcases Nat.lt_trichotomy b b' with hlt | he | hgt
        · rw [if_neg (by omega), Memory.read_below (a := b' + 1) (by omega) hm'.2] at hb; cases hb
        · exact he
        · rw [if_neg (by omega), Memory.read_below (a := b + 1) (by omega) hm.2] at hb'; cases hb'
      subst hbb
      simp only [if_true, Option.some.injEq] at hb
      subst hb
      congr 1
      refine ih hm.2 hm'.2 fun k => ?_
      by_cases hk : k = b
      · subst hk
        rw [Memory.read_below (Nat.lt_succ_self _) hm.2, Memory.read_below (Nat.lt_succ_self _) hm'.2]
      · have := h k
        simpa [Memory.read, hk] using this

/-- What a register holds after a write to it. -/
@[simp] theorem State.chipByte_putChip_same (a : Fin 3) (v : Byte) (s : State) : (s.putChip a v).chipByte a = v := by
  simp [State.chipByte, Memory.byteAt]

/-- What another register holds after a write. -/
theorem State.chipByte_putChip_other {a k : Fin 3} (h : a ≠ k) (v : Byte) (s : State) :
    (s.putChip k v).chipByte a = s.chipByte a := by
  simp [State.chipByte, Memory.byteAt, Memory.read_write_other _ (Fin.val_ne_of_ne h)]

end Sys2Proof.Machine
end

