-- ==== Sys2Proof/Laws/Transport.lean ====
section
/-! SUPPORT. What the register transactions and ClockChip's operations do (R47 to R49, R102, R104, R106): their
results when every transaction succeeds, where they stop when one fails, and what they can change at all. -/

namespace Sys2Proof.Machine

/-! ## The environment's moves -/

/-- The coming move depends on the script and the count of draws only. -/
theorem State.turn_congr {s t : State} (h : s.turns = t.turns) (hd : s.draws = t.draws) : s.turn = t.turn := by
  unfold State.turn
  rw [h, hd]

theorem State.envMove_turns_congr {s t : State} (h : s.turns = t.turns) : s.envMove.turns = t.envMove.turns := by
  unfold State.envMove
  rw [h]
  cases t.turns <;> rfl

theorem State.envMove_draws_congr {s t : State} (h : s.turns = t.turns) (hd : s.draws = t.draws) :
    s.envMove.draws = t.envMove.draws := by
  unfold State.envMove
  rw [h]
  cases t.turns <;> simp [hd]

/-- Writing a register does not change what the environment does next. -/
@[simp] theorem State.turn_envMove_putChip (a : Fin 3) (v : Byte) (s : State) :
    (s.putChip a v).envMove.turn = s.envMove.turn :=
  State.turn_congr (State.envMove_turns_congr rfl) (State.envMove_draws_congr rfl rfl)

@[simp] theorem State.turn_envMove_envMove_putChip (a : Fin 3) (v : Byte) (s : State) :
    (s.putChip a v).envMove.envMove.turn = s.envMove.envMove.turn :=
  State.turn_congr (State.envMove_turns_congr (State.envMove_turns_congr rfl))
    (State.envMove_draws_congr (State.envMove_turns_congr rfl) (State.envMove_draws_congr rfl rfl))

@[simp] theorem State.moves_zero (s : State) : s.moves 0 = s := rfl
@[simp] theorem State.moves_succ (k : Nat) (s : State) : s.moves (k + 1) = (s.moves k).envMove := rfl
@[simp] theorem State.moves_emit (k : Nat) (e : Event) (s : State) : (s.emit e).moves k = (s.moves k).emit e := by
  induction k with
  | zero => rfl
  | succ k ih => simp [ih]

@[simp] theorem State.moves_trace (k : Nat) (s : State) : (s.moves k).trace = s.trace := by
  induction k with
  | zero => rfl
  | succ k ih => simp [ih]

/-- What a write leaves to come depends on the moves only, and it does not look at the trace. -/
@[simp] theorem State.turn_wrote (a : Fin 3) (v : Byte) (s : State) : (s.wrote a v).turn = s.envMove.turn := rfl
@[simp] theorem State.turn_envMove_wrote (a : Fin 3) (v : Byte) (s : State) :
    (s.wrote a v).envMove.turn = s.envMove.envMove.turn := by simp [State.wrote]
@[simp] theorem State.turn_wrote_wrote (a b : Fin 3) (v w : Byte) (s : State) :
    ((s.wrote a v).wrote b w).turn = s.envMove.envMove.turn := by simp [State.wrote]
@[simp] theorem State.wrote_emit (a : Fin 3) (v : Byte) (e : Event) (s : State) : (s.emit e).wrote a v = (s.wrote a v).emit e := by
  simp only [State.wrote, State.envMove_emit]
  rfl
@[simp] theorem State.wrote_trace (a : Fin 3) (v : Byte) (s : State) : (s.wrote a v).trace = s.trace := by simp [State.wrote]
@[simp] theorem State.leave_emit (a : Fin 3) (l : Option Byte) (e : Event) (s : State) :
    (s.emit e).leave a l = (s.leave a l).emit e := by cases l <;> rfl

/-- A quiet move of the script changes nothing but the script. -/
theorem State.envMove_quiet {s : State} {rest : List Turn} (h : s.turns = Turn.quiet :: rest) :
    s.envMove = { s with turns := rest } := by
  simp [State.envMove, h, Turn.quiet, applyChanges]

theorem State.turn_quiet {s : State} {rest : List Turn} (h : s.turns = Turn.quiet :: rest) : s.turn.verdict = .ok := by
  simp [State.turn, h, Turn.quiet]

/-! ## One transaction -/

theorem regRead_ok {s : State} (h : s.turn.verdict = .ok) (a : Fin 3) :
    regRead a s = .done (s.envMove.chipByte a) (s.envMove.emit (.regRead a (s.envMove.chipByte a))) := by
  simp [regRead, h]

theorem regRead_failed {s : State} {left : Option Byte} (h : s.turn.verdict = .failed left) (a : Fin 3) :
    regRead a s = .raised .transportError (s.envMove.emit (.regFail .rd a)) := by
  simp [regRead, h]

theorem regWrite_ok {s : State} (h : s.turn.verdict = .ok) (a : Fin 3) (v : Byte) :
    regWrite a v s = .done () ((s.wrote a v).emit (.regWrite a v)) := by
  simp [regWrite, h, State.wrote]

theorem regWrite_failed {s : State} {left : Option Byte} (h : s.turn.verdict = .failed left) (a : Fin 3) (v : Byte) :
    regWrite a v s = .raised .transportError ((s.envMove.leave a left).emit (.regFail .wr a)) := by
  simp [regWrite, h]

/-- A transaction fails exactly when its verdict is a failure. -/
theorem Verdict.ok_or_failed (v : Verdict) : v = .ok ∨ ∃ left, v = .failed left := by
  cases v <;> simp

/-! ## What transactions can change (frame) -/

/-- Only the chip's registers, the environment's script and the trace differ. -/
def OnlyTransport (s t : State) : Prop :=
  t = { s with rtc := t.rtc, turns := t.turns, draws := t.draws, trace := t.trace }

theorem OnlyTransport.refl (s : State) : OnlyTransport s s := rfl

theorem OnlyTransport.trans {s t u : State} (h : OnlyTransport s t) (h' : OnlyTransport t u) : OnlyTransport s u := by
  unfold OnlyTransport at *
  rw [h'] 
  rw [h]

theorem State.envMove_only (s : State) : OnlyTransport s s.envMove := by
  unfold State.envMove OnlyTransport
  cases s.turns <;> rfl

theorem State.emit_only (e : Event) (s : State) : OnlyTransport s (s.emit e) := rfl
theorem State.putChip_only (a : Fin 3) (v : Byte) (s : State) : OnlyTransport s (s.putChip a v) := rfl
theorem State.leave_only (a : Fin 3) (l : Option Byte) (s : State) : OnlyTransport s (s.leave a l) := by cases l <;> rfl

theorem regRead_only (a : Fin 3) (s : State) : OnlyTransport s (regRead a s).final := by
  unfold regRead
  cases s.turn.verdict <;> exact (s.envMove_only).trans (State.emit_only _ _)

theorem regWrite_only (a : Fin 3) (v : Byte) (s : State) : OnlyTransport s (regWrite a v s).final := by
  unfold regWrite
  cases s.turn.verdict with
  | ok => exact ((s.envMove_only).trans (State.putChip_only a v _)).trans (State.emit_only _ _)
  | failed l => exact ((s.envMove_only).trans (State.leave_only a l _)).trans (State.emit_only _ _)

theorem getTime_only (s : State) : OnlyTransport s (getTime s).final :=
  Attempt.final_andThen (OnlyTransport s) (regRead_only 0 s) fun _ _ h0 =>
  Attempt.final_andThen (OnlyTransport s) (h0.trans (regRead_only 1 _)) fun _ _ h1 =>
  Attempt.final_andThen (OnlyTransport s) (h1.trans (regRead_only 2 _)) fun _ _ h2 => h2

theorem setTime_only (h m sec : Int) (s : State) : OnlyTransport s (setTime h m sec s).final :=
  Attempt.final_andThen (OnlyTransport s) (regWrite_only 0 _ s) fun _ _ h0 =>
  Attempt.final_andThen (OnlyTransport s) (h0.trans (regWrite_only 1 _ _)) fun _ _ h1 => h1.trans (regWrite_only 2 _ _)

theorem rtcInit_only (s : State) : OnlyTransport s (rtcInit s).final :=
  Attempt.final_andThen (OnlyTransport s) (regRead_only 0 s) fun r t h0 => by
    show OnlyTransport s (if haltFlag r = true then regWrite 0 (withoutHalt r) t else .done () t).final
    split
    · exact h0.trans (regWrite_only 0 _ _)
    · exact h0

/-! ## ClockChip's operations: where they end -/

/-- `getTime` (R104): three reads in ascending order. -/
theorem getTime_ok {s : State} (h0 : s.Succeeds 0) (h1 : s.Succeeds 1) (h2 : s.Succeeds 2) :
    getTime s = .done (decodeTime (s.readAt 0 0) (s.readAt 1 1) (s.readAt 2 2))
      { s.moves 3 with trace := s.trace ++ [.regRead 0 (s.readAt 0 0), .regRead 1 (s.readAt 1 1), .regRead 2 (s.readAt 2 2)] } := by
  simp only [State.Succeeds, State.moves_succ, State.moves_zero] at h0 h1 h2
  rw [getTime, regRead_ok h0, Attempt.andThen_done, regRead_ok (by simpa using h1), Attempt.andThen_done,
    regRead_ok (by simpa using h2), Attempt.andThen_done]
  simp [State.readAt]
  simp [State.emit]

/-- `getTime` stops at the first failing read; the later ones are not made (R104). -/
theorem getTime_fail0 {s : State} (h0 : ¬ s.Succeeds 0) :
    getTime s = .raised .transportError { s.moves 1 with trace := s.trace ++ [.regFail .rd 0] } := by
  obtain h | ⟨l, h⟩ := Verdict.ok_or_failed s.turn.verdict
  · exact absurd h h0
  · rw [getTime, regRead_failed h, Attempt.andThen_raised]
    simp [State.emit]

theorem getTime_fail1 {s : State} (h0 : s.Succeeds 0) (h1 : ¬ s.Succeeds 1) :
    getTime s = .raised .transportError
      { s.moves 2 with trace := s.trace ++ [.regRead 0 (s.readAt 0 0), .regFail .rd 1] } := by
  simp only [State.Succeeds, State.moves_succ, State.moves_zero] at h0 h1
  obtain h | ⟨l, h⟩ := Verdict.ok_or_failed s.envMove.turn.verdict
  · exact absurd h h1
  · rw [getTime, regRead_ok h0, Attempt.andThen_done, regRead_failed (by simpa using h), Attempt.andThen_raised]
    simp [State.readAt]
    simp [State.emit]

theorem getTime_fail2 {s : State} (h0 : s.Succeeds 0) (h1 : s.Succeeds 1) (h2 : ¬ s.Succeeds 2) :
    getTime s = .raised .transportError
      { s.moves 3 with trace := s.trace ++ [.regRead 0 (s.readAt 0 0), .regRead 1 (s.readAt 1 1), .regFail .rd 2] } := by
  simp only [State.Succeeds, State.moves_succ, State.moves_zero] at h0 h1 h2
  obtain h | ⟨l, h⟩ := Verdict.ok_or_failed s.envMove.envMove.turn.verdict
  · exact absurd h h2
  · rw [getTime, regRead_ok h0, Attempt.andThen_done, regRead_ok (by simpa using h1), Attempt.andThen_done,
      regRead_failed (by simpa using h), Attempt.andThen_raised]
    simp [State.readAt]
    simp [State.emit]

/-- Everything `getTime` can do (R104, R109). -/
theorem getTime_cases (s : State) :
    (s.Succeeds 0 ∧ s.Succeeds 1 ∧ s.Succeeds 2 ∧
      ∃ t, getTime s = .done (decodeTime (s.readAt 0 0) (s.readAt 1 1) (s.readAt 2 2)) t) ∨
    (¬ (s.Succeeds 0 ∧ s.Succeeds 1 ∧ s.Succeeds 2) ∧ ∃ t, getTime s = .raised .transportError t) := by
  by_cases h0 : s.Succeeds 0
  · by_cases h1 : s.Succeeds 1
    · by_cases h2 : s.Succeeds 2
      · exact .inl ⟨h0, h1, h2, _, getTime_ok h0 h1 h2⟩
      · exact .inr ⟨by tauto, _, getTime_fail2 h0 h1 h2⟩
    · exact .inr ⟨by tauto, _, getTime_fail1 h0 h1⟩
  · exact .inr ⟨by tauto, _, getTime_fail0 h0⟩

/-- `setTime` (R106): three writes in ascending order, each field wrapped. -/
theorem setTime_ok {s : State} (h0 : s.Succeeds 0) (h1 : s.Succeeds 1) (h2 : s.Succeeds 2) (h m sec : Int) :
    setTime h m sec s = .done () { ((s.wrote 0 (secondsByte sec)).wrote 1 (minutesByte m)).wrote 2 (hoursByte h) with
      trace := s.trace ++ [.regWrite 0 (secondsByte sec), .regWrite 1 (minutesByte m), .regWrite 2 (hoursByte h)] } := by
  simp only [State.Succeeds, State.moves_succ, State.moves_zero] at h0 h1 h2
  rw [setTime, regWrite_ok h0, Attempt.andThen_done, regWrite_ok (by simpa using h1), Attempt.andThen_done,
    regWrite_ok (by simpa using h2)]
  simp only [State.wrote_emit]
  simp [State.emit]

/-- `setTime` stops at the first failing write: the writes before it stay, the later ones are not made (D18). The
failing register holds what the environment leaves there (R48). -/
theorem setTime_fail0 {s : State} {l : Option Byte} (h0 : s.turn.verdict = .failed l) (h m sec : Int) :
    setTime h m sec s = .raised .transportError { s.envMove.leave 0 l with trace := s.trace ++ [.regFail .wr 0] } := by
  rw [setTime, regWrite_failed h0, Attempt.andThen_raised]
  simp [State.emit]

theorem setTime_fail1 {s : State} {l : Option Byte} (h0 : s.Succeeds 0) (h1 : (s.moves 1).turn.verdict = .failed l)
    (h m sec : Int) :
    setTime h m sec s = .raised .transportError { (s.wrote 0 (secondsByte sec)).envMove.leave 1 l with
      trace := s.trace ++ [.regWrite 0 (secondsByte sec), .regFail .wr 1] } := by
  simp only [State.Succeeds, State.moves_succ, State.moves_zero] at h0 h1
  rw [setTime, regWrite_ok h0, Attempt.andThen_done, regWrite_failed (left := l) (by simpa using h1), Attempt.andThen_raised]
  simp only [State.envMove_emit, State.leave_emit]
  simp [State.emit]

theorem setTime_fail2 {s : State} {l : Option Byte} (h0 : s.Succeeds 0) (h1 : s.Succeeds 1)
    (h2 : (s.moves 2).turn.verdict = .failed l) (h m sec : Int) :
    setTime h m sec s = .raised .transportError
      { ((s.wrote 0 (secondsByte sec)).wrote 1 (minutesByte m)).envMove.leave 2 l with
        trace := s.trace ++ [.regWrite 0 (secondsByte sec), .regWrite 1 (minutesByte m), .regFail .wr 2] } := by
  simp only [State.Succeeds, State.moves_succ, State.moves_zero] at h0 h1 h2
  rw [setTime, regWrite_ok h0, Attempt.andThen_done, regWrite_ok (by simpa using h1), Attempt.andThen_done,
    regWrite_failed (left := l) (by simpa using h2)]
  simp only [State.wrote_emit, State.envMove_emit, State.leave_emit]
  simp [State.emit]

/-- A failed verdict is no success. -/
theorem not_succeeds_of_failed {s : State} {k : Nat} {l : Option Byte} (h : (s.moves k).turn.verdict = .failed l) :
    ¬ s.Succeeds k := by
  unfold State.Succeeds
  rw [h]
  exact fun hc => nomatch hc

/-- Everything `setTime` can do (R106, R109). -/
theorem setTime_cases (h m sec : Int) (s : State) :
    (s.Succeeds 0 ∧ s.Succeeds 1 ∧ s.Succeeds 2 ∧ ∃ t, setTime h m sec s = .done () t) ∨
    (¬ (s.Succeeds 0 ∧ s.Succeeds 1 ∧ s.Succeeds 2) ∧ ∃ t, setTime h m sec s = .raised .transportError t) := by
  obtain h0 | ⟨l, h0⟩ := Verdict.ok_or_failed (s.moves 0).turn.verdict
  · obtain h1 | ⟨l, h1⟩ := Verdict.ok_or_failed (s.moves 1).turn.verdict
    · obtain h2 | ⟨l, h2⟩ := Verdict.ok_or_failed (s.moves 2).turn.verdict
      · exact .inl ⟨h0, h1, h2, _, setTime_ok h0 h1 h2 h m sec⟩
      · exact .inr ⟨fun hs => not_succeeds_of_failed h2 hs.2.2, _, setTime_fail2 h0 h1 h2 h m sec⟩
    · exact .inr ⟨fun hs => not_succeeds_of_failed h1 hs.2.1, _, setTime_fail1 h0 h1 h m sec⟩
  · exact .inr ⟨fun hs => not_succeeds_of_failed h0 hs.1, _, setTime_fail0 h0 h m sec⟩

/-- `RTCINIT` with the clock-halt bit clear: one read, no write (R102). -/
theorem rtcInit_running {s : State} (h0 : s.Succeeds 0) (hc : haltFlag (s.readAt 0 0) = false) :
    rtcInit s = .done () { s.moves 1 with trace := s.trace ++ [.regRead 0 (s.readAt 0 0)] } := by
  have h0' : s.turn.verdict = .ok := h0
  have hc' : haltFlag (s.envMove.chipByte 0) = false := hc
  rw [rtcInit, regRead_ok h0', Attempt.andThen_done, if_neg (by simp [hc'])]
  simp [State.readAt]
  simp [State.emit]

/-- `RTCINIT` with the clock-halt bit set: the byte is written back without it (R102). -/
theorem rtcInit_halted {s : State} (h0 : s.Succeeds 0) (h1 : s.Succeeds 1) (hc : haltFlag (s.readAt 0 0) = true) :
    rtcInit s = .done () { (s.moves 1).wrote 0 (withoutHalt (s.readAt 0 0)) with
      trace := s.trace ++ [.regRead 0 (s.readAt 0 0), .regWrite 0 (withoutHalt (s.readAt 0 0))] } := by
  have h0' : s.turn.verdict = .ok := h0
  have h1' : s.envMove.turn.verdict = .ok := h1
  have hc' : haltFlag (s.envMove.chipByte 0) = true := hc
  rw [rtcInit, regRead_ok h0', Attempt.andThen_done, if_pos hc', regWrite_ok (by simpa using h1')]
  simp [State.readAt]
  simp [State.emit]

/-- `RTCINIT` whose read fails writes nothing (R102). -/
theorem rtcInit_fail0 {s : State} (h0 : ¬ s.Succeeds 0) :
    rtcInit s = .raised .transportError { s.moves 1 with trace := s.trace ++ [.regFail .rd 0] } := by
  obtain h | ⟨l, h⟩ := Verdict.ok_or_failed s.turn.verdict
  · exact absurd h h0
  · rw [rtcInit, regRead_failed h, Attempt.andThen_raised]
    simp [State.emit]

/-- `RTCINIT` whose write fails leaves the register as the environment does (R102). -/
theorem rtcInit_fail1 {s : State} {l : Option Byte} (h0 : s.Succeeds 0) (h1 : (s.moves 1).turn.verdict = .failed l)
    (hc : haltFlag (s.readAt 0 0) = true) :
    rtcInit s = .raised .transportError { (s.moves 2).leave 0 l with
      trace := s.trace ++ [.regRead 0 (s.readAt 0 0), .regFail .wr 0] } := by
  have h0' : s.turn.verdict = .ok := h0
  have h1' : s.envMove.turn.verdict = .failed l := h1
  have hc' : haltFlag (s.envMove.chipByte 0) = true := hc
  rw [rtcInit, regRead_ok h0', Attempt.andThen_done, if_pos hc', regWrite_failed (left := l) (by simpa using h1')]
  simp [State.readAt, State.leave_emit]
  simp [State.emit]

/-- A failing `setTime` ends with the failed write, and touches nothing but the chip, the script and the trace. -/
theorem setTime_failed {s : State} (h m sec : Int) (hn : ¬ (s.Succeeds 0 ∧ s.Succeeds 1 ∧ s.Succeeds 2)) :
    ∃ t es, setTime h m sec s = .raised .transportError t ∧ OnlyTransport s t ∧ t.trace = s.trace ++ es ∧
      (∀ e ∈ es, e.isTransaction = true) ∧ ∃ a, es.getLast? = some (.regFail .wr a) := by
  have ho := setTime_only h m sec s
  obtain h0 | ⟨l, h0⟩ := Verdict.ok_or_failed (s.moves 0).turn.verdict
  · obtain h1 | ⟨l, h1⟩ := Verdict.ok_or_failed (s.moves 1).turn.verdict
    · obtain h2 | ⟨l, h2⟩ := Verdict.ok_or_failed (s.moves 2).turn.verdict
      · exact absurd ⟨h0, h1, h2⟩ hn
      · have hq := setTime_fail2 h0 h1 h2 h m sec
        rw [hq] at ho
        exact ⟨_, _, hq, ho, rfl, by simp [Event.isTransaction], 2, rfl⟩
    · have hq := setTime_fail1 h0 h1 h m sec
      rw [hq] at ho
      exact ⟨_, _, hq, ho, rfl, by simp [Event.isTransaction], 1, rfl⟩
  · have hq := setTime_fail0 (s := s) h0 h m sec
    rw [hq] at ho
    exact ⟨_, _, hq, ho, rfl, by simp [Event.isTransaction], 0, rfl⟩

/-- A failing `getTime` ends with the failed read, writes nothing, and touches nothing but the chip, the script and the
trace. -/
theorem getTime_failed {s : State} (hn : ¬ (s.Succeeds 0 ∧ s.Succeeds 1 ∧ s.Succeeds 2)) :
    ∃ t es, getTime s = .raised .transportError t ∧ OnlyTransport s t ∧ t.trace = s.trace ++ es ∧
      (∀ e ∈ es, e.isTransaction = true) ∧ (∃ a, es.getLast? = some (.regFail .rd a)) ∧ ∀ a v, .regWrite a v ∉ es := by
  have ho := getTime_only s
  by_cases h0 : s.Succeeds 0
  · by_cases h1 : s.Succeeds 1
    · by_cases h2 : s.Succeeds 2
      · exact absurd ⟨h0, h1, h2⟩ hn
      · have hq := getTime_fail2 h0 h1 h2
        rw [hq] at ho
        exact ⟨_, _, hq, ho, rfl, by simp [Event.isTransaction], ⟨2, rfl⟩, by simp⟩
    · have hq := getTime_fail1 h0 h1
      rw [hq] at ho
      exact ⟨_, _, hq, ho, rfl, by simp [Event.isTransaction], ⟨1, rfl⟩, by simp⟩
  · have hq := getTime_fail0 h0
    rw [hq] at ho
    exact ⟨_, _, hq, ho, rfl, by simp [Event.isTransaction], ⟨0, rfl⟩, by simp⟩

/-- `setTime` whose `k`-th write fails, exactly (R106). -/
theorem setTime_failsAt {s : State} {k : Fin 3} {left : Option Byte} (hf : s.FailsAt k left) (h m sec : Int) :
    setTime h m sec s = .raised .transportError (s.writeFailure (secondsByte sec) (minutesByte m) k left) := by
  obtain ⟨hs, hv⟩ := hf
  match k with
  | 0 => exact setTime_fail0 hv h m sec
  | 1 => exact setTime_fail1 (hs 0 (by decide)) hv h m sec
  | 2 => exact setTime_fail2 (hs 0 (by decide)) (hs 1 (by decide)) hv h m sec

/-- `getTime` whose `k`-th read fails, exactly (R104). -/
theorem getTime_failsAt {s : State} {k : Fin 3} {left : Option Byte} (hf : s.FailsAt k left) :
    getTime s = .raised .transportError (s.readFailure k) := by
  obtain ⟨hs, hv⟩ := hf
  match k with
  | 0 => exact getTime_fail0 (not_succeeds_of_failed hv)
  | 1 => exact getTime_fail1 (hs 0 (by decide)) (not_succeeds_of_failed hv)
  | 2 => exact getTime_fail2 (hs 0 (by decide)) (hs 1 (by decide)) (not_succeeds_of_failed hv)

/-- Three transactions that do not all succeed fail at one of them. -/
theorem State.failsAt_of_not_all {s : State} (hn : ¬ (s.Succeeds 0 ∧ s.Succeeds 1 ∧ s.Succeeds 2)) :
    ∃ k left, s.FailsAt k left := by
  obtain h0 | ⟨l, h0⟩ := Verdict.ok_or_failed (s.moves 0).turn.verdict
  · obtain h1 | ⟨l, h1⟩ := Verdict.ok_or_failed (s.moves 1).turn.verdict
    · obtain h2 | ⟨l, h2⟩ := Verdict.ok_or_failed (s.moves 2).turn.verdict
      · exact absurd ⟨h0, h1, h2⟩ hn
      · refine ⟨2, l, fun j hj => ?_, h2⟩
        obtain rfl | rfl : j = 0 ∨ j = 1 := by
          have : j < 2 := hj
          omega
        · exact h0
        · exact h1
    · refine ⟨1, l, fun j hj => ?_, h1⟩
      obtain rfl : j = 0 := by
        have : j < 1 := hj
        omega
      exact h0
  · exact ⟨0, l, fun j hj => absurd hj (Nat.not_lt_zero j), h0⟩

/-- The coming moves depend on the script and the counter only. -/
theorem State.moves_script_congr {s t : State} (h : t.turns = s.turns) (hd : t.draws = s.draws) (k : Nat) :
    (t.moves k).turns = (s.moves k).turns ∧ (t.moves k).draws = (s.moves k).draws := by
  induction k with
  | zero => exact ⟨h, hd⟩
  | succ k ih => exact ⟨State.envMove_turns_congr ih.1, State.envMove_draws_congr ih.1 ih.2⟩

theorem State.Succeeds.congr {s t : State} {k : Nat} (hs : s.Succeeds k) (h : t.turns = s.turns) (hd : t.draws = s.draws) :
    t.Succeeds k := by
  have hk := State.moves_script_congr h hd k
  unfold State.Succeeds at *
  rwa [State.turn_congr hk.1 hk.2]

theorem State.FailsAt.congr {s t : State} {k : Fin 3} {left : Option Byte} (hf : s.FailsAt k left) (h : t.turns = s.turns)
    (hd : t.draws = s.draws) : t.FailsAt k left := by
  have hk := State.moves_script_congr h hd k
  exact ⟨fun j hj => (hf.1 j hj).congr h hd, by rw [State.turn_congr hk.1 hk.2]; exact hf.2⟩

end Sys2Proof.Machine
end

