-- ==== Sys2Proof/Laws/Controller.lean ====
section
/-! SUPPORT. What the controller's operations do when every transaction succeeds, and where they end when one fails
(R142 to R153). -/

namespace Sys2Proof.Machine

/-- `writeNumber` in the words of claims. -/
theorem writeNumber_rendered (n : Int) (s : State) : writeNumber n s = s.rendered (shownNumber n) := writeNumber_eq n s

/-- Rendering shows the mirror (R144). -/
theorem render_rendered (s : State) : render s = s.rendered (mirrorNumber s.hour s.minute) := writeNumber_rendered _ s

/-- After rendering the display shows the mirror (R42 e). -/
theorem render_showsMirror (s : State) : (render s).ShowsMirror := by
  rw [render_rendered]
  exact rfl

/-- The clamp in one expression. -/
theorem shownNumber_eq (n : Int) : (shownNumber n : Int) = max 0 (min 9999 n) := by
  unfold shownNumber clamp
  split
  · omega
  · split <;> omega

/-- The minute of the mirror is not touched by the writes of an hour step. -/
theorem incHour_ok {s : State} (h0 : s.Succeeds 0) (h1 : s.Succeeds 1) (h2 : s.Succeeds 2) :
    incHour s = .done () (State.rendered (mirrorNumber ((s.hour + 1) % 24) s.minute)
      { ((s.wrote 0 (secondsByte 0)).wrote 1 (minutesByte s.minute)).wrote 2 (hoursByte ((s.hour + 1) % 24 : Nat)) with
        hour := (s.hour + 1) % 24
        trace := s.trace ++ [.regWrite 0 (secondsByte 0), .regWrite 1 (minutesByte s.minute),
          .regWrite 2 (hoursByte ((s.hour + 1) % 24 : Nat))] }) := by
  rw [incHour, setTime_ok h0 h1 h2, Attempt.andThen_done, render_rendered]
  simp [State.setMirror, State.wrote]

/-- The same for a minute step (R146): the hour is not touched. -/
theorem incMinute_ok {s : State} (h0 : s.Succeeds 0) (h1 : s.Succeeds 1) (h2 : s.Succeeds 2) :
    incMinute s = .done () (State.rendered (mirrorNumber s.hour ((s.minute + 1) % 60))
      { ((s.wrote 0 (secondsByte 0)).wrote 1 (minutesByte ((s.minute + 1) % 60 : Nat))).wrote 2 (hoursByte s.hour) with
        minute := (s.minute + 1) % 60
        trace := s.trace ++ [.regWrite 0 (secondsByte 0), .regWrite 1 (minutesByte ((s.minute + 1) % 60 : Nat)),
          .regWrite 2 (hoursByte s.hour)] }) := by
  rw [incMinute, setTime_ok h0 h1 h2, Attempt.andThen_done, render_rendered]
  simp [State.setMirror, State.wrote]

/-- A failing hour step ends where its `setTime` ended: nothing is stored or rendered (R145, R157). -/
theorem incHour_failed {s t : State} {e : ErrorKind}
    (h : setTime ((s.hour + 1) % 24 : Nat) s.minute 0 s = .raised e t) : incHour s = .raised e t := by
  rw [incHour, h, Attempt.andThen_raised]

theorem incMinute_failed {s t : State} {e : ErrorKind}
    (h : setTime s.hour ((s.minute + 1) % 60 : Nat) 0 s = .raised e t) : incMinute s = .raised e t := by
  rw [incMinute, h, Attempt.andThen_raised]

@[simp] theorem State.turn_stampRecon (n : Nat) (s : State) : (stampRecon n s).turn = s.turn := rfl
@[simp] theorem State.envMove_stampRecon (n : Nat) (s : State) : (stampRecon n s).envMove = stampRecon n s.envMove := by
  unfold State.envMove stampRecon
  cases s.turns <;> rfl
@[simp] theorem State.moves_stampRecon (k n : Nat) (s : State) : (stampRecon n s).moves k = stampRecon n (s.moves k) := by
  induction k with
  | zero => rfl
  | succ k ih => simp [ih]
theorem State.succeeds_stampRecon (k n : Nat) (s : State) : (stampRecon n s).Succeeds k ↔ s.Succeeds k := by
  simp [State.Succeeds]
theorem State.readAt_stampRecon (k n : Nat) (a : Fin 3) (s : State) : (stampRecon n s).readAt k a = s.readAt k a := by
  simp only [State.readAt, State.moves_stampRecon]
  rfl

/-- `reconcile` with three good reads: the attempt is stamped, then the chip's time is adopted if it differs
(R152). -/
theorem reconcile_ok {s : State} (h0 : s.Succeeds 0) (h1 : s.Succeeds 1) (h2 : s.Succeeds 2) (now : Nat) :
    reconcile now s = .done () (adopt (decodeTime (s.readAt 0 0) (s.readAt 1 1) (s.readAt 2 2))
      { s.moves 3 with
        lastRecon := some now
        trace := s.trace ++ [.regRead 0 (s.readAt 0 0), .regRead 1 (s.readAt 1 1), .regRead 2 (s.readAt 2 2)] }) := by
  rw [reconcile, getTime_ok ((State.succeeds_stampRecon ..).mpr h0) ((State.succeeds_stampRecon ..).mpr h1)
    ((State.succeeds_stampRecon ..).mpr h2), Attempt.andThen_done]
  simp only [State.readAt_stampRecon, State.moves_stampRecon]
  rfl

/-- A failing reconciliation keeps the mirror and the display; the attempt counts (R152, R154). -/
theorem reconcile_failed {s t : State} {e : ErrorKind} {now : Nat} (h : getTime (stampRecon now s) = .raised e t) :
    reconcile now s = .raised e t := by
  rw [reconcile, h, Attempt.andThen_raised]

/-- Nothing is adopted where nothing differs (R152). -/
theorem adopt_same {t : Time} {s : State} (h : t.hour = s.hour ∧ t.minute = s.minute) : adopt t s = s := by
  simp [adopt, h]

/-- What differs is adopted and rendered (R152). -/
theorem adopt_differs {t : Time} {s : State} (h : ¬ (t.hour = s.hour ∧ t.minute = s.minute)) :
    adopt t s = ({ s with hour := t.hour, minute := t.minute } : State).rendered (mirrorNumber t.hour t.minute) := by
  rw [adopt, if_neg h, render_rendered]
  rfl

/-- A button step without an event (R150). -/
theorem buttonStep_none {b : Button} {inc : State → Attempt Unit} {now : Nat} {s : State} (h : firing b now s = none) :
    buttonStep b inc now s = .done () (process b now s) := by
  simp [buttonStep, h]

/-- A button step with an event runs the increment, whichever event it is (R148). -/
theorem buttonStep_some {b : Button} {inc : State → Attempt Unit} {now : Nat} {s : State} {f : Firing}
    (h : firing b now s = some f) : buttonStep b inc now s = inc (process b now s) := by
  simp [buttonStep, h]

theorem reconStep_due {now : Nat} {s : State} (h : reconDue now s = true) : reconStep now s = reconcile now s := by
  simp [reconStep, h]

theorem reconStep_notDue {now : Nat} {s : State} (h : reconDue now s = false) : reconStep now s = .done () s := by
  simp [reconStep, h]

/-! ## The ends of the controller's commands -/

/-- A tick whose steps all go well (R149). -/
theorem exec_tick_done {s t : State} (hr : s.running = true) (h : tickSteps s.now s = .done () t) :
    exec .tick s = .next { t with res := 0#32, err := 0#2 } := by
  show Host.Outcome.next (concludePlain (whileRunning (fun s => catchTransport (tickSteps s.now s)) s)) = _
  simp only [whileRunning, if_pos hr, h]
  rfl

/-- A tick one of whose transactions fails (R153). -/
theorem exec_tick_raised {s t : State} (hr : s.running = true) (h : tickSteps s.now s = .raised .transportError t) :
    exec .tick s = .next t.reported := by
  show Host.Outcome.next (concludePlain (whileRunning (fun s => catchTransport (tickSteps s.now s)) s)) = _
  simp only [whileRunning, if_pos hr, h]
  rfl

/-- Stamping an attempt commutes with failing reads. -/
theorem State.readFailure_stampRecon (k : Fin 3) (n : Nat) (s : State) :
    (stampRecon n s).readFailure k = stampRecon n (s.readFailure k) := by
  match k with
  | 0 => simp only [State.readFailure, State.moves_stampRecon]; rfl
  | 1 => simp only [State.readFailure, State.moves_stampRecon, State.readAt_stampRecon]; rfl
  | 2 => simp only [State.readFailure, State.moves_stampRecon, State.readAt_stampRecon]; rfl

/-! ## The environment does not look at the buttons -/

@[simp] theorem State.moves_setButton (k : Nat) (b : Button) (x : ButtonState) (s : State) :
    (s.setButton b x).moves k = (s.moves k).setButton b x := by
  induction k with
  | zero => rfl
  | succ k ih =>
    rw [State.moves_succ, ih, State.moves_succ]
    cases b <;> (unfold State.envMove State.setButton; dsimp only; cases (s.moves k).turns <;> rfl)

@[simp] theorem State.readAt_setButton (k : Nat) (a : Fin 3) (b : Button) (x : ButtonState) (s : State) :
    (s.setButton b x).readAt k a = s.readAt k a := by
  rw [State.readAt, State.moves_setButton]
  cases b <;> rfl

@[simp] theorem State.readFailure_setButton (k : Fin 3) (b : Button) (x : ButtonState) (s : State) :
    (s.setButton b x).readFailure k = (s.readFailure k).setButton b x := by
  match k with
  | 0 => simp only [State.readFailure, State.moves_setButton]; cases b <;> rfl
  | 1 => simp only [State.readFailure, State.moves_setButton, State.readAt_setButton]; cases b <;> rfl
  | 2 => simp only [State.readFailure, State.moves_setButton, State.readAt_setButton]; cases b <;> rfl

/-! ## The condition of step 4 -/

theorem reconDue_iff (s : State) : reconDue s.now s = true ↔ s.ReconDue := by
  unfold reconDue State.ReconDue
  cases s.lastRecon <;> simp

theorem reconDue_eq_false {s : State} (h : ¬ s.ReconDue) : reconDue s.now s = false := by
  rw [← Bool.not_eq_true, reconDue_iff]
  exact h

/-- `reconcile` whose `k`-th read fails, exactly (R152, R154). -/
theorem reconcile_failsAt {s : State} {k : Fin 3} {left : Option Byte} (hf : s.FailsAt k left) (now : Nat) :
    reconcile now s = .raised .transportError { s.readFailure k with lastRecon := some now } := by
  have h : (stampRecon now s).FailsAt k left := hf.congr rfl rfl
  rw [reconcile_failed (getTime_failsAt h), State.readFailure_stampRecon]
  rfl

/-- The increments whose `k`-th write fails, exactly (R145, R146, R106). -/
theorem incHour_failsAt {s : State} {k : Fin 3} {left : Option Byte} (hf : s.FailsAt k left) :
    incHour s = .raised .transportError (s.writeFailure (secondsByte 0) (minutesByte s.minute) k left) :=
  incHour_failed (setTime_failsAt hf _ _ _)

theorem incMinute_failsAt {s : State} {k : Fin 3} {left : Option Byte} (hf : s.FailsAt k left) :
    incMinute s = .raised .transportError (s.writeFailure (secondsByte 0) (minutesByte ((s.minute + 1) % 60 : Nat)) k left) :=
  incMinute_failed (setTime_failsAt hf _ _ _)

end Sys2Proof.Machine
end

