-- ==== Sys2Proof/Laws/Kept.lean ====
section
/-! SUPPORT. What every command keeps: one relation between the state before and the state after, shown once for each
shared operation and composed for each command. -/

namespace Sys2Proof.Machine

/-- What no command breaks, whatever it does and however it ends. -/
structure Kept (s t : State) : Prop where
  cfg : t.cfg = s.cfg
  cmd : t.cmd = s.cmd
  now : t.now = s.now
  pinH : t.pinH = s.pinH
  pinM : t.pinM = s.pinM
  host : t.host = s.host
  resets : t.resets = s.resets
  trace : ∃ es, t.trace = s.trace ++ es ∧ ∀ e ∈ es, e.WritesTamely
  running : s.running = true → t.running = true
  terr : s.terr = true → t.terr = true
  lines : s.le = Vector.replicate 4 false → t.le = Vector.replicate 4 false
  hourButton : s.btnH.Scheduled s.cfg → t.btnH.Scheduled s.cfg
  minuteButton : s.btnM.Scheduled s.cfg → t.btnM.Scheduled s.cfg
  chipCanonical : Memory.wf s.rtc = true → Memory.wf t.rtc = true
  chipRegisters : (∀ c ∈ s.rtc, c.1 < 3) → ∀ c ∈ t.rtc, c.1 < 3
  mirror : s.hour ≤ 45 ∧ s.minute ≤ 165 → t.hour ≤ 45 ∧ t.minute ≤ 165

/-- A state that differs only in fields that `Kept` says nothing of. -/
theorem Kept.same {s t : State} (h : t = { s with
    dv := t.dv, lastRecon := t.lastRecon, res := t.res, err := t.err, disp := t.disp, turns := t.turns, draws := t.draws }) :
    Kept s t := by
  rw [h]
  exact ⟨rfl, rfl, rfl, rfl, rfl, rfl, rfl, ⟨[], by simp⟩, id, id, id, id, id, id, id, id⟩

theorem Kept.refl (s : State) : Kept s s := .same rfl

theorem Kept.trans {s t u : State} (h : Kept s t) (k : Kept t u) : Kept s u where
  cfg := k.cfg.trans h.cfg
  cmd := k.cmd.trans h.cmd
  now := k.now.trans h.now
  pinH := k.pinH.trans h.pinH
  pinM := k.pinM.trans h.pinM
  host := k.host.trans h.host
  resets := k.resets.trans h.resets
  trace := by
    obtain ⟨es, hes, hw⟩ := h.trace
    obtain ⟨fs, hfs, hv⟩ := k.trace
    refine ⟨es ++ fs, by rw [hfs, hes, List.append_assoc], fun e he => ?_⟩
    rcases List.mem_append.mp he with he | he
    · exact hw e he
    · exact hv e he
  running := fun x => k.running (h.running x)
  terr := fun x => k.terr (h.terr x)
  lines := fun x => k.lines (h.lines x)
  hourButton := fun x => h.cfg ▸ k.hourButton (h.cfg.symm ▸ h.hourButton x)
  minuteButton := fun x => h.cfg ▸ k.minuteButton (h.cfg.symm ▸ h.minuteButton x)
  chipCanonical := fun x => k.chipCanonical (h.chipCanonical x)
  chipRegisters := fun x => k.chipRegisters (h.chipRegisters x)
  mirror := fun x => k.mirror (h.mirror x)

/-! ## The bytes the block writes (R107) -/

/-- A digit write makes no transaction (R90). -/
theorem digitEvents_noTransaction (cfg : Cfg) (d : Nibble) (i : Fin 4) : ∀ e ∈ digitEvents cfg d i, e.isTransaction = false := by
  intro e he
  simp only [digitEvents, settleEvents, pulseEvents, List.mem_cons, List.mem_append, List.not_mem_nil, or_false] at he
  rcases he with rfl | he | rfl | rfl | rfl
  · rfl
  · split at he
    · rw [List.mem_singleton.mp he]; rfl
    · cases he
  all_goals rfl

/-- A number makes no transaction (R91). -/
theorem numberEvents_noTransaction (cfg : Cfg) (x : Nat) : ∀ e ∈ numberEvents cfg x, e.isTransaction = false := by
  intro e he
  simp only [numberEvents, List.mem_append] at he
  rcases he with ((he | he) | he) | he <;> exact digitEvents_noTransaction _ _ _ e he

/-- An event that is no transaction writes nothing. -/
theorem tame_of_noTransaction {e : Event} (h : e.isTransaction = false) : e.WritesTamely := by
  cases e <;> trivial

theorem numberEvents_tame (cfg : Cfg) (x : Nat) : ∀ e ∈ numberEvents cfg x, e.WritesTamely :=
  fun e he => tame_of_noTransaction (numberEvents_noTransaction cfg x e he)

theorem wrapField_lt (x : Int) {n : Nat} (h : 0 < n) : wrapField x n < n := by
  unfold wrapField
  have := Int.emod_lt_of_pos x (show (0 : Int) < n by omega)
  have := Int.emod_nonneg x (show (n : Int) ≠ 0 by omega)
  omega

/-- No seconds or minutes byte has bit 7 set (R101). -/
theorem haltFlag_dec2bcd : ∀ d < 60, haltFlag (dec2bcd d) = false := by decide

/-- No hours byte has bit 6 or 7 set (R101). -/
theorem hours_dec2bcd : ∀ d < 24, twelveHourFlag (dec2bcd d) = false ∧ (dec2bcd d).getLsbD 7 = false := by decide

theorem haltFlag_secondsByte (x : Int) : haltFlag (secondsByte x) = false := haltFlag_dec2bcd _ (wrapField_lt x (by decide))

theorem hoursByte_flags (x : Int) : twelveHourFlag (hoursByte x) = false ∧ (hoursByte x).getLsbD 7 = false :=
  hours_dec2bcd _ (wrapField_lt x (by decide))

theorem haltFlag_withoutHalt (r : Byte) : haltFlag (withoutHalt r) = false := by
  simp [haltFlag, withoutHalt]

/-- The three bytes of `setTime` are tame (R107). -/
theorem secondsByte_tame (x : Int) : (Event.regWrite 0 (secondsByte x)).WritesTamely :=
  ⟨fun _ => haltFlag_secondsByte x, fun h => absurd h (by decide)⟩

theorem minutesByte_tame (x : Int) : (Event.regWrite 1 (minutesByte x)).WritesTamely :=
  ⟨fun h => absurd h (by decide), fun h => absurd h (by decide)⟩

theorem hoursByte_tame (x : Int) : (Event.regWrite 2 (hoursByte x)).WritesTamely :=
  ⟨fun h => absurd h (by decide), fun _ => hoursByte_flags x⟩

theorem withoutHalt_tame (r : Byte) : (Event.regWrite 0 (withoutHalt r)).WritesTamely :=
  ⟨fun _ => haltFlag_withoutHalt r, fun h => absurd h (by decide)⟩

/-! ## The primitive updates -/

theorem Kept.emit {e : Event} (h : e.WritesTamely) (s : State) : Kept s (s.emit e) where
  cfg := rfl
  cmd := rfl
  now := rfl
  pinH := rfl
  pinM := rfl
  host := rfl
  resets := rfl
  trace := ⟨[e], rfl, by simpa using h⟩
  running := id
  terr := id
  lines := id
  hourButton := id
  minuteButton := id
  chipCanonical := id
  chipRegisters := id
  mirror := id

theorem Kept.putChip (a : Fin 3) (v : Byte) (s : State) : Kept s (s.putChip a v) where
  cfg := rfl
  cmd := rfl
  now := rfl
  pinH := rfl
  pinM := rfl
  host := rfl
  resets := rfl
  trace := ⟨[], by simp⟩
  running := id
  terr := id
  lines := id
  hourButton := id
  minuteButton := id
  chipCanonical := Memory.write_wf _ _ _
  chipRegisters := fun h c hc => by
    rcases Memory.mem_write hc with rfl | hc
    · exact a.isLt
    · exact h c hc
  mirror := id

theorem Kept.envMove (s : State) : Kept s s.envMove where
  cfg := by simp
  cmd := by simp
  now := by simp
  pinH := by simp
  pinM := by simp
  host := by simp
  resets := by simp
  trace := ⟨[], by simp⟩
  running := by simp
  terr := by simp
  lines := by simp
  hourButton := by simp
  minuteButton := by simp
  chipCanonical := by
    unfold State.envMove
    split <;> exact applyChanges_wf _ _
  chipRegisters := by
    unfold State.envMove
    split <;> exact applyChanges_registers _ _
  mirror := by simp

theorem Kept.leave (a : Fin 3) (l : Option Byte) (s : State) : Kept s (s.leave a l) := by
  cases l with
  | none => exact .refl s
  | some v => exact .putChip a v s

/-- Rendering (R144). -/
theorem Kept.rendered (x : Nat) (s : State) : Kept s (s.rendered x) where
  cfg := rfl
  cmd := rfl
  now := rfl
  pinH := rfl
  pinM := rfl
  host := rfl
  resets := rfl
  trace := ⟨numberEvents s.cfg x, rfl, numberEvents_tame s.cfg x⟩
  running := id
  terr := id
  lines := fun _ => rfl
  hourButton := id
  minuteButton := id
  chipCanonical := id
  chipRegisters := id
  mirror := id

/-- A button's state moves within R42 (c). -/
theorem Kept.setButton (b : Button) {x : ButtonState} {s : State}
    (h : (s.button b).Scheduled s.cfg → x.Scheduled s.cfg) : Kept s (s.setButton b x) where
  cfg := by simp
  cmd := by simp
  now := by simp
  pinH := by simp
  pinM := by simp
  host := by simp
  resets := by simp
  trace := ⟨[], by simp⟩
  running := by simp
  terr := by simp
  lines := by simp
  hourButton := by cases b with
    | hour => exact h
    | minute => exact id
  minuteButton := by cases b with
    | hour => exact id
    | minute => exact h
  chipCanonical := by simp
  chipRegisters := by simp
  mirror := by simp

/-- The mirror is set to values in the range of R42 (d). -/
theorem Kept.setMirror {h m : Nat} {s : State} (hm : s.hour ≤ 45 ∧ s.minute ≤ 165 → h ≤ 45 ∧ m ≤ 165) :
    Kept s (s.setMirror h m) where
  cfg := rfl
  cmd := rfl
  now := rfl
  pinH := rfl
  pinM := rfl
  host := rfl
  resets := rfl
  trace := ⟨[], by simp⟩
  running := id
  terr := id
  lines := id
  hourButton := id
  minuteButton := id
  chipCanonical := id
  chipRegisters := id
  mirror := hm

theorem Kept.report (s : State) : Kept s (({ s with terr := true }).emit (.report .transportError)) where
  cfg := rfl
  cmd := rfl
  now := rfl
  pinH := rfl
  pinM := rfl
  host := rfl
  resets := rfl
  trace := ⟨[.report .transportError], rfl, by simp [Event.WritesTamely]⟩
  running := id
  terr := fun _ => rfl
  lines := id
  hourButton := id
  minuteButton := id
  chipCanonical := id
  chipRegisters := id
  mirror := id

theorem Kept.start (s : State) : Kept s { s with lastRecon := none, running := true } where
  cfg := rfl
  cmd := rfl
  now := rfl
  pinH := rfl
  pinM := rfl
  host := rfl
  resets := rfl
  trace := ⟨[], by simp⟩
  running := fun _ => rfl
  terr := id
  lines := id
  hourButton := id
  minuteButton := id
  chipCanonical := id
  chipRegisters := id
  mirror := id

/-! ## Ranges (R110) -/

/-- Twice a nibble, at most: 165 (R100, R110). -/
theorem bcd2dec_le (b : Byte) : bcd2dec b ≤ 165 := by
  have h1 := (b.extractLsb' 4 4).isLt
  have h2 := (b.extractLsb' 0 4).isLt
  unfold bcd2dec highNibble lowNibble
  omega

/-- The hour is at most 45 (R103, R110). -/
theorem decodeHours_le (b : Byte) : decodeHours b ≤ 45 := by
  have h1 := (b.extractLsb' 4 2).isLt
  have h2 := (b.extractLsb' 0 4).isLt
  unfold decodeHours hourField24 lowNibble
  split
  · split <;> omega
  · omega

/-! ## The operations -/

theorem Kept.regRead (a : Fin 3) (s : State) : Kept s (regRead a s).final := by
  unfold Machine.regRead
  cases s.turn.verdict <;> exact (Kept.envMove s).trans (.emit (by trivial) _)

theorem Kept.regWrite {a : Fin 3} {v : Byte} (h : (Event.regWrite a v).WritesTamely) (s : State) :
    Kept s (regWrite a v s).final := by
  unfold Machine.regWrite
  cases s.turn.verdict with
  | ok => exact ((Kept.envMove s).trans (.putChip a v _)).trans (.emit h _)
  | failed l => exact ((Kept.envMove s).trans (.leave a l _)).trans (.emit (by trivial) _)

theorem Kept.andThen {α β : Type} {s : State} {r : Attempt α} {f : α → State → Attempt β} (hr : Kept s r.final)
    (hf : ∀ a t, Kept t (f a t).final) : Kept s (r.andThen f).final :=
  Attempt.final_andThen (Kept s) hr fun a t ht => ht.trans (hf a t)

theorem Kept.getTime (s : State) : Kept s (getTime s).final :=
  .andThen (.regRead 0 s) fun _ t => .andThen (.regRead 1 t) fun _ u => .andThen (.regRead 2 u) fun _ v => .refl v

theorem Kept.setTime (h m sec : Int) (s : State) : Kept s (setTime h m sec s).final :=
  .andThen (.regWrite (secondsByte_tame sec) s) fun _ t =>
  .andThen (.regWrite (minutesByte_tame m) t) fun _ u => .regWrite (hoursByte_tame h) u

theorem Kept.rtcInit (s : State) : Kept s (rtcInit s).final :=
  .andThen (.regRead 0 s) fun r t => by
    split
    · exact .regWrite (withoutHalt_tame r) t
    · exact .refl t

theorem Kept.writeNumber (n : Int) (s : State) : Kept s (writeNumber n s) := by
  rw [writeNumber_rendered]
  exact .rendered _ s

theorem Kept.render (s : State) : Kept s (render s) := .writeNumber _ s

theorem Kept.process (b : Button) (now : Nat) (s : State) : Kept s (process b now s) := by
  have hs : Kept s (s.setButton b (nextButton s.cfg (s.asserted b) now (s.button b)).1) :=
    .setButton b (nextButton_scheduled _ _ _)
  unfold Machine.process emitFiring
  cases firing b now s with
  | none => exact hs
  | some f => cases f <;> exact hs.trans (.emit (by trivial) _)

theorem Kept.resetButton (b : Button) (s : State) : Kept s (resetButton b s) :=
  .setButton b fun _ h => nomatch h

theorem Kept.incHour (s : State) : Kept s (incHour s).final :=
  .andThen (.setTime _ _ _ s) fun _ t =>
    (Kept.setMirror (s := t) fun h => ⟨by omega, h.2⟩).trans (.render _)

theorem Kept.incMinute (s : State) : Kept s (incMinute s).final :=
  .andThen (.setTime _ _ _ s) fun _ t =>
    (Kept.setMirror (s := t) fun h => ⟨h.1, by omega⟩).trans (.render _)

theorem Kept.stampRecon (now : Nat) (s : State) : Kept s (stampRecon now s) := .same rfl

/-- What is adopted from a chip holding anything at all lies in the range of R42 (d). -/
theorem Kept.adopt (r0 r1 r2 : Byte) (s : State) : Kept s (adopt (decodeTime r0 r1 r2) s) := by
  unfold Machine.adopt
  split
  · exact .refl s
  · exact (Kept.setMirror (s := s) fun _ => ⟨decodeHours_le r2, bcd2dec_le r1⟩).trans (.render _)

/-- What `getTime` returns is the decoding of three bytes. -/
theorem getTime_decodes {s t : State} {x : Time} (h : Machine.getTime s = .done x t) :
    ∃ r0 r1 r2, x = decodeTime r0 r1 r2 := by
  obtain ⟨-, -, -, u, hu⟩ | ⟨-, u, hu⟩ := getTime_cases s
  · rw [hu] at h
    cases h
    exact ⟨_, _, _, rfl⟩
  · rw [hu] at h
    cases h

theorem Kept.reconcile (now : Nat) (s : State) : Kept s (reconcile now s).final := by
  have hg := (Kept.stampRecon now s).trans (Kept.getTime (Machine.stampRecon now s))
  unfold Machine.reconcile
  cases h : Machine.getTime (Machine.stampRecon now s) with
  | done x t =>
    obtain ⟨r0, r1, r2, rfl⟩ := getTime_decodes h
    rw [h] at hg
    exact hg.trans (.adopt r0 r1 r2 t)
  | raised e t =>
    rw [h] at hg
    exact hg

theorem Kept.startUp (s : State) : Kept s (startUp s).final :=
  .andThen (.rtcInit s) fun _ t => by
    have hb := (Kept.resetButton .hour t).trans (Kept.resetButton .minute _)
    have hg := hb.trans (Kept.getTime _)
    cases h : Machine.getTime (Machine.resetButton .minute (Machine.resetButton .hour t)) with
    | done x u =>
      obtain ⟨r0, r1, r2, rfl⟩ := getTime_decodes h
      rw [h] at hg
      exact ((hg.trans (.setMirror fun _ => ⟨decodeHours_le r2, bcd2dec_le r1⟩)).trans (.render _)).trans (.start _)
    | raised e u =>
      rw [h] at hg
      exact hg

theorem Kept.buttonStep (b : Button) {inc : State → Attempt Unit} (hinc : ∀ s, Kept s (inc s).final) (now : Nat)
    (s : State) : Kept s (buttonStep b inc now s).final := by
  unfold Machine.buttonStep
  cases firing b now s with
  | none => exact .process b now s
  | some f => exact (Kept.process b now s).trans (hinc _)

theorem Kept.reconStep (now : Nat) (s : State) : Kept s (reconStep now s).final := by
  unfold Machine.reconStep
  split
  · exact .reconcile now s
  · exact .refl s

theorem Kept.tickSteps (now : Nat) (s : State) : Kept s (tickSteps now s).final :=
  .andThen (.buttonStep .hour Kept.incHour now s) fun _ t =>
  .andThen (.buttonStep .minute Kept.incMinute now t) fun _ u => .reconStep now u

theorem Kept.catchTransport {s : State} {r : Attempt Unit} (h : Kept s r.final) : Kept s (catchTransport r).final := by
  cases r with
  | done a t => exact h
  | raised e t => cases e with
    | transportError => exact h.trans (.report t)
    | invalidArgument => exact h
    | illegalCommand => exact h

theorem Kept.pulse (i : Fin 4) (s : State) : Kept s (pulse i s) where
  cfg := rfl
  cmd := rfl
  now := rfl
  pinH := rfl
  pinM := rfl
  host := rfl
  resets := rfl
  trace := ⟨pulseEvents s.cfg i, by rw [pulse_eq], by simp [pulseEvents, Event.WritesTamely]⟩
  running := id
  terr := id
  lines := fun h => by
    rw [pulse_eq]
    show s.le.set i false = _
    rw [h]
    ext k hk
    simp
  hourButton := id
  minuteButton := id
  chipCanonical := id
  chipRegisters := id
  mirror := id

theorem Kept.writeNibble (v : Int) (s : State) : Kept s (writeNibble v s) :=
  (Kept.same rfl : Kept s { s with dv := nibbleOf v }).trans (.emit (by trivial) _)

theorem Kept.settle (s : State) : Kept s (settle s) := by
  unfold Machine.settle
  split
  · exact .emit (by trivial) s
  · exact .refl s

theorem Kept.latch (idx : Int) (s : State) : Kept s (latch idx s).final := by
  unfold Machine.latch
  cases lineOf idx with
  | none => exact .refl s
  | some i => exact .pulse i s

theorem Kept.writeDigit (v idx : Int) (s : State) : Kept s (writeDigit v idx s).final :=
  .andThen (((Kept.writeNibble v s).trans (.settle _)).trans (.latch idx _)) fun _ t => .refl t

/-! ## The ends of commands, and every command -/

theorem Kept.complete (r : Word) (s : State) : Kept s (complete r s) := .same rfl
theorem Kept.takeError (e : ErrorKind) (s : State) : Kept s (takeError e s) := .same rfl

theorem Kept.conclude {s : State} {r : Attempt Word} (h : Kept s r.final) : Kept s (conclude r) := by
  cases r with
  | done a t => exact h.trans (.complete a t)
  | raised e t => exact h.trans (.takeError e t)

theorem Kept.concludePlain {s : State} {r : Attempt Unit} (h : Kept s r.final) : Kept s (concludePlain r) :=
  .conclude (.andThen h fun _ t => .refl t)

theorem Kept.whileRunning {body : State → Attempt Unit} {s : State} (h : Kept s (body s).final) :
    Kept s (whileRunning body s).final := by
  unfold Machine.whileRunning
  split
  · exact h
  · exact .refl s

theorem Kept.whileStopped {body : State → Attempt Unit} {s : State} (h : Kept s (body s).final) :
    Kept s (whileStopped body s).final := by
  unfold Machine.whileStopped
  split
  · exact .refl s
  · exact h

/-- Every command answers a next state, and keeps what `Kept` says. -/
theorem exec_kept (i : Instr) (s : State) : ∃ t, exec i s = .next t ∧ Kept s t := by
  cases i with
  | wrnib v => exact ⟨_, rfl, (Kept.writeNibble v s).trans (.complete _ _)⟩
  | latch idx => exact ⟨_, rfl, .concludePlain (.latch idx s)⟩
  | wrdig v idx => exact ⟨_, rfl, .conclude (.andThen (.writeDigit v idx s) fun _ t => .refl t)⟩
  | wrnum n => exact ⟨_, rfl, (Kept.writeNumber n s).trans (.complete _ _)⟩
  | lastv => exact ⟨_, rfl, .complete _ s⟩
  | rtcinit => exact ⟨_, rfl, .concludePlain (.rtcInit s)⟩
  | dechr raw => exact ⟨_, rfl, .complete _ s⟩
  | gettime => exact ⟨_, rfl, .conclude (.andThen (.getTime s) fun _ t => .refl t)⟩
  | settime h m sec => exact ⟨_, rfl, .concludePlain (.setTime h m sec s)⟩
  | btnrst b => exact ⟨_, rfl, (Kept.resetButton b s).trans (.complete _ _)⟩
  | btnproc b => exact ⟨_, rfl, (Kept.process b s.now s).trans (.complete _ _)⟩
  | start => exact ⟨_, rfl, .concludePlain (.whileStopped (.startUp s))⟩
  | tick => exact ⟨_, rfl, .concludePlain (.whileRunning (.catchTransport (.tickSteps s.now s)))⟩
  | inch => exact ⟨_, rfl, .concludePlain (.whileRunning (.incHour s))⟩
  | incm => exact ⟨_, rfl, .concludePlain (.whileRunning (.incMinute s))⟩
  | recon => exact ⟨_, rfl, .concludePlain (.whileRunning (.reconcile s.now s))⟩

end Sys2Proof.Machine
end

