-- ==== Sys2Proof/Laws/Failures.lean ====
section
/-! SUPPORT. Failures in the trace: a piece of pseudocode that makes transactions raises exactly when one of them
failed, and then it raises a transport error (R49, R109). -/

namespace Sys2Proof.Machine

/-- What every transacting operation says of failures: its events report nothing, and one of them is a failure
exactly when it raises; `running` and `terr` stay. -/
def FailsByTransport {α : Type} (s : State) (r : Attempt α) : Prop :=
  ∃ es, r.final.trace = s.trace ++ es ∧ (∀ e, Event.report e ∉ es) ∧ r.final.running = s.running ∧ r.final.terr = s.terr ∧
    match r with
    | .done _ _ => ∀ e ∈ es, e.isFailure = false
    | .raised e _ => e = .transportError ∧ ∃ e ∈ es, e.isFailure = true

theorem FailsByTransport.andThen {α β : Type} {s : State} {r : Attempt α} {f : α → State → Attempt β}
    (h : FailsByTransport s r) (hf : ∀ a t, FailsByTransport t (f a t)) : FailsByTransport s (r.andThen f) := by
  cases r with
  | raised e t => exact h
  | done a t =>
    obtain ⟨es, h1, h2, h3, h4, h5⟩ := h
    obtain ⟨fs, g1, g2, g3, g4, g5⟩ := hf a t
    refine ⟨es ++ fs, ?_, ?_, g3.trans h3, g4.trans h4, ?_⟩
    · show (f a t).final.trace = _
      rw [g1, ← List.append_assoc, ← h1]
      rfl
    · intro e he
      rcases List.mem_append.mp he with he | he
      · exact h2 e he
      · exact g2 e he
    · show match f a t with | .done _ _ => _ | .raised _ _ => _
      cases hq : f a t with
      | done b u =>
        rw [hq] at g5
        intro e he
        rcases List.mem_append.mp he with he | he
        · exact h5 e he
        · exact g5 e he
      | raised k u =>
        rw [hq] at g5
        obtain ⟨rfl, e, he, hh⟩ := g5
        exact ⟨rfl, e, List.mem_append_right _ he, hh⟩

/-- A piece that makes no transaction fails nothing. -/
theorem FailsByTransport.silent {α : Type} {s t : State} {a : α} (es : List Event) (h : t.trace = s.trace ++ es)
    (hr : t.running = s.running) (ht : t.terr = s.terr)
    (hn : ∀ e ∈ es, e.isFailure = false ∧ ∀ k, e ≠ .report k) : FailsByTransport s (.done a t) :=
  ⟨es, h, fun k hk => (hn _ hk).2 k rfl, hr, ht, fun e he => (hn e he).1⟩

theorem FailsByTransport.refl {α : Type} (a : α) (s : State) : FailsByTransport s (.done a s) :=
  .silent [] (by simp) rfl rfl (by simp)

theorem FailsByTransport.regRead (a : Fin 3) (s : State) : FailsByTransport s (regRead a s) := by
  obtain h | ⟨l, h⟩ := Verdict.ok_or_failed s.turn.verdict
  · rw [regRead_ok h]
    exact .silent [.regRead a (s.envMove.chipByte a)] (by simp [State.emit]) (by simp) (by simp) (by simp [Event.isFailure])
  · rw [regRead_failed h]
    exact ⟨[.regFail .rd a], by simp [State.emit, Attempt.final], by simp, by simp [Attempt.final], by simp [Attempt.final], rfl,
      by simp [Event.isFailure]⟩

theorem FailsByTransport.regWrite (a : Fin 3) (v : Byte) (s : State) : FailsByTransport s (regWrite a v s) := by
  obtain h | ⟨l, h⟩ := Verdict.ok_or_failed s.turn.verdict
  · rw [regWrite_ok h]
    exact .silent [.regWrite a v] (by simp [State.emit]) (by simp [State.wrote]) (by simp [State.wrote]) (by simp [Event.isFailure])
  · rw [regWrite_failed h]
    refine ⟨[.regFail .wr a], ?_, by simp, ?_, ?_, rfl, by simp [Event.isFailure]⟩ <;>
      cases l <;> simp [State.emit, Attempt.final, State.leave]

theorem FailsByTransport.getTime (s : State) : FailsByTransport s (getTime s) :=
  (FailsByTransport.regRead 0 s).andThen fun _ t => (FailsByTransport.regRead 1 t).andThen fun _ u =>
  (FailsByTransport.regRead 2 u).andThen fun _ v => .refl _ v

theorem FailsByTransport.setTime (h m sec : Int) (s : State) : FailsByTransport s (setTime h m sec s) :=
  (FailsByTransport.regWrite 0 _ s).andThen fun _ t => (FailsByTransport.regWrite 1 _ t).andThen fun _ u => .regWrite 2 _ u

theorem FailsByTransport.rtcInit (s : State) : FailsByTransport s (rtcInit s) :=
  (FailsByTransport.regRead 0 s).andThen fun _ t => by
    split
    · exact .regWrite _ _ _
    · exact .refl _ _

/-- A number neither fails nor reports. -/
theorem numberEvents_silent (cfg : Cfg) (x : Nat) : ∀ e ∈ numberEvents cfg x, e.isFailure = false ∧ ∀ k, e ≠ .report k := by
  intro e he
  have h1 := numberEvents_noTransaction cfg x e he
  constructor
  · cases e <;> first | rfl | cases h1
  · intro k hk
    subst hk
    simp [numberEvents, digitEvents, settleEvents, pulseEvents] at he

theorem FailsByTransport.rendered {s t : State} (x : Nat) (h : t.trace = s.trace) (hr : t.running = s.running)
    (ht : t.terr = s.terr) : FailsByTransport s (.done () (t.rendered x)) :=
  .silent (numberEvents t.cfg x) (by rw [← h]; rfl) hr ht (numberEvents_silent _ _)

theorem FailsByTransport.incHour (s : State) : FailsByTransport s (incHour s) :=
  (FailsByTransport.setTime _ _ _ s).andThen fun _ t => by
    rw [render_rendered]
    exact .rendered _ rfl rfl rfl

theorem FailsByTransport.incMinute (s : State) : FailsByTransport s (incMinute s) :=
  (FailsByTransport.setTime _ _ _ s).andThen fun _ t => by
    rw [render_rendered]
    exact .rendered _ rfl rfl rfl

theorem FailsByTransport.reconcile (now : Nat) (s : State) : FailsByTransport s (reconcile now s) := by
  have h : FailsByTransport s (Machine.getTime (stampRecon now s)) := .getTime (stampRecon now s)
  refine h.andThen fun x t => ?_
  unfold adopt
  split
  · exact .refl _ _
  · rw [render_rendered]
    exact .rendered _ rfl rfl rfl

theorem FailsByTransport.process (b : Button) (now : Nat) (s : State) : FailsByTransport s (.done () (process b now s)) := by
  rw [process_eq]
  refine .silent (firingEvents b (firing b now s)) rfl (by cases b <;> rfl) (by cases b <;> rfl) ?_
  cases firing b now s with
  | none => simp [firingEvents]
  | some f => cases f <;> simp [firingEvents, firingEvent, Event.isFailure]

theorem FailsByTransport.buttonStep (b : Button) (now : Nat) (s : State) {inc : State → Attempt Unit}
    (hinc : ∀ s, FailsByTransport s (inc s)) : FailsByTransport s (buttonStep b inc now s) := by
  unfold Machine.buttonStep
  split
  · exact .process b now s
  · exact (FailsByTransport.process b now s).andThen (f := fun _ t => inc t) fun _ t => hinc t

/-- The whole body of a tick. -/
theorem FailsByTransport.tickSteps (now : Nat) (s : State) : FailsByTransport s (tickSteps now s) :=
  (FailsByTransport.buttonStep _ now s FailsByTransport.incHour).andThen fun _ t =>
  (FailsByTransport.buttonStep _ now t FailsByTransport.incMinute).andThen fun _ u => by
    unfold reconStep
    split
    · exact .reconcile _ _
    · exact .refl _ _

end Sys2Proof.Machine
end

