-- ==== Sys2Proof/Laws/Mirror.lean ====
section
/-! SUPPORT. The display follows the mirror (R42 e): every operation of the controller keeps it, however it ends. -/

namespace Sys2Proof.Machine

theorem State.ShowsMirror.congr {s t : State} (h : t.disp = s.disp) (h1 : t.hour = s.hour) (h2 : t.minute = s.minute)
    (hs : s.ShowsMirror) : t.ShowsMirror := by
  unfold State.ShowsMirror State.Shows at *
  rw [h, h1, h2]
  exact hs

theorem State.ShowsMirror.transport {s t : State} (h : OnlyTransport s t) (hs : s.ShowsMirror) : t.ShowsMirror := by
  refine .congr ?_ ?_ ?_ hs <;> (unfold OnlyTransport at h; rw [h])

theorem State.ShowsMirror.andThen {α β : Type} {r : Attempt α} {f : α → State → Attempt β} (h : r.final.ShowsMirror)
    (hf : ∀ a t, t.ShowsMirror → (f a t).final.ShowsMirror) : (r.andThen f).final.ShowsMirror := by
  cases r with
  | done a t => exact hf a t h
  | raised e t => exact h

theorem incHour_showsMirror {s : State} (hs : s.ShowsMirror) : (incHour s).final.ShowsMirror :=
  .andThen (.transport (setTime_only _ _ _ s) hs) fun _ _ _ => render_showsMirror _

theorem incMinute_showsMirror {s : State} (hs : s.ShowsMirror) : (incMinute s).final.ShowsMirror :=
  .andThen (.transport (setTime_only _ _ _ s) hs) fun _ _ _ => render_showsMirror _

theorem reconcile_showsMirror {s : State} {now : Nat} (hs : s.ShowsMirror) : (reconcile now s).final.ShowsMirror :=
  .andThen (.transport (getTime_only (stampRecon now s)) hs) fun x t ht => by
    show (adopt x t).ShowsMirror
    unfold adopt
    split
    · exact ht
    · exact render_showsMirror _

theorem process_showsMirror {s : State} {b : Button} {now : Nat} (hs : s.ShowsMirror) : (process b now s).ShowsMirror := by
  rw [process_eq]
  refine .congr ?_ ?_ ?_ hs <;> cases b <;> rfl

theorem buttonStep_showsMirror {s : State} {b : Button} {now : Nat} {inc : State → Attempt Unit}
    (hinc : ∀ t : State, t.ShowsMirror → (inc t).final.ShowsMirror) (hs : s.ShowsMirror) :
    (buttonStep b inc now s).final.ShowsMirror := by
  unfold buttonStep
  split
  · exact process_showsMirror hs
  · exact hinc _ (process_showsMirror hs)

/-- A whole tick. -/
theorem tickSteps_showsMirror {s : State} {now : Nat} (hs : s.ShowsMirror) : (tickSteps now s).final.ShowsMirror :=
  .andThen (buttonStep_showsMirror (fun _ => incHour_showsMirror) hs) fun _ _ ht =>
  .andThen (buttonStep_showsMirror (fun _ => incMinute_showsMirror) ht) fun _ u hu => by
    unfold reconStep
    split
    · exact reconcile_showsMirror hu
    · exact hu

end Sys2Proof.Machine
end

