-- ==== Sys2Proof/Laws/PerInstr.lean ====
section
/-! SUPPORT. The families of statements over all commands, one lemma per constructor: the encoding round trip, after
the fields of the words that the encoder builds. -/

namespace Sys2Proof.Laws

/-! ## Operands survive their fields -/

theorem ofInt_byte {x : Int} (h : fitsByte x = true) : Int.ofNat (BitVec.ofInt 8 x).toNat = x := by
  simp only [fitsByte, Bool.and_eq_true, decide_eq_true_eq] at h
  simp only [BitVec.toNat_ofInt, Int.ofNat_eq_natCast]
  omega

theorem ofInt_signed {x : Int} (h : fitsSigned16 x = true) : (BitVec.ofInt 16 x).toInt = x := by
  simp only [fitsSigned16, Bool.and_eq_true, decide_eq_true_eq] at h
  rw [BitVec.toInt_ofInt]
  simp only [Int.bmod]
  omega

/-! ## Format V (R67) -/

theorem wordV_opcode (op v : Byte) : opcodeOf (wordV op v) = op := BitVec.extractLsb'_append_eq_left
theorem wordV_field (op v : Byte) : (wordV op v).extractLsb' 0 8 = v :=
  (BitVec.extractLsb'_append_eq_of_add_le (by decide)).trans BitVec.extractLsb'_append_eq_right
theorem wordV_reserved (op v : Byte) : reservedV (wordV op v) = true := by
  have h : (wordV op v).extractLsb' 8 16 = 0#16 :=
    (BitVec.extractLsb'_append_eq_of_add_le (by decide)).trans BitVec.extractLsb'_append_eq_left
  simp [reservedV, h]

/-! ## Format DV (R68) -/

theorem wordDV_opcode (op idx v : Byte) : opcodeOf (wordDV op idx v) = op := BitVec.extractLsb'_append_eq_left
theorem wordDV_value (op idx v : Byte) : (wordDV op idx v).extractLsb' 0 8 = v :=
  (BitVec.extractLsb'_append_eq_of_add_le (by decide)).trans
    ((BitVec.extractLsb'_append_eq_of_add_le (by decide)).trans BitVec.extractLsb'_append_eq_right)
theorem wordDV_index (op idx v : Byte) : (wordDV op idx v).extractLsb' 8 8 = idx :=
  (BitVec.extractLsb'_append_eq_of_add_le (by decide)).trans
    ((BitVec.extractLsb'_append_eq_of_add_le (by decide)).trans BitVec.extractLsb'_append_eq_left)
theorem wordDV_reserved (op idx v : Byte) : reservedDW (wordDV op idx v) = true := by
  have h : (wordDV op idx v).extractLsb' 16 8 = 0#8 :=
    (BitVec.extractLsb'_append_eq_of_add_le (by decide)).trans BitVec.extractLsb'_append_eq_left
  simp [reservedDW, h]

/-! ## Format W (R69) -/

theorem wordW_opcode (op : Byte) (n : BitVec 16) : opcodeOf (wordW op n) = op := BitVec.extractLsb'_append_eq_left
theorem wordW_field (op : Byte) (n : BitVec 16) : (wordW op n).extractLsb' 0 16 = n :=
  (BitVec.extractLsb'_append_eq_of_add_le (by decide)).trans BitVec.extractLsb'_append_eq_right
theorem wordW_reserved (op : Byte) (n : BitVec 16) : reservedDW (wordW op n) = true := by
  have h : (wordW op n).extractLsb' 16 8 = 0#8 :=
    (BitVec.extractLsb'_append_eq_of_add_le (by decide)).trans BitVec.extractLsb'_append_eq_left
  simp [reservedDW, h]

/-! ## Format T (R70) -/

theorem wordT_opcode (op h m s : Byte) : opcodeOf (wordT op h m s) = op := BitVec.extractLsb'_append_eq_left
theorem wordT_second (op h m s : Byte) : (wordT op h m s).extractLsb' 0 8 = s :=
  (BitVec.extractLsb'_append_eq_of_add_le (by decide)).trans
    ((BitVec.extractLsb'_append_eq_of_add_le (by decide)).trans BitVec.extractLsb'_append_eq_right)
theorem wordT_minute (op h m s : Byte) : (wordT op h m s).extractLsb' 8 8 = m :=
  (BitVec.extractLsb'_append_eq_of_add_le (by decide)).trans
    ((BitVec.extractLsb'_append_eq_of_add_le (by decide)).trans BitVec.extractLsb'_append_eq_left)
theorem wordT_hour (op h m s : Byte) : (wordT op h m s).extractLsb' 16 8 = h :=
  (BitVec.extractLsb'_append_eq_of_add_le (by decide)).trans BitVec.extractLsb'_append_eq_left

/-! ## The round trip -/

/-- Decoding an encoded well-formed command gives it back. -/
def RoundTrip.Statement (i : Instr) : Prop := i.WellFormed → decode (encode i) = .ok i

theorem RoundTrip.wrnib (v : Int) : RoundTrip.Statement (.wrnib v) := fun h => by
  simp only [encode, decode, wordV_opcode, wordV_reserved, wordV_field, listed, byteField, ofInt_byte h, if_true]

theorem RoundTrip.latch (idx : Int) : RoundTrip.Statement (.latch idx) := fun h => by
  simp only [encode, decode, wordV_opcode, wordV_reserved, wordV_field, listed, byteField, ofInt_byte h, if_true]

theorem RoundTrip.wrdig (v idx : Int) : RoundTrip.Statement (.wrdig v idx) := fun h => by
  simp only [Instr.WellFormed, Instr.wellFormed, Bool.and_eq_true] at h
  simp only [encode, decode, wordDV_opcode, wordDV_reserved, wordDV_value, wordDV_index, listed, byteField,
    ofInt_byte h.1, ofInt_byte h.2, if_true]

theorem RoundTrip.wrnum (n : Int) : RoundTrip.Statement (.wrnum n) := fun h => by
  simp only [encode, decode, wordW_opcode, wordW_reserved, wordW_field, listed, signedField, ofInt_signed h, if_true]

theorem RoundTrip.lastv : RoundTrip.Statement .lastv := fun _ => by decide
theorem RoundTrip.rtcinit : RoundTrip.Statement .rtcinit := fun _ => by decide

theorem RoundTrip.dechr (raw : Byte) : RoundTrip.Statement (.dechr raw) := fun _ => by
  simp [encode, decode, wordV_opcode, wordV_reserved, wordV_field, listed]

theorem RoundTrip.gettime : RoundTrip.Statement .gettime := fun _ => by decide

theorem RoundTrip.settime (h m s : Int) : RoundTrip.Statement (.settime h m s) := fun hw => by
  simp only [Instr.WellFormed, Instr.wellFormed, Bool.and_eq_true] at hw
  simp only [encode, decode, wordT_opcode, wordT_hour, wordT_minute, wordT_second, listed, byteField,
    ofInt_byte hw.1.1, ofInt_byte hw.1.2, ofInt_byte hw.2, if_true]

theorem RoundTrip.btnrst (b : Button) : RoundTrip.Statement (.btnrst b) := fun _ => by cases b <;> decide
theorem RoundTrip.btnproc (b : Button) : RoundTrip.Statement (.btnproc b) := fun _ => by cases b <;> decide
theorem RoundTrip.start : RoundTrip.Statement .start := fun _ => by decide
theorem RoundTrip.tick : RoundTrip.Statement .tick := fun _ => by decide
theorem RoundTrip.inch : RoundTrip.Statement .inch := fun _ => by decide
theorem RoundTrip.incm : RoundTrip.Statement .incm := fun _ => by decide
theorem RoundTrip.recon : RoundTrip.Statement .recon := fun _ => by decide

end Sys2Proof.Laws
end

