-- ==== Sys2Proof/Laws/Quiet.lean ====
section
/-! SUPPORT. The quiescent chip (R53): what reads and writes do when nothing else changes a register and nothing
fails. -/

namespace Sys2Proof.Machine

theorem State.Quiescent.congr {s t : State} {n : Nat} (h : t.turns = s.turns) (hq : s.Quiescent n) : t.Quiescent n := by
  unfold State.Quiescent at *
  rw [h]
  exact hq

theorem State.Quiescent.script {s : State} {n : Nat} (h : s.Quiescent (n + 1)) :
    ∃ rest, s.turns = Turn.quiet :: rest ∧ rest.take n = List.replicate n Turn.quiet := by
  unfold State.Quiescent at h
  cases hs : s.turns with
  | nil => simp [hs, List.replicate] at h
  | cons t rest =>
    simp only [hs, List.take_succ_cons, List.replicate_succ, List.cons.injEq] at h
    exact ⟨rest, by rw [h.1], h.2⟩

/-- One quiet transaction: it succeeds, and the environment does nothing but use up its move. -/
theorem State.Quiescent.move {s : State} {n : Nat} (h : s.Quiescent (n + 1)) :
    s.turn.verdict = .ok ∧ s.envMove = { s with turns := s.turns.drop 1 } ∧ s.envMove.Quiescent n := by
  obtain ⟨rest, h1, h2⟩ := h.script
  have he := State.envMove_quiet h1
  refine ⟨State.turn_quiet h1, by rw [he, h1]; rfl, ?_⟩
  rw [he]
  exact h2

/-- The `k`-th of `n` quiet transactions. -/
theorem State.Quiescent.moves {s : State} {n k : Nat} (h : s.Quiescent n) (hk : k < n) :
    s.Succeeds k ∧ s.moves k = { s with turns := s.turns.drop k } ∧ (s.moves k).Quiescent (n - k) := by
  induction k with
  | zero =>
    obtain ⟨m, rfl⟩ : ∃ m, n = m + 1 := ⟨n - 1, by omega⟩
    exact ⟨h.move.1, by simp, h⟩
  | succ k ih =>
    obtain ⟨-, h2, h3⟩ := ih (by omega)
    rw [show n - k = (n - (k + 1)) + 1 by omega] at h3
    obtain ⟨-, b, c⟩ := h3.move
    rw [show n - (k + 1) = (n - (k + 2)) + 1 by omega] at c
    refine ⟨c.move.1, ?_, ?_⟩
    · rw [State.moves_succ, b, h2]
      simp
    · rw [State.moves_succ, show n - (k + 1) = (n - (k + 2)) + 1 by omega]
      exact c

/-- `setTime` on a quiescent chip (R106, R107): the three registers hold the three bytes, in 24-hour mode. -/
theorem setTime_quiet {s : State} {n : Nat} (hq : s.Quiescent (n + 3)) (h m sec : Int) :
    ∃ t, setTime h m sec s = .done () t ∧
      t = { s with
        turns := s.turns.drop 3
        rtc := t.rtc
        trace := s.trace ++ [.regWrite 0 (secondsByte sec), .regWrite 1 (minutesByte m), .regWrite 2 (hoursByte h)] } ∧
      t.chipByte 0 = secondsByte sec ∧ t.chipByte 1 = minutesByte m ∧ t.chipByte 2 = hoursByte h ∧ t.Quiescent n := by
  have h0 := (hq.moves (k := 0) (by omega)).1
  have h1 := (hq.moves (k := 1) (by omega)).1
  have h2 := (hq.moves (k := 2) (by omega)).1
  obtain ⟨-, e1, q1⟩ := hq.move
  have w1 : s.wrote 0 (secondsByte sec) = ({ s with turns := s.turns.drop 1 } : State).putChip 0 (secondsByte sec) := by
    simp only [State.wrote, e1]
  have Q1 : (s.wrote 0 (secondsByte sec)).Quiescent (n + 2) := q1
  obtain ⟨-, e2, q2⟩ := Q1.move
  have w2 : (s.wrote 0 (secondsByte sec)).wrote 1 (minutesByte m) =
      (({ s with turns := s.turns.drop 2 } : State).putChip 0 (secondsByte sec)).putChip 1 (minutesByte m) := by
    rw [State.wrote, e2, w1]
    simp [State.putChip]
  have Q2 : ((s.wrote 0 (secondsByte sec)).wrote 1 (minutesByte m)).Quiescent (n + 1) := q2
  obtain ⟨-, e3, q3⟩ := Q2.move
  have w3 : ((s.wrote 0 (secondsByte sec)).wrote 1 (minutesByte m)).wrote 2 (hoursByte h) =
      ((({ s with turns := s.turns.drop 3 } : State).putChip 0 (secondsByte sec)).putChip 1 (minutesByte m)).putChip 2
        (hoursByte h) := by
    rw [State.wrote, e3, w2]
    simp [State.putChip]
  refine ⟨_, setTime_ok h0 h1 h2 h m sec, ?_, ?_, ?_, ?_, ?_⟩
  · rw [w3]
    rfl
  · rw [w3]
    show State.chipByte (State.putChip _ _ (State.putChip _ _ (State.putChip _ _ _))) 0 = _
    rw [State.chipByte_putChip_other (by decide), State.chipByte_putChip_other (by decide), State.chipByte_putChip_same]
  · rw [w3]
    show State.chipByte (State.putChip _ _ (State.putChip _ _ (State.putChip _ _ _))) 1 = _
    rw [State.chipByte_putChip_other (by decide), State.chipByte_putChip_same]
  · rw [w3]
    show State.chipByte (State.putChip _ _ (State.putChip _ _ (State.putChip _ _ _))) 2 = _
    rw [State.chipByte_putChip_same]
  · exact q3

/-- `getTime` on a quiescent chip (R104): the time of the three registers as they stand. -/
theorem getTime_quiet {s : State} {n : Nat} (hq : s.Quiescent (n + 3)) :
    getTime s = .done (decodeTime (s.chipByte 0) (s.chipByte 1) (s.chipByte 2)) { s with
      turns := s.turns.drop 3
      trace := s.trace ++ [.regRead 0 (s.chipByte 0), .regRead 1 (s.chipByte 1), .regRead 2 (s.chipByte 2)] } := by
  have h0 := (hq.moves (k := 0) (by omega)).1
  have h1 := hq.moves (k := 1) (by omega)
  have h2 := hq.moves (k := 2) (by omega)
  have e3 : s.moves 3 = { s with turns := s.turns.drop 3 } := by
    have hh := h2.2.2
    rw [show n + 3 - 2 = n + 1 by omega] at hh
    rw [State.moves_succ, hh.move.2.1, h2.2.1]
    simp
  have r0 : s.readAt 0 0 = s.chipByte 0 := by
    show (s.moves 1).chipByte 0 = _
    rw [h1.2.1]
    rfl
  have r1 : s.readAt 1 1 = s.chipByte 1 := by
    show (s.moves 2).chipByte 1 = _
    rw [h2.2.1]
    rfl
  have r2 : s.readAt 2 2 = s.chipByte 2 := by
    show (s.moves 3).chipByte 2 = _
    rw [e3]
    rfl
  rw [getTime_ok h0 h1.1 h2.1, r0, r1, r2, e3]

end Sys2Proof.Machine
end

