-- ==== Sys2Proof/Laws/Registers.lean ====
section
/-! SUPPORT. Where the environment changes no register by itself, a register holds what was last written to it (R48,
R60 b): one relation, shown for each operation and composed. -/

namespace Sys2Proof.Machine

/-- A piece that takes at most `k` of the environment's moves, and after which every register holds what its events
say. -/
def FollowsWrites {α : Type} (k : Nat) (s : State) (r : Attempt α) : Prop :=
  ∀ n a, s.Untouched (n + k) → r.final.Untouched n ∧ ∃ es, r.final.trace = s.trace ++ es ∧
    ∀ h v, (∀ w, h = some w → s.chipByte a = w) → heldAfter a h es = some v → r.final.chipByte a = v

theorem heldAfter_append (a : Fin 3) (h : Option Byte) (es fs : List Event) :
    heldAfter a h (es ++ fs) = heldAfter a (heldAfter a h es) fs := by
  simp [heldAfter, List.foldl_append]

theorem FollowsWrites.andThen {α β : Type} {k m : Nat} {s : State} {r : Attempt α} {f : α → State → Attempt β}
    (h : FollowsWrites k s r) (hf : ∀ a t, FollowsWrites m t (f a t)) : FollowsWrites (k + m) s (r.andThen f) := by
  intro n a hu
  obtain ⟨h1, es, h2, h3⟩ := h (n+m) a (by rwa [show n + m + k = n + (k + m) by omega])
  cases r with
  | done x t =>
    obtain ⟨g1, fs, g2, g3⟩ := hf x t n a h1
    refine ⟨g1, es ++ fs, ?_, ?_⟩
    · show (f x t).final.trace = _
      rw [g2, ← List.append_assoc, ← h2]
      rfl
    · intro h v hw hv
      rw [heldAfter_append] at hv
      exact g3 _ v (fun w hw' => h3 h w hw hw') hv
  | raised e t =>
    have hlen : n + m ≤ t.turns.length := h1.1
    exact ⟨⟨by show n ≤ t.turns.length; omega, h1.2⟩, es, h2, h3⟩

/-- One untouched move of the environment changes no register. -/
theorem State.Untouched.move {s : State} {n : Nat} (h : s.Untouched (n + 1)) :
    s.envMove.rtc = s.rtc ∧ s.envMove.Untouched n := by
  obtain ⟨h1, h2⟩ := h
  unfold State.envMove State.Untouched
  cases ht : s.turns with
  | nil => rw [ht] at h1; simp at h1
  | cons x xs =>
    rw [ht] at h1 h2
    refine ⟨by simp [h2 x (by simp), applyChanges], by simpa using h1, fun y hy => h2 y (by simp [hy])⟩

theorem State.chipByte_congr {s t : State} (h : t.rtc = s.rtc) (a : Fin 3) : t.chipByte a = s.chipByte a := by
  unfold State.chipByte
  rw [h]

/-- Events that write nothing to `a` leave it. -/
theorem heldAfter_none (a : Fin 3) : ∀ (es : List Event) (h : Option Byte),
    (∀ e ∈ es, e.isWriteTo a = false) → heldAfter a h es = h := by
  intro es
  induction es with
  | nil => intros; rfl
  | cons e es ih =>
    intro h hn
    have := hn e (by simp)
    show heldAfter a (if e.isWriteTo a then e.byteWritten else h) es = h
    rw [this]
    exact ih h fun e he => hn e (by simp [he])

/-- A piece that makes no transaction. -/
theorem FollowsWrites.silent {α : Type} {x : α} {s t : State} (es : List Event) (h : t.trace = s.trace ++ es)
    (hr : t.rtc = s.rtc) (ht : t.turns = s.turns) (hn : ∀ e ∈ es, ∀ a, e.isWriteTo a = false) (k : Nat) :
    FollowsWrites k s (.done x t) := by
  intro n a hu
  have hlen := hu.1
  refine ⟨⟨by show n ≤ t.turns.length; rw [ht]; omega, by show ∀ x ∈ t.turns, _; rw [ht]; exact hu.2⟩, es, h, ?_⟩
  intro h v hw hv
  rw [heldAfter_none a es h fun e he => hn e he a] at hv
  exact (State.chipByte_congr hr a).trans (hw v hv)

theorem FollowsWrites.refl {α : Type} (x : α) (s : State) (k : Nat) : FollowsWrites k s (.done x s) :=
  .silent [] (by simp) rfl rfl (by simp) k

theorem FollowsWrites.read (a : Fin 3) (s : State) : FollowsWrites 1 s (regRead a s) := by
  intro n b hu
  obtain ⟨m1, m2⟩ := State.Untouched.move hu
  obtain h | ⟨l, h⟩ := Verdict.ok_or_failed s.turn.verdict
  · rw [regRead_ok h]
    refine ⟨m2, [_], by simp [State.emit, Attempt.final]; rfl, ?_⟩
    intro h v hw hv
    exact (State.chipByte_congr (t := s.envMove) m1 b).trans (hw v hv)
  · rw [regRead_failed h]
    refine ⟨m2, [_], by simp [State.emit, Attempt.final]; rfl, ?_⟩
    intro h v hw hv
    exact (State.chipByte_congr (t := s.envMove) m1 b).trans (hw v hv)

theorem FollowsWrites.write (a : Fin 3) (x : Byte) (s : State) : FollowsWrites 1 s (regWrite a x s) := by
  intro n b hu
  obtain ⟨m1, m2⟩ := State.Untouched.move hu
  obtain h | ⟨l, h⟩ := Verdict.ok_or_failed s.turn.verdict
  · rw [regWrite_ok h]
    refine ⟨m2, [.regWrite a x], by simp [State.emit, Attempt.final], ?_⟩
    intro h v hw hv
    show (s.envMove.putChip a x).chipByte b = v
    by_cases hab : b = a
    · subst hab
      rw [State.chipByte_putChip_same]
      simpa [heldAfter, Event.isWriteTo, Event.byteWritten] using hv
    · rw [State.chipByte_putChip_other hab]
      have : heldAfter b h [.regWrite a x] = h := by simp [heldAfter, Event.isWriteTo, hab]
      rw [this] at hv
      exact (State.chipByte_congr m1 b).trans (hw v hv)
  · rw [regWrite_failed h]
    refine ⟨by cases l <;> exact m2, [.regFail .wr a],
      by cases l <;> simp [State.emit, Attempt.final, State.leave], ?_⟩
    intro h v hw hv
    by_cases hab : b = a
    · subst hab; simp [heldAfter, Event.isWriteTo, Event.byteWritten] at hv
    · have : heldAfter b h [.regFail .wr a] = h := by simp [heldAfter, Event.isWriteTo, hab]
      rw [this] at hv
      have e : (s.envMove.leave a l).chipByte b = s.envMove.chipByte b := by
        cases l with
        | none => rfl
        | some l => exact State.chipByte_putChip_other hab _ _
      exact e.trans ((State.chipByte_congr m1 b).trans (hw v hv))

theorem FollowsWrites.mono {α : Type} {k m : Nat} {s : State} {r : Attempt α} (h : FollowsWrites k s r) (hk : k ≤ m) :
    FollowsWrites m s r := by
  intro n a hu
  obtain ⟨h1, h2⟩ := h (n + (m - k)) a (by rwa [show n + (m - k) + k = n + m by omega])
  exact ⟨⟨by have := h1.1; omega, h1.2⟩, h2⟩

theorem FollowsWrites.getTime (s : State) : FollowsWrites 3 s (getTime s) :=
  (FollowsWrites.read 0 s).andThen (m := 2) fun _ t => (FollowsWrites.read 1 t).andThen (m := 1) fun _ u =>
  (FollowsWrites.read 2 u).andThen (m := 0) fun _ v => .refl _ v 0

theorem FollowsWrites.setTime (h m sec : Int) (s : State) : FollowsWrites 3 s (setTime h m sec s) :=
  (FollowsWrites.write 0 _ s).andThen (m := 2) fun _ t => (FollowsWrites.write 1 _ t).andThen (m := 1) fun _ u => .write 2 _ u

theorem FollowsWrites.rtcInit (s : State) : FollowsWrites 2 s (rtcInit s) :=
  (FollowsWrites.read 0 s).andThen (m := 1) fun _ t => by
    split
    · exact .write _ _ _
    · exact .refl _ _ _

theorem numberEvents_noWrite (cfg : Cfg) (x : Nat) : ∀ e ∈ numberEvents cfg x, ∀ a, e.isWriteTo a = false := by
  intro e he a
  have h1 := numberEvents_noTransaction cfg x e he
  cases e <;> first | rfl | cases h1

theorem FollowsWrites.rendered {s t : State} (x : Nat) (h : t.trace = s.trace) (hr : t.rtc = s.rtc)
    (ht : t.turns = s.turns) : FollowsWrites 0 s (.done () (t.rendered x)) :=
  FollowsWrites.silent (t := t.rendered x) (numberEvents t.cfg x) (by show t.trace ++ numberEvents t.cfg x = _; rw [h]) hr ht
    (numberEvents_noWrite _ _) 0

theorem FollowsWrites.incHour (s : State) : FollowsWrites 3 s (incHour s) :=
  (FollowsWrites.setTime _ _ _ s).andThen (m := 0) fun _ t => by
    rw [render_rendered]
    exact .rendered _ rfl rfl rfl

theorem FollowsWrites.incMinute (s : State) : FollowsWrites 3 s (incMinute s) :=
  (FollowsWrites.setTime _ _ _ s).andThen (m := 0) fun _ t => by
    rw [render_rendered]
    exact .rendered _ rfl rfl rfl

theorem FollowsWrites.reconcile (n : Nat) (s : State) : FollowsWrites 3 s (reconcile n s) := by
  have : FollowsWrites 3 s (Machine.getTime (stampRecon n s)) := FollowsWrites.getTime (stampRecon n s)
  refine this.andThen (m := 0) fun a t => ?_
  unfold adopt
  split
  · exact .refl _ _ _
  · rw [render_rendered]
    exact .rendered _ rfl rfl rfl

theorem FollowsWrites.process (b : Button) (n : Nat) (s : State) : FollowsWrites 0 s (.done () (process b n s)) := by
  rw [process_eq]
  refine .silent (firingEvents b (firing b n s)) rfl (by cases b <;> rfl) (by cases b <;> rfl) ?_ 0
  cases firing b n s with
  | none => simp [firingEvents]
  | some f => cases f <;> simp [firingEvents, firingEvent, Event.isWriteTo]

theorem FollowsWrites.buttonStep (b : Button) (n : Nat) (s : State) {f : State → Attempt Unit}
    (hf : ∀ s, FollowsWrites 3 s (f s)) : FollowsWrites 3 s (buttonStep b f n s) := by
  unfold Machine.buttonStep
  split
  · exact (FollowsWrites.process b n s).mono (by omega)
  · have := (FollowsWrites.process b n s).andThen (m := 3) (f := fun _ t => f t) fun _ t => hf t
    exact this

/-- A tick makes at most nine transactions. -/
theorem FollowsWrites.tickSteps (n : Nat) (s : State) : FollowsWrites 9 s (tickSteps n s) :=
  (FollowsWrites.buttonStep _ n s FollowsWrites.incHour).andThen (m := 6) fun _ t =>
  (FollowsWrites.buttonStep _ n t FollowsWrites.incMinute).andThen (m := 3) fun _ u => by
    unfold reconStep
    split
    · exact .reconcile _ _
    · exact .refl _ _ _

theorem FollowsWrites.startUp (s : State) : FollowsWrites 5 s (startUp s) :=
  (FollowsWrites.rtcInit s).andThen (m := 3) fun _ t => by
  have h : FollowsWrites 3 t (Machine.getTime (resetButton .minute (resetButton .hour t))) :=
    FollowsWrites.getTime (resetButton .minute (resetButton .hour t))
  refine h.andThen (m := 0) fun a u => ?_
  rw [render_rendered]
  exact FollowsWrites.silent (s := u)
    (t := { State.rendered (mirrorNumber a.hour a.minute) (u.setMirror a.hour a.minute) with lastRecon := none, running := true })
    (numberEvents u.cfg (mirrorNumber a.hour a.minute)) rfl rfl rfl (numberEvents_noWrite _ _) 0

/-- A refused command makes no transaction. -/
theorem FollowsWrites.refused (e : ErrorKind) (s : State) (k : Nat) : FollowsWrites k s (.raised e s : Attempt Unit) := by
  intro n a hu
  have hlen := hu.1
  exact ⟨⟨by show n ≤ s.turns.length; omega, hu.2⟩, [], by simp [Attempt.final], fun h v hw hv => hw v hv⟩

theorem FollowsWrites.whileRunning {s : State} {f : State → Attempt Unit} (h : FollowsWrites 9 s (f s)) :
    FollowsWrites 9 s (whileRunning f s) := by
  unfold Machine.whileRunning
  split
  · exact h
  · exact .refused _ s 9

theorem FollowsWrites.whileStopped {s : State} {f : State → Attempt Unit} (h : FollowsWrites 9 s (f s)) :
    FollowsWrites 9 s (whileStopped f s) := by
  unfold Machine.whileStopped
  split
  · exact .refused _ s 9
  · exact h

theorem FollowsWrites.catchTransport {s : State} {r : Attempt Unit} (h : FollowsWrites 9 s r) :
    FollowsWrites 9 s (catchTransport r) := by
  intro n a hu
  obtain ⟨h1, es, h2, h3⟩ := h n a hu
  cases r with
  | done x t => exact ⟨h1, es, h2, h3⟩
  | raised e t =>
    cases e with
    | transportError =>
      refine ⟨h1, es ++ [.report .transportError], ?_, ?_⟩
      · show t.trace ++ _ = _
        rw [← List.append_assoc, ← h2]
        rfl
      · intro h v hw hv
        rw [heldAfter_append] at hv
        exact h3 h v hw hv
    | invalidArgument => exact ⟨h1, es, h2, h3⟩
    | illegalCommand => exact ⟨h1, es, h2, h3⟩

end Sys2Proof.Machine
end

