-- ==== Sys2Proof/Laws/Step.lean ====
section
/-! SUPPORT. Everything a step can do, said once. -/

namespace Sys2Proof.Machine

/-- A step that answers `t` is one of five: nothing presented, `rst`, a power cycle, a decoded command, an illegal word. -/
theorem step_cases {s t : State} (h : step s = .next t) :
    (s.host = [] ∧ t = s) ∨
    (∃ digits rest, s.host = .reset digits :: rest ∧ t = ({ s with host := rest }).assertReset digits) ∨
    (∃ rest, s.host = .powerCycle :: rest ∧ t = ({ s with host := rest }).losePower) ∨
    (∃ c rest i, s.host = .command c :: rest ∧ decode c.word = .ok i ∧
      exec i (({ s with host := rest }).present c) = .next t) ∨
    (∃ c rest r, s.host = .command c :: rest ∧ decode c.word = .error r ∧
      t = refuseWord (({ s with host := rest }).present c)) := by
  unfold step at h
  split at h
  · cases h
    exact .inl ⟨‹_›, rfl⟩
  · rename_i c rest hc
    unfold execWord at h
    split at h
    · exact .inr (.inr (.inr (.inl ⟨c, rest, _, hc, ‹_›, h⟩)))
    · cases h
      exact .inr (.inr (.inr (.inr ⟨c, rest, _, hc, ‹_›, rfl⟩)))
  · cases h
    exact .inr (.inl ⟨_, _, ‹_›, rfl⟩)
  · cases h
    exact .inr (.inr (.inl ⟨_, ‹_›, rfl⟩))

/-- A presented word that decodes is executed with its inputs on the ports. -/
theorem step_command {s : State} {c : Presented} {rest : List HostInput} {i : Instr} (h : s.host = .command c :: rest)
    (hd : decode c.word = .ok i) : step s = exec i (({ s with host := rest }).present c) := by
  simp [step, h, execWord, hd, State.present]

/-- Presenting keeps everything but the ports and the script. -/
theorem Kept.presented (c : Presented) (rest : List HostInput) (s : State) :
    (({ s with host := rest }).present c).trace = s.trace ∧
    (({ s with host := rest }).present c).running = s.running ∧
    (({ s with host := rest }).present c).cfg = s.cfg := ⟨rfl, rfl, rfl⟩

end Sys2Proof.Machine
end

