-- ==== Sys2Proof/Laws/Runs.lean ====
section
/-! SUPPORT. Runs of several steps, and one polled `BTNPROC` (R127). -/

namespace Sys2Proof.Machine

/-- The first of several steps. -/
theorem run_succ {s t : State} (hs : step s = .next t) (n : Nat) : Host.Core.run core (n + 1) s = Host.Core.run core n t := by
  have h : core.step s = .next t := hs
  simp [Host.Core.run, h]

/-- Runs compose. -/
theorem run_add {m n : Nat} {s t : State} (h : Host.Core.run core m s = .next t) :
    Host.Core.run core (m + n) s = Host.Core.run core n t := by
  induction m generalizing s with
  | zero =>
    cases h
    rw [Nat.zero_add]
  | succ m ih =>
    rw [show m + 1 + n = (m + n) + 1 by omega]
    cases hs : step s with
    | next u =>
      rw [run_succ hs] at h ⊢
      exact ih h
    | fault r =>
      have hc : core.step s = .fault r := hs
      simp [Host.Core.run, hc] at h
    | refused r =>
      have hc : core.step s = .refused r := hs
      simp [Host.Core.run, hc] at h

/-- `BTNPROC` moves its button by the machine of R123 to R126, appends the firing, and leaves the rest. -/
theorem exec_btnproc (b : Button) (s : State) :
    exec (.btnproc b) s = .next { s.setButton b (nextButton s.cfg (s.asserted b) s.now (s.button b)).1 with
      trace := s.trace ++ firingEvents b (nextButton s.cfg (s.asserted b) s.now (s.button b)).2
      res := resultFiring (nextButton s.cfg (s.asserted b) s.now (s.button b)).2
      err := 0#2 } := by
  simp only [exec, execBtnproc, process_eq, firing_eq]
  rfl

/-- One presented poll. -/
theorem step_poll {b : Button} {level : Bool} {now : Nat} {s : State} {rest : List HostInput}
    (h : s.host = pollInput b level now :: rest) :
    ∃ t, step s = .next t ∧ t.host = rest ∧ t.cfg = s.cfg ∧
      t.button b = (nextButton s.cfg (level == s.cfg.activeLevel) now (s.button b)).1 ∧
      t.trace = s.trace ++ firingEvents b (nextButton s.cfg (level == s.cfg.activeLevel) now (s.button b)).2 := by
  have hd : decode (encode (.btnproc b)) = .ok (.btnproc b) := Laws.RoundTrip.btnproc b rfl
  refine ⟨_, (step_command h hd).trans (exec_btnproc b _), ?_, ?_, ?_, ?_⟩ <;> cases b <;> rfl

/-- The last call of a list does not look at what came before it. -/
@[simp] theorem lastCall_cons (last x : Nat) (xs : List Nat) : lastCall last (x :: xs) = lastCall x xs := by
  cases xs <;> rfl

end Sys2Proof.Machine
end

