-- ==== Sys2Proof/Tests/Slice0.lean ====
section
/-! SUPPORT. The model's own tests: what WellFormed refuses, what the decoder reads from words written out from the
spec, at most two one-command tests per command (expected values from `spec/95_test_vectors.md`), and for every
statement with hypotheses the states and operands that meet them. -/

namespace Sys2Proof.Tests

open Sys2Proof.Machine

/-! ## Small states -/

/-- A block that holds nothing free: the mirror 07:15 on the display, the chip at 07:15:30, the next nine
transactions quiet. -/
def bench : State :=
  { State.reset with
    dv := 0#4
    disp := #v[5#4, 1#4, 7#4, 0#4]
    btnH := .atReset 0 0
    btnM := .atReset 0 0
    hour := 7
    minute := 15
    rtc := [(0, 0x30#8), (1, 0x15#8), (2, 0x07#8)]
    turns := List.replicate 9 Turn.quiet }

/-- The same, running. -/
def going : State := { bench with running := true }

/-- The chip at other bytes. -/
def State.withChip (b0 b1 b2 : Byte) (s : State) : State := { s with rtc := [(0, b0), (1, b1), (2, b2)] }

/-- `n` quiet transactions, then one that fails and leaves its register as it was. -/
def State.failsAfter (n : Nat) (s : State) : State :=
  { s with turns := List.replicate n Turn.quiet ++ [{ changes := [], verdict := .failed none }] }

/-- The mirror and the display at other values. -/
def State.withMirror (h m : Nat) (s : State) : State := { s with hour := h, minute := m }

/-- Button H pressed at 0 with the default `LONG_MS`. -/
def pressedAt0 : ButtonState := { st := .pressed, pressDownAt := 0, nextRepeatAt := 600 }

/-- A check on the state a command leaves. -/
def after (i : Instr) (s : State) (p : State → Bool) : Bool :=
  match exec i s with
  | .next t => p t
  | .fault _ => false
  | .refused _ => false

/-! ## WellFormed (R67 to R72): one ill-formed command for each check -/

theorem test_wrnib_over_range : (Instr.wrnib 256).wellFormed = false := by decide
theorem test_wrnib_under_range : (Instr.wrnib (-1)).wellFormed = false := by decide
theorem test_latch_over_range : (Instr.latch 256).wellFormed = false := by decide
theorem test_wrdig_value_over_range : (Instr.wrdig 256 0).wellFormed = false := by decide
theorem test_wrdig_index_under_range : (Instr.wrdig 0 (-1)).wellFormed = false := by decide
theorem test_wrnum_over_range : (Instr.wrnum 32768).wellFormed = false := by decide
theorem test_wrnum_under_range : (Instr.wrnum (-32769)).wellFormed = false := by decide
theorem test_settime_hour_over_range : (Instr.settime 256 0 0).wellFormed = false := by decide
theorem test_settime_minute_under_range : (Instr.settime 0 (-1) 0).wellFormed = false := by decide
theorem test_settime_second_over_range : (Instr.settime 0 0 256).wellFormed = false := by decide

/-! ## Decoding (R66 to R74): words written out bit by bit, opcode first -/

/-- Format V, R67: opcode 0x10, sixteen zeros, `v` = 0x1A. -/
theorem test_decode_wrnib : decode 0b00010000_0000000000000000_00011010#32 = .ok (.wrnib 26) := by decide
/-- Format V: opcode 0x11, `idx` = 255. -/
theorem test_decode_latch : decode 0b00010001_0000000000000000_11111111#32 = .ok (.latch 255) := by decide
/-- Format DV, R68: opcode 0x12, eight zeros, `idx` = 7 in bits 15:8, `v` = 3 in bits 7:0. -/
theorem test_decode_wrdig : decode 0b00010010_00000000_00000111_00000011#32 = .ok (.wrdig 3 7) := by decide
/-- Format W, R69: opcode 0x13, eight zeros, `n` = 0x8000 as two's complement. -/
theorem test_decode_wrnum : decode 0b00010011_00000000_1000000000000000#32 = .ok (.wrnum (-32768)) := by decide
/-- Format Z, R66: opcode 0x14. -/
theorem test_decode_lastv : decode 0b00010100_000000000000000000000000#32 = .ok .lastv := by decide
theorem test_decode_rtcinit : decode 0b00100000_000000000000000000000000#32 = .ok .rtcinit := by decide
/-- Format V: opcode 0x21, `raw` = 0xF2. -/
theorem test_decode_dechr : decode 0b00100001_0000000000000000_11110010#32 = .ok (.dechr 0xF2#8) := by decide
theorem test_decode_gettime : decode 0b00100010_000000000000000000000000#32 = .ok .gettime := by decide
/-- Format T, R70: opcode 0x23, `h` = 24, `m` = 60, `s` = 61. -/
theorem test_decode_settime : decode 0b00100011_00011000_00111100_00111101#32 = .ok (.settime 24 60 61) := by decide
/-- Format B, R71: opcode 0x30, `b` = 0 is H. -/
theorem test_decode_btnrst : decode 0b00110000_00000000000000000000000_0#32 = .ok (.btnrst .hour) := by decide
/-- Format B: opcode 0x31, `b` = 1 is M. -/
theorem test_decode_btnproc : decode 0b00110001_00000000000000000000000_1#32 = .ok (.btnproc .minute) := by decide
theorem test_decode_start : decode 0b01000000_000000000000000000000000#32 = .ok .start := by decide
theorem test_decode_tick : decode 0b01000001_000000000000000000000000#32 = .ok .tick := by decide
theorem test_decode_inch : decode 0b01000010_000000000000000000000000#32 = .ok .inch := by decide
theorem test_decode_incm : decode 0b01000011_000000000000000000000000#32 = .ok .incm := by decide
theorem test_decode_recon : decode 0b01000100_000000000000000000000000#32 = .ok .recon := by decide

/-- The illegal words of `95_test_vectors.md` section 2.5. -/
theorem test_illegal_words :
    [0x00000000#32, 0xFFFFFFFF#32, 0x15000000#32, 0x24000000#32, 0x32000000#32, 0x45000000#32, 0x14000001#32, 0x10000107#32,
      0x12010309#32, 0x13010000#32, 0x31000002#32, 0x40000001#32].all (fun w => (decode w).toOption.isNone) = true := by decide

theorem test_decodeTableWord : decodeTableWord 32 0x12000309 = some (.wrdig 9 3) := by decide

/-- R78's listing form. -/
theorem test_listing : (Instr.settime 25 61 75).listing = "SETTIME 25, 61, 75" := by decide

/-! ## DigitBus (95_test_vectors.md section 2.1) -/

theorem test_wrnib_masks : after (.wrnib 17) bench (fun t =>
    t.dv == 1#4 && t.res == 1#32 && t.trace == [.data 1#4] && t.disp == bench.disp) = true := by decide
theorem test_wrnib_direct_call_minus_one : after (.wrnib (-1)) bench (fun t => t.dv == 15#4 && t.res == 15#32) = true := by decide
theorem test_latch_commits : after (.latch 3) { bench with dv := 8#4 } (fun t =>
    t.disp == #v[5#4, 1#4, 7#4, 8#4] && t.trace == [.latchHigh 3, .hold 20, .latchLow 3] && t.err == 0#2) = true := by decide
theorem test_latch_bad_index : after (.latch 4) { bench with dv := 8#4 } (fun t =>
    t.err == 1#2 && t.trace == [] && t.disp == bench.disp) = true := by decide
theorem test_wrdig_settles : after (.wrdig 9 3) { bench with cfg := { Cfg.default with settleUs := 5 } } (fun t =>
    t.trace == [.data 9#4, .settle 5, .latchHigh 3, .hold 20, .latchLow 3] && t.res == 9#32) = true := by decide
theorem test_wrdig_bad_index : after (.wrdig 0x27 7) bench (fun t =>
    t.dv == 7#4 && t.err == 1#2 && t.res == 0#32 && t.trace == [.data 7#4] && t.disp == bench.disp) = true := by decide
theorem test_wrnum_2359 : after (.wrnum 2359) bench (fun t =>
    t.displayString == some ['2', '3', '5', '9'] && t.dv == 2#4 && t.trace.length == 16) = true := by decide
theorem test_wrnum_clamps : after (.wrnum 10000) bench (fun t => t.displayString == some ['9', '9', '9', '9']) = true := by decide
theorem test_lastv : after .lastv { bench with dv := 10#4 } (fun t => t.res == 10#32 && t.trace == []) = true := by decide

/-! ## ClockChip (section 2.2) -/

theorem test_rtcinit_clears : after .rtcinit (State.withChip 0xC5#8 0x15#8 0x07#8 bench) (fun t =>
    t.trace == [.regRead 0 0xC5#8, .regWrite 0 0x45#8] && t.chipByte 0 == 0x45#8) = true := by decide
theorem test_rtcinit_read_fails : after .rtcinit (State.failsAfter 0 bench) (fun t =>
    t.trace == [.regFail .rd 0] && t.err == 2#2 && t.rtc == bench.rtc) = true := by decide
/-- R103, R111 on both layouts, garbage included. -/
theorem test_decodeHours : [(0x00#8, 0), (0x23#8, 23), (0xA3#8, 23), (0x3F#8, 45), (0x41#8, 1), (0x52#8, 0), (0x61#8, 13),
    (0x71#8, 23), (0x72#8, 12), (0x40#8, 0), (0x60#8, 12), (0x5F#8, 1), (0x7F#8, 13), (0xF2#8, 12), (0xD2#8, 0)].all
    (fun c => decodeHours c.1 == c.2) = true := by decide
theorem test_dechr : after (.dechr 0x69#8) bench (fun t => t.res == 21#32) = true := by decide
theorem test_gettime_packs : after .gettime (State.withChip 0x7F#8 0xFF#8 0x3F#8 bench) (fun t => t.res == 0x002DA555#32) = true := by decide
theorem test_gettime_second_read_fails : after .gettime (State.failsAfter 1 bench) (fun t =>
    t.trace == [.regRead 0 0x30#8, .regFail .rd 1] && t.err == 2#2 && t.res == 0#32) = true := by decide
theorem test_settime_direct_call_minus_one : after (.settime (-1) (-1) (-1)) bench (fun t =>
    t.rtc == [(0, 0x59#8), (1, 0x59#8), (2, 0x23#8)]) = true := by decide
theorem test_settime_second_write_fails : after (.settime 8 16 0) (State.failsAfter 1 bench) (fun t =>
    t.trace == [.regWrite 0 0x00#8, .regFail .wr 1] && t.err == 2#2 && t.rtc == [(0, 0x00#8), (1, 0x15#8), (2, 0x07#8)]) = true := by
  decide

/-! ## ButtonInput (section 2.3) -/

theorem test_btnrst : after (.btnrst .hour) { bench with btnH := pressedAt0 } (fun t =>
    t.btnH == { pressedAt0 with st := .idle } && t.trace == []) = true := by decide
theorem test_btnproc_repeats : after (.btnproc .hour) { bench with btnH := pressedAt0, now := 600, pinH := false } (fun t =>
    t.btnH == { pressedAt0 with nextRepeatAt := 800 } && t.trace == [.autoRepeat .hour] && t.res == 2#32) = true := by decide
theorem test_btnproc_silent_band : after (.btnproc .hour) { bench with btnH := pressedAt0, now := 600, pinH := true } (fun t =>
    t.btnH.st == .idle && t.trace == [] && t.res == 0#32) = true := by decide

/-! ## ClockController (section 2.4) -/

theorem test_start_adopts_garbage : after .start (State.withChip 0x7F#8 0xFF#8 0x3F#8 bench) (fun t =>
    t.running && t.hour == 45 && t.minute == 165 && t.displayString == some ['4', '6', '6', '5']) = true := by decide
theorem test_start_fourth_transaction_fails : after .start (State.failsAfter 3 (State.withChip 0x80#8 0x15#8 0x07#8 bench)) (fun t =>
    t.trace == [.regRead 0 0x80#8, .regWrite 0 0x00#8, .regRead 0 0x00#8, .regFail .rd 1] && t.err == 2#2 && !t.running &&
    t.disp == bench.disp) = true := by decide
/-- Both buttons in one tick at 23:59 (R155); no reconciliation is due. -/
theorem test_tick_both_buttons : after .tick { State.withMirror 23 59 going with
      btnH := pressedAt0, btnM := pressedAt0, now := 20, lastRecon := some 0 } (fun t =>
    t.hour == 0 && t.minute == 0 && t.rtc == [(0, 0x00#8), (1, 0x00#8), (2, 0x00#8)] && t.trace.length == 40 &&
    t.displayString == some ['0', '0', '0', '0'] && t.err == 0#2) = true := by decide
/-- Step 4 of program P6. -/
theorem test_tick_catches : after .tick (State.failsAfter 1 { going with btnH := pressedAt0, now := 20, lastRecon := some 0 }) (fun t =>
    t.trace == [.click .hour, .regWrite 0 0x00#8, .regFail .wr 1, .report .transportError] && t.err == 0#2 && t.terr &&
    t.hour == 7 && t.btnH.st == .idle) = true := by decide
theorem test_inch_wraps : after .inch (State.withMirror 23 0 going) (fun t =>
    t.hour == 0 && t.displayString == some ['0', '0', '0', '0'] && t.rtc == [(0, 0x00#8), (1, 0x00#8), (2, 0x00#8)]) = true := by decide
theorem test_inch_first_write_fails : after .inch (State.failsAfter 0 going) (fun t =>
    t.trace == [.regFail .wr 0] && t.err == 2#2 && t.hour == 7 && t.disp == going.disp) = true := by decide
theorem test_incm_does_not_carry : after .incm (State.withMirror 23 59 going) (fun t =>
    t.hour == 23 && t.minute == 0 && t.displayString == some ['2', '3', '0', '0']) = true := by decide
theorem test_incm_garbage_mirror : after .incm (State.withMirror 45 165 going) (fun t =>
    t.hour == 45 && t.minute == 46 && t.rtc == [(0, 0x00#8), (1, 0x46#8), (2, 0x21#8)]) = true := by decide
theorem test_recon_adopts : after .recon (State.withChip 0x06#8 0x31#8 0x69#8 { State.withMirror 21 30 going with now := 50 }) (fun t =>
    t.hour == 21 && t.minute == 31 && t.displayString == some ['2', '1', '3', '1'] && t.lastRecon == some 50) = true := by decide
theorem test_recon_finds_nothing : after .recon { going with now := 50 } (fun t =>
    t.trace == [.regRead 0 0x30#8, .regRead 1 0x15#8, .regRead 2 0x07#8] && t.disp == going.disp) = true := by decide

/-! ## The machine -/

/-- R41, R192: after `rst` the digits may hold anything, or what they last latched. -/
theorem test_reset_leaves_the_digits_open : (State.assertReset none going).displayString = some ['0', '7', '1', '5'] ∧
    (State.assertReset (some #v[4#4, 3#4, 2#4, 1#4]) going).displayString = some ['1', '2', '3', '4'] := by decide
/-- R192: the chip's bytes outlive a power cycle. -/
theorem test_powerCycle_keeps_the_chip : (State.losePower going).rtc = going.rtc ∧ (State.losePower going).running = false := by decide
theorem test_reset_memory_wf : Memory.wf State.reset.rtc = true := by decide
/-- A presented word is executed by the very next step. -/
theorem test_withFetchWord : step (State.reset.withFetchWord 32 0x1300032F) =
    exec (.wrnum 815) { State.reset with cmd := 0x1300032F#32 } := rfl

/-! ## Witnesses: states and operands that meet the hypotheses of each statement -/

theorem witness_DecodeOfEncode : [Instr.wrnib 0, .wrnib 255, .latch 255, .wrdig 255 0, .wrnum (-32768), .wrnum 32767,
    .settime 255 0 255, .dechr 0xFF#8, .btnproc .minute].all Instr.wellFormed = true := by decide
theorem witness_EncodeOfDecode : decode 0x1300FFFF#32 = .ok (.wrnum (-1)) := by decide
theorem witness_WordIsTheCommand : (⟨"RECON", 0x44000000#32, 0xFFFFFFFF#32⟩ : Row) ∈ opcodeTable := by decide
theorem witness_AtMostOneRow : ∃ r ∈ opcodeTable, (0x31000001#32 : Word) &&& r.mask = r.value := by decide
theorem witness_StepRuns : ∃ (s : State) (c : Presented), s.host = [.command c] ∧ decode c.word = .ok .tick :=
  ⟨going.withFetchWord 32 0x41000000, ⟨0x41000000#32, 0, true, true, going.turns⟩, rfl, by decide⟩
theorem witness_IllegalWord : ∀ r ∈ opcodeTable, (0x40000001#32 : Word) &&& r.mask ≠ r.value := by decide
theorem witness_IdleStep : bench.host = [] := rfl
theorem witness_AssertedReset : ({ going with host := [.reset none] } : State).host = .reset none :: [] ∧
    ({ going with host := [.reset (some #v[4#4, 3#4, 2#4, 1#4])] } : State).host = .reset (some #v[4#4, 3#4, 2#4, 1#4]) :: [] :=
  ⟨rfl, rfl⟩
theorem witness_PowerCycle : ({ going with host := [.powerCycle] } : State).host = .powerCycle :: [] := rfl
theorem witness_WrongPhase_running : going.running = true := rfl
theorem witness_WrongPhase_stopped : bench.running = false := rfl
theorem witness_WrongPhase_others : [Instr.wrnib 0, .latch 0, .wrdig 0 0, .wrnum 0, .lastv, .rtcinit, .dechr 0#8, .gettime, .settime 0 0 0,
    .btnrst .hour, .btnproc .hour].all (fun i => blockUnitOf i != .clockController) = true := by decide
theorem witness_TwosComplementMask : 5 ≤ 5 := by decide
theorem witness_Latch_bad_index : ((-1 : Int) < 0 ∨ 3 < (-1 : Int)) ∧ ((4 : Int) < 0 ∨ 3 < (4 : Int)) := by decide
theorem witness_Wrnum : ((0 : Nat) : Int) = max 0 (min 9999 (-1)) ∧ ((9999 : Nat) : Int) = max 0 (min 9999 10000) ∧
    ((815 : Nat) : Int) = max 0 (min 9999 815) ∧ 815 = 5 + 10 * 1 + 100 * 8 + 1000 * 0 := by decide
theorem witness_Rtcinit_not_halted : bench.Succeeds 0 ∧ (bench.readAt 0 0).getLsbD 7 = false := ⟨rfl, by decide⟩
theorem witness_Rtcinit_halted : ∃ s : State, s.Succeeds 0 ∧ s.Succeeds 1 ∧ (s.readAt 0 0).getLsbD 7 = true :=
  ⟨State.withChip 0xB0#8 0x15#8 0x07#8 bench, rfl, rfl, by decide⟩
theorem witness_Rtcinit_read_fails : ¬ (State.failsAfter 0 bench).Succeeds 0 := by unfold State.Succeeds; decide
theorem witness_Rtcinit_write_fails : ∃ s : State, s.Succeeds 0 ∧ (s.moves 1).turn.verdict = .failed none ∧
    (s.readAt 0 0).getLsbD 7 = true := ⟨State.failsAfter 1 (State.withChip 0xB0#8 0x15#8 0x07#8 bench), rfl, rfl, by decide⟩
theorem witness_Gettime : bench.Succeeds 0 ∧ bench.Succeeds 1 ∧ bench.Succeeds 2 := ⟨rfl, rfl, rfl⟩
theorem witness_Gettime_fails_second : (State.failsAfter 1 bench).Succeeds 0 ∧ ¬ (State.failsAfter 1 bench).Succeeds 1 := by
  unfold State.Succeeds; decide
theorem witness_Gettime_fails_third : (State.failsAfter 2 bench).Succeeds 0 ∧ (State.failsAfter 2 bench).Succeeds 1 ∧
    ¬ (State.failsAfter 2 bench).Succeeds 2 := by unfold State.Succeeds; decide
/-- The bytes of `SETTIME 25, 61, 75` and of `SETTIME -1, -1, -1`. -/
theorem witness_Settime : ((0x15#8 : Byte).toNat : Int) = 75 % 60 / 10 * 16 + 75 % 60 % 10 ∧
    ((0x01#8 : Byte).toNat : Int) = 61 % 60 / 10 * 16 + 61 % 60 % 10 ∧ ((0x01#8 : Byte).toNat : Int) = 25 % 24 / 10 * 16 + 25 % 24 % 10 ∧
    ((0x59#8 : Byte).toNat : Int) = (-1) % 60 / 10 * 16 + (-1) % 60 % 10 ∧
    ((0x23#8 : Byte).toNat : Int) = (-1) % 24 / 10 * 16 + (-1) % 24 % 10 := by decide
theorem witness_Settime_fails_first : (State.failsAfter 0 bench).turn.verdict = .failed none := rfl
theorem witness_Settime_fails_second : (State.failsAfter 1 bench).Succeeds 0 ∧
    ((State.failsAfter 1 bench).moves 1).turn.verdict = .failed none := ⟨rfl, rfl⟩
theorem witness_Settime_fails_third : (State.failsAfter 2 bench).Succeeds 0 ∧ (State.failsAfter 2 bench).Succeeds 1 ∧
    ((State.failsAfter 2 bench).moves 2).turn.verdict = .failed none := ⟨rfl, rfl, rfl⟩
theorem witness_Quiescent : bench.Quiescent 3 ∧ bench.Quiescent 6 ∧ going.Quiescent 9 := ⟨rfl, rfl, rfl⟩
theorem witness_TransportError : ∃ i : Instr, i = .rtcinit ∨ i = .gettime ∨ (∃ h m sec, i = .settime h m sec) :=
  ⟨.settime 8 16 0, .inr (.inr ⟨8, 16, 0, rfl⟩)⟩
theorem witness_Btnproc_press_edge : (bench.button .hour).st = .idle ∧ { bench with pinH := false }.buttonPin .hour = bench.cfg.activeLevel :=
  ⟨rfl, rfl⟩
/-- At the boundary `now` = `nextRepeatAt`, and one before it. -/
theorem witness_Btnproc_held : ∃ s : State, (s.button .hour).st = .pressed ∧ s.buttonPin .hour = s.cfg.activeLevel ∧
    (s.button .hour).nextRepeatAt ≤ s.now ∧ { s with now := 599 }.now < (s.button .hour).nextRepeatAt :=
  ⟨{ bench with btnH := pressedAt0, pinH := false, now := 600 }, rfl, rfl, by decide, by decide⟩
/-- At the boundary: a hold of 599 ms clicks, one of 600 ms does not. -/
theorem witness_Btnproc_release : ∃ s : State, (s.button .hour).st = .pressed ∧ s.buttonPin .hour ≠ s.cfg.activeLevel ∧
    (s.now : Int) - ((s.button .hour).pressDownAt : Int) < (s.cfg.longMs : Int) ∧
    (s.cfg.longMs : Int) ≤ ((600 : Nat) : Int) - ((s.button .hour).pressDownAt : Int) :=
  ⟨{ bench with btnH := pressedAt0, pinH := true, now := 599 }, rfl, by decide, by decide, by decide⟩
theorem witness_Btnproc_idle_released : (bench.button .minute).st = .idle ∧ bench.buttonPin .minute ≠ bench.cfg.activeLevel := by decide
/-- Held calls at 590 and 599, release at 600: the silent band. -/
theorem witness_Press : ∃ s : State, (s.button .hour).st = .idle ∧ NonDecreasing 0 ([590, 599] ++ [600]) ∧
    s.host = (0 :: [590, 599]).map (pollInput .hour s.cfg.activeLevel) ++ pollInput .hour (!s.cfg.activeLevel) 600 :: [] :=
  ⟨{ bench with host := (0 :: [590, 599]).map (pollInput .hour false) ++ pollInput .hour true 600 :: [] }, rfl, by
    simp [NonDecreasing], rfl⟩
/-- Held calls 200 ms apart up to 800: two repeats. -/
theorem witness_RepeatCount : ∃ s : State, 0 < s.cfg.longMs ∧ 0 < s.cfg.repeatMs ∧ (s.button .hour).st = .idle ∧
    Machine.Dense s.cfg.repeatMs 0 [200, 400, 600, 800] ∧
    s.host = (0 :: [200, 400, 600, 800]).map (pollInput .hour s.cfg.activeLevel) ++ [] :=
  ⟨{ bench with host := (0 :: [200, 400, 600, 800]).map (pollInput .hour false) }, by decide, by decide, rfl, by
    simp [Machine.Dense, bench, State.reset, Cfg.default], rfl⟩
theorem witness_Start_not_halted : bench.running = false ∧ bench.Succeeds 0 ∧ bench.Succeeds 1 ∧ bench.Succeeds 2 ∧ bench.Succeeds 3 ∧
    (bench.readAt 0 0).getLsbD 7 = false := ⟨rfl, rfl, rfl, rfl, rfl, by decide⟩
theorem witness_Start_halted : ∃ s u : State, s.running = false ∧ s.Succeeds 0 ∧ s.Succeeds 1 ∧ s.Succeeds 2 ∧ s.Succeeds 3 ∧ s.Succeeds 4 ∧
    (s.readAt 0 0).getLsbD 7 = true ∧ u = (s.moves 1).wrote 0 (s.readAt 0 0 &&& 0x7F#8) :=
  ⟨State.withChip 0xB0#8 0x15#8 0x07#8 bench, _, rfl, rfl, rfl, rfl, rfl, rfl, by decide, rfl⟩
/-- A `START` whose construction write fails. -/
theorem witness_Start_write_fails : ∃ s : State, s.running = false ∧ s.Succeeds 0 ∧ (s.moves 1).turn.verdict = .failed none ∧
    (s.readAt 0 0).getLsbD 7 = true := ⟨State.failsAfter 1 (State.withChip 0xB0#8 0x15#8 0x07#8 bench), rfl, rfl, rfl, by decide⟩
theorem witness_Start_read_fails : (State.failsAfter 0 bench).running = false ∧ ¬ (State.failsAfter 0 bench).Succeeds 0 := by
  unfold State.Succeeds
  decide
/-- Each of the three reads fails after a construction step without its write. -/
theorem witness_Start_later_read_fails : ∀ k : Fin 3, ∃ s u : State, s.running = false ∧ s.Succeeds 0 ∧ (s.readAt 0 0).getLsbD 7 = false ∧
    u = { s.moves 1 with trace := s.trace ++ [.regRead 0 (s.readAt 0 0)] } ∧ u.FailsAt k none := fun k =>
  ⟨State.failsAfter (k.val + 1) bench, _, rfl, by unfold State.Succeeds; decide +revert, by decide +revert, rfl, by
    unfold State.FailsAt State.Succeeds; decide +revert⟩
/-- The same after one with its write. -/
theorem witness_Start_later_read_fails_halted : ∀ k : Fin 3, ∃ s u : State, s.running = false ∧ s.Succeeds 0 ∧ s.Succeeds 1 ∧
    (s.readAt 0 0).getLsbD 7 = true ∧ u = { (s.moves 1).wrote 0 (s.readAt 0 0 &&& 0x7F#8) with
      trace := s.trace ++ [.regRead 0 (s.readAt 0 0), .regWrite 0 (s.readAt 0 0 &&& 0x7F#8)] } ∧ u.FailsAt k none := fun k =>
  ⟨State.failsAfter (k.val + 2) (State.withChip 0xB0#8 0x15#8 0x07#8 bench), _, rfl, by unfold State.Succeeds; decide +revert, by
    unfold State.Succeeds; decide +revert, by decide +revert, rfl, by unfold State.FailsAt State.Succeeds; decide +revert⟩
/-- Each of the next three transactions can be the one that fails. -/
theorem witness_FailsAt : ∀ k : Fin 3, (State.failsAfter k.val going).running = true ∧ (State.failsAfter k.val going).FailsAt k none := by
  unfold State.FailsAt State.Succeeds
  decide
theorem witness_Increment : going.running = true ∧ going.Succeeds 0 ∧ going.Succeeds 1 ∧ going.Succeeds 2 := ⟨rfl, rfl, rfl, rfl⟩
theorem witness_Increment_fails : (State.failsAfter 2 going).running = true ∧ ¬ ((State.failsAfter 2 going).Succeeds 0 ∧
    (State.failsAfter 2 going).Succeeds 1 ∧ (State.failsAfter 2 going).Succeeds 2) := by unfold State.Succeeds; decide
theorem witness_Recon_equal : decodeHours (going.readAt 2 2) = going.hour ∧ bcd2dec (going.readAt 1 1) = going.minute := by decide
theorem witness_Recon_differs : ∃ s : State, s.running = true ∧ s.Succeeds 0 ∧ s.Succeeds 1 ∧ s.Succeeds 2 ∧
    (decodeHours (s.readAt 2 2) ≠ s.hour ∨ bcd2dec (s.readAt 1 1) ≠ s.minute) :=
  ⟨State.withChip 0x06#8 0x31#8 0x69#8 going, rfl, rfl, rfl, rfl, by decide⟩
/-- One ms before a reconciliation is due. -/
theorem witness_QuietTick : ∃ s : State, s.running = true ∧ firing .hour s.now s = none ∧ firing .minute s.now s = none ∧
    ∃ last, s.lastRecon = some last ∧ (s.now : Int) - (last : Int) < (s.cfg.refreshMs : Int) :=
  ⟨{ going with now := 99, lastRecon := some 0 }, rfl, by decide, by decide, 0, rfl, by decide⟩
/-- Both buttons click, and the reconciliation is due exactly now. -/
theorem witness_TickHandles : ∃ (s : State) (f g : Firing), s.running = true ∧ s.Quiescent 9 ∧ firing .hour s.now s = some f ∧
    firing .minute s.now s = some g ∧ ∃ last, s.lastRecon = some last ∧ (s.cfg.refreshMs : Int) ≤ (s.now : Int) - (last : Int) :=
  ⟨{ going with btnH := pressedAt0, btnM := pressedAt0, now := 100, lastRecon := some 0 }, .click, .click, rfl, rfl, by decide, by decide,
    0, rfl, by decide⟩
/-- The first tick, both buttons repeating. -/
theorem witness_TickHandles_first : ∃ (s : State) (f g : Firing), s.running = true ∧ s.Quiescent 9 ∧ firing .hour s.now s = some f ∧
    firing .minute s.now s = some g ∧ s.lastRecon = none :=
  ⟨{ going with btnH := pressedAt0, btnM := pressedAt0, now := 600, pinH := false, pinM := false }, .autoRepeat, .autoRepeat, rfl, rfl,
    by decide, by decide, rfl⟩
/-- At `NOW` = 20, the buttons named were pressed at 0 and are now released: they click. -/
def clicking (h m : Bool) (lastRecon : Option Nat) (s : State) : State :=
  { s with btnH := if h then pressedAt0 else s.btnH, btnM := if m then pressedAt0 else s.btnM, now := 20, lastRecon := lastRecon }

/-- Every combination of the two buttons, with a reconciliation due (the first tick) and not due. -/
theorem witness_TickOnAQuietChip : ∀ h m : Bool, ∀ l ∈ [none, some 0], (clicking h m l going).running = true ∧
    (clicking h m l going).Quiescent 9 ∧ firing .hour 20 (clicking h m l going) = (if h then some .click else none) ∧
    firing .minute 20 (clicking h m l going) = (if m then some .click else none) := by
  unfold State.Quiescent
  decide
theorem witness_ReconDue : ∀ h m : Bool, (clicking h m none going).ReconDue ∧ ¬ (clicking h m (some 0) going).ReconDue := by
  intro h m
  refine ⟨.inl rfl, ?_⟩
  rintro (e | ⟨l, e, hl⟩)
  · cases e
  · cases e
    exact absurd hl (by cases h <;> cases m <;> decide)
/-- All steps go well: the hour button clicks, the minute button does not, nothing is due; and with both and the first
reconciliation. -/
theorem witness_TickSteps : ∃ s u : State, s.running = true ∧ StepRan .inch (firing .hour s.now s) (s.polled .hour) u ∧
    StepRan .incm (firing .minute u.now u) (u.polled .minute) (u.polled .minute) ∧ ¬ (u.polled .minute).ReconDue :=
  ⟨clicking true false (some 0) going, _, rfl, ⟨rfl, rfl, rfl⟩, rfl, (witness_ReconDue true false).2⟩
theorem witness_TickSteps_due : ∃ s u v w : State, s.running = true ∧ StepRan .inch (firing .hour s.now s) (s.polled .hour) u ∧
    StepRan .incm (firing .minute u.now u) (u.polled .minute) v ∧ v.ReconDue ∧ exec .recon v = .next w ∧ w.err = 0#2 :=
  ⟨clicking true true none going, _, _, _, rfl, ⟨rfl, rfl, rfl⟩, ⟨rfl, rfl, rfl⟩, .inl rfl, rfl, rfl⟩
theorem witness_TickSteps_hour_fails : ∃ s u : State, s.running = true ∧ firing .hour s.now s ≠ none ∧
    exec .inch (s.polled .hour) = .next u ∧ u.err ≠ 0#2 :=
  ⟨clicking true true none (State.failsAfter 0 going), _, rfl, by decide, rfl, by decide⟩
theorem witness_TickSteps_minute_fails : ∃ s u v : State, s.running = true ∧ StepRan .inch (firing .hour s.now s) (s.polled .hour) u ∧
    firing .minute u.now u ≠ none ∧ exec .incm (u.polled .minute) = .next v ∧ v.err ≠ 0#2 :=
  ⟨clicking true true none (State.failsAfter 3 going), _, _, rfl, ⟨rfl, rfl, rfl⟩, by decide, rfl, by decide⟩
theorem witness_TickSteps_read_fails : ∃ s u v w : State, s.running = true ∧ StepRan .inch (firing .hour s.now s) (s.polled .hour) u ∧
    StepRan .incm (firing .minute u.now u) (u.polled .minute) v ∧ v.ReconDue ∧ exec .recon v = .next w ∧ w.err ≠ 0#2 :=
  ⟨clicking true false none (State.failsAfter 3 going), _, _, _, rfl, ⟨rfl, rfl, rfl⟩, rfl, .inl rfl, rfl, by decide⟩
theorem witness_TickReconciles_equal : ∃ s : State, s.running = true ∧ firing .hour s.now s = none ∧ firing .minute s.now s = none ∧
    s.ReconDue ∧ s.Succeeds 0 ∧ s.Succeeds 1 ∧ s.Succeeds 2 ∧ decodeHours (s.readAt 2 2) = s.hour ∧ bcd2dec (s.readAt 1 1) = s.minute :=
  ⟨going, rfl, by decide, by decide, .inl rfl, rfl, rfl, rfl, by decide, by decide⟩
/-- Exactly `REFRESH_MS` after the last attempt. -/
theorem witness_TickReconciles_differs : ∃ s : State, s.running = true ∧ firing .hour s.now s = none ∧ firing .minute s.now s = none ∧
    s.ReconDue ∧ s.Succeeds 0 ∧ s.Succeeds 1 ∧ s.Succeeds 2 ∧ (decodeHours (s.readAt 2 2) ≠ s.hour ∨ bcd2dec (s.readAt 1 1) ≠ s.minute) :=
  ⟨State.withChip 0x06#8 0x31#8 0x69#8 { going with now := 100, lastRecon := some 0 }, rfl, by decide, by decide, .inr ⟨0, rfl, by decide⟩,
    rfl, rfl, rfl, by decide⟩
theorem witness_TickReconciles_fails : ∀ k : Fin 3, ∃ s : State, s.running = true ∧ firing .hour s.now s = none ∧
    firing .minute s.now s = none ∧ s.ReconDue ∧ s.FailsAt k none := fun k =>
  ⟨State.failsAfter k.val going, rfl, by decide +revert, by decide +revert, .inl rfl, (witness_FailsAt k).2⟩
theorem witness_TickWithOneEvent_hour : ∃ s : State, s.running = true ∧ firing .hour s.now s = some .click ∧
    firing .minute s.now s = none ∧ ¬ s.ReconDue ∧ s.Succeeds 0 ∧ s.Succeeds 1 ∧ s.Succeeds 2 :=
  ⟨clicking true false (some 0) going, rfl, by decide, by decide, (witness_ReconDue true false).2, rfl, rfl, rfl⟩
theorem witness_TickWithOneEvent_minute : ∃ s : State, s.running = true ∧ firing .hour s.now s = none ∧
    firing .minute s.now s = some .click ∧ ¬ s.ReconDue ∧ s.Succeeds 0 ∧ s.Succeeds 1 ∧ s.Succeeds 2 :=
  ⟨clicking false true (some 0) going, rfl, by decide, by decide, (witness_ReconDue false true).2, rfl, rfl, rfl⟩
theorem witness_FailedHourStep_exact : ∀ k : Fin 3, ∃ s : State, s.running = true ∧ firing .hour s.now s = some .click ∧ s.FailsAt k none :=
  fun k => ⟨clicking true true none (State.failsAfter k.val going), rfl, by decide +revert, by
    unfold State.FailsAt State.Succeeds; decide +revert⟩
theorem witness_FailedMinuteStep : ∀ k : Fin 3, ∃ s : State, s.running = true ∧ firing .hour s.now s = none ∧
    firing .minute s.now s = some .click ∧ s.FailsAt k none :=
  fun k => ⟨clicking false true none (State.failsAfter k.val going), rfl, by decide +revert, by decide +revert, by
    unfold State.FailsAt State.Succeeds; decide +revert⟩
/-- The hour's three writes succeed, then one of the minute's fails. -/
theorem witness_FailedMinuteStep_after_hour : ∀ k : Fin 3, ∃ s u : State, s.running = true ∧ firing .hour s.now s = some .click ∧
    firing .minute s.now s = some .click ∧ s.Succeeds 0 ∧ s.Succeeds 1 ∧ s.Succeeds 2 ∧
    u = { State.rendered (mirrorNumber ((s.hour + 1) % 24) s.minute)
        { ((s.wrote 0 0x00#8).wrote 1 (minutesByte s.minute)).wrote 2 (hoursByte ((s.hour + 1) % 24 : Nat)) with
          trace := s.trace ++ [firingEvent .hour .click, .regWrite 0 0x00#8, .regWrite 1 (minutesByte s.minute),
            .regWrite 2 (hoursByte ((s.hour + 1) % 24 : Nat))] } with
      btnH := (nextButton s.cfg (s.pinH == s.cfg.activeLevel) s.now s.btnH).1
      hour := (s.hour + 1) % 24 } ∧ u.FailsAt k none :=
  fun k => ⟨clicking true true none (State.failsAfter (k.val + 3) going), _, rfl, by decide +revert, by decide +revert, by
    unfold State.Succeeds; decide +revert, by unfold State.Succeeds; decide +revert, by unfold State.Succeeds; decide +revert, rfl, by
    unfold State.FailsAt State.Succeeds; decide +revert⟩
theorem witness_FailedHourStep : ∃ (s : State) (f : Firing), s.running = true ∧ firing .hour s.now s = some f ∧
    ¬ (s.Succeeds 0 ∧ s.Succeeds 1 ∧ s.Succeeds 2) :=
  ⟨State.failsAfter 1 { going with btnH := pressedAt0, now := 20 }, .click, rfl, by decide, by unfold State.Succeeds; decide⟩
/-- A running state with the invariant whose display shows its mirror, that takes a `TICK`. -/
theorem witness_Invariant : ∃ s t : State, s.Inv ∧ s.running = true ∧ s.ShowsMirror ∧ step s = .next t :=
  ⟨going.withFetchWord 32 0x41000000, _,
    ⟨rfl, fun h => (nomatch h), fun h => (nomatch h), fun _ => ⟨by decide, by decide⟩, fun h => (nomatch h), fun h => absurd rfl h, by decide,
      by decide⟩, rfl, by unfold State.ShowsMirror State.Shows; decide, rfl⟩
theorem witness_DisplayFollows : pulsesALine .tick = false ∧ decode 0x41000000#32 = .ok .tick := by decide
theorem witness_OnlyReset : ∀ digits rest, (going.withFetchWord 32 0x41000000).host ≠ .reset digits :: rest ∧
    (going.withFetchWord 32 0x41000000).host ≠ .powerCycle :: rest :=
  fun _ _ => ⟨fun h => (nomatch h), fun h => (nomatch h)⟩
theorem witness_Untouched : bench.Untouched 9 := by
  unfold State.Untouched
  decide

end Sys2Proof.Tests
end

section
/-! PROOFS. The scope of the block (`00_scope.md`): what its commands may write to the chip. -/

namespace Sys2Proof.Machine

/-- A tame write by the bits of R50 and R52: the clock-halt flag is bit 7 of register 0, 12-hour mode bit 6 of register 2. -/
theorem Event.writesTamely_regWrite_iff (a : Fin 3) (v : Byte) :
    (Event.regWrite a v).WritesTamely ↔
      (a = 0 → v.getLsbD 7 = false) ∧ (a = 2 → v.getLsbD 7 = false ∧ v.getLsbD 6 = false) :=
  and_congr_right' (imp_congr_right fun _ => and_comm)

/-- Settles O53: every operation keeps the trace and appends tame events only (`Kept.trace`), so every command does. -/
theorem everyWrittenByteIsTame : Obligations.EveryWrittenByteIsTame := by
  unfold Obligations.EveryWrittenByteIsTame
  intro i s
  obtain ⟨t, hexec, hkept⟩ := exec_kept i s
  obtain ⟨es, htrace, htame⟩ := hkept.trace
  exact ⟨t, es, hexec, htrace, fun a v hmem => (Event.writesTamely_regWrite_iff a v).mp (htame _ hmem)⟩

end Sys2Proof.Machine
end

section
/-! PROOFS. The units of the block (R2, R22, R25): what DigitBus, ClockChip and ButtonInput commands can change at all. -/

namespace Sys2Proof.Machine

/-! ## DigitBus -/

/-- Only DigitBus's elements, the digit elements, the trace and the result registers differ (R22 to R24). -/
def OnlyDigits (s t : State) : Prop :=
  t = { s with dv := t.dv, le := t.le, disp := t.disp, trace := t.trace, res := t.res, err := t.err }

theorem OnlyDigits.refl (s : State) : OnlyDigits s s := rfl

theorem OnlyDigits.trans {s t u : State} (h : OnlyDigits s t) (k : OnlyDigits t u) : OnlyDigits s u := by
  unfold OnlyDigits at *
  rw [k]
  rw [h]

theorem OnlyDigits.conclude {s : State} {r : Attempt Word} (h : OnlyDigits s r.final) : OnlyDigits s (conclude r) := by
  cases r with
  | done w t => exact h.trans rfl
  | raised e t => exact h.trans rfl

theorem settle_onlyDigits (s : State) : OnlyDigits s (settle s) := by
  rw [settle_eq]
  rfl

theorem latch_onlyDigits (idx : Int) (s : State) : OnlyDigits s (latch idx s).final := by
  unfold latch
  cases lineOf idx with
  | none => exact .refl s
  | some i => rfl

theorem writeDigit_onlyDigits (v idx : Int) (s : State) : OnlyDigits s (writeDigit v idx s).final :=
  have hnibble : OnlyDigits s (writeNibble v s) := rfl
  Attempt.final_andThen (OnlyDigits s) ((hnibble.trans (settle_onlyDigits _)).trans (latch_onlyDigits idx _)) fun _ _ h => h

theorem writeNumber_onlyDigits (n : Int) (s : State) : OnlyDigits s (writeNumber n s) := by
  rw [writeNumber_rendered]
  rfl

theorem render_onlyDigits (s : State) : OnlyDigits s (render s) := writeNumber_onlyDigits _ s

theorem exec_onlyDigits {i : Instr} {s t : State} (hu : blockUnitOf i = .digitBus) (h : exec i s = .next t) :
    OnlyDigits s t := by
  cases i with
  | wrnib v =>
    obtain rfl := Host.Outcome.next.inj h
    rfl
  | latch idx =>
    obtain rfl := Host.Outcome.next.inj h
    exact .conclude (Attempt.final_andThen (OnlyDigits s) (latch_onlyDigits idx s) fun _ _ ht => ht)
  | wrdig v idx =>
    obtain rfl := Host.Outcome.next.inj h
    exact .conclude (Attempt.final_andThen (OnlyDigits s) (writeDigit_onlyDigits v idx s) fun _ _ ht => ht)
  | wrnum n =>
    obtain rfl := Host.Outcome.next.inj h
    exact (writeNumber_onlyDigits n s).trans rfl
  | lastv =>
    obtain rfl := Host.Outcome.next.inj h
    rfl
  | _ => cases hu

/-! ## ClockChip -/

/-- Only the chip's registers, the environment's script, the trace and the result registers differ (R45, R53). -/
def OnlyChip (s t : State) : Prop :=
  t = { s with rtc := t.rtc, turns := t.turns, draws := t.draws, trace := t.trace, res := t.res, err := t.err }

theorem OnlyTransport.conclude {s : State} {r : Attempt Word} (h : OnlyTransport s r.final) : OnlyChip s (conclude r) := by
  cases r with
  | done w t => exact congrArg (complete w) h
  | raised e t => exact congrArg (takeError e) h

theorem OnlyTransport.concludePlain {s : State} {r : Attempt Unit} (h : OnlyTransport s r.final) :
    OnlyChip s (concludePlain r) :=
  OnlyTransport.conclude (Attempt.final_andThen (OnlyTransport s) h fun _ _ ht => ht)

theorem exec_onlyChip {i : Instr} {s t : State} (hu : blockUnitOf i = .clockChip) (h : exec i s = .next t) :
    OnlyChip s t := by
  cases i with
  | rtcinit =>
    obtain rfl := Host.Outcome.next.inj h
    exact (rtcInit_only s).concludePlain
  | dechr raw =>
    obtain rfl := Host.Outcome.next.inj h
    rfl
  | gettime =>
    obtain rfl := Host.Outcome.next.inj h
    exact OnlyTransport.conclude (Attempt.final_andThen (OnlyTransport s) (getTime_only s) fun _ _ ht => ht)
  | settime hour minute sec =>
    obtain rfl := Host.Outcome.next.inj h
    exact (setTime_only hour minute sec s).concludePlain
  | _ => cases hu

/-! ## ButtonInput -/

/-- Only button `b`, the trace and the result registers differ (R25, R120). -/
def OnlyButton (b : Button) (s t : State) : Prop :=
  t = { s.setButton b (t.button b) with trace := t.trace, res := t.res, err := t.err }

/-- The commands of ButtonInput (R73). -/
theorem blockUnitOf_eq_buttonInput {i : Instr} (hu : blockUnitOf i = .buttonInput) : ∃ b, i = .btnrst b ∨ i = .btnproc b := by
  cases i with
  | btnrst b => exact ⟨b, .inl rfl⟩
  | btnproc b => exact ⟨b, .inr rfl⟩
  | _ => cases hu

theorem exec_onlyButton {i : Instr} {b : Button} {s t : State} (hi : i = .btnrst b ∨ i = .btnproc b)
    (h : exec i s = .next t) : OnlyButton b s t := by
  obtain rfl | rfl := hi
  · obtain rfl := Host.Outcome.next.inj h
    cases b <;> rfl
  · rw [exec_btnproc] at h
    obtain rfl := Host.Outcome.next.inj h
    cases b <;> rfl

/-- Settles O54: configuration, ports and host are clauses of `Kept`, the rest is the frame of each unit. -/
theorem unitsKeepToTheirState : Obligations.UnitsKeepToTheirState := by
  unfold Obligations.UnitsKeepToTheirState
  intro i s
  obtain ⟨t, h, hk⟩ := exec_kept i s
  exact ⟨t, h, hk.cfg, hk.host, hk.cmd, hk.now, hk.pinH, hk.pinM, hk.resets, fun hu => exec_onlyDigits hu h,
    fun hu => exec_onlyChip hu h, fun _ hi => exec_onlyButton hi h⟩

/-! ## The controller's elements -/

/-- The controller's own elements stand as they were (R27 to R29). -/
structure KeepsController (s t : State) : Prop where
  running : t.running = s.running
  hour : t.hour = s.hour
  minute : t.minute = s.minute
  lastRecon : t.lastRecon = s.lastRecon

theorem OnlyTransport.keepsController {s t : State} (h : OnlyTransport s t) : KeepsController s t := by
  unfold OnlyTransport at h
  rw [h]
  exact ⟨rfl, rfl, rfl, rfl⟩

theorem OnlyDigits.keepsController {s t : State} (h : OnlyDigits s t) : KeepsController s t := by
  unfold OnlyDigits at h
  rw [h]
  exact ⟨rfl, rfl, rfl, rfl⟩

theorem OnlyChip.keepsController {s t : State} (h : OnlyChip s t) : KeepsController s t := by
  unfold OnlyChip at h
  rw [h]
  exact ⟨rfl, rfl, rfl, rfl⟩

theorem OnlyButton.keepsController {b : Button} {s t : State} (h : OnlyButton b s t) : KeepsController s t := by
  unfold OnlyButton at h
  rw [h]
  cases b <;> exact ⟨rfl, rfl, rfl, rfl⟩

/-- Only ClockController's commands change the controller's elements. -/
theorem exec_keepsController {i : Instr} {s t : State} (hu : blockUnitOf i ≠ .clockController) (h : exec i s = .next t) :
    KeepsController s t := by
  cases hi : blockUnitOf i with
  | digitBus => exact (exec_onlyDigits hi h).keepsController
  | clockChip => exact (exec_onlyChip hi h).keepsController
  | buttonInput =>
    obtain ⟨b, hb⟩ := blockUnitOf_eq_buttonInput hi
    exact (exec_onlyButton hb h).keepsController
  | clockController => exact absurd hi hu

end Sys2Proof.Machine
end

section
/-! PROOFS. The phase (R27, R141, R142): what a command can do to a stopped block, and what a completed `START` leaves. -/

namespace Sys2Proof.Machine

/-- What a completed `START` leaves (R142): the block runs, the mirror is in the range of R42 (d), the display shows it. -/
structure Started (t : State) : Prop where
  running : t.running = true
  mirror : t.hour ≤ 45 ∧ t.minute ≤ 165
  display : t.ShowsMirror

/-- The body of `START` fails and leaves the controller's elements, or completes (R142, R143). -/
theorem startUp_cases (s : State) :
    (∃ e t, startUp s = .raised e t ∧ KeepsController s t) ∨ ∃ t, startUp s = .done () t ∧ Started t := by
  have hinit := (rtcInit_only s).keepsController
  unfold startUp
  cases hr : rtcInit s with
  | raised e t =>
    rw [hr] at hinit
    exact .inl ⟨e, t, rfl, hinit⟩
  | done a t =>
    rw [hr] at hinit
    have hget := (getTime_only (resetButton .minute (resetButton .hour t))).keepsController
    rw [Attempt.andThen_done]
    cases hg : getTime (resetButton .minute (resetButton .hour t)) with
    | raised e u =>
      rw [hg] at hget
      exact .inl ⟨e, u, rfl, hget.running.trans hinit.running, hget.hour.trans hinit.hour,
        hget.minute.trans hinit.minute, hget.lastRecon.trans hinit.lastRecon⟩
    | done x u =>
      obtain ⟨r0, r1, r2, rfl⟩ := getTime_decodes hg
      have hmirror := (render_onlyDigits (u.setMirror (decodeHours r2) (bcd2dec r1))).keepsController
      exact .inr ⟨_, rfl, rfl, ⟨hmirror.hour.trans_le (decodeHours_le r2), hmirror.minute.trans_le (bcd2dec_le r1)⟩,
        render_showsMirror (u.setMirror (decodeHours r2) (bcd2dec r1))⟩

theorem concludePlain_whileRunning_stopped {s : State} (hr : s.running = false) (body : State → Attempt Unit) :
    concludePlain (whileRunning body s) = takeError .illegalCommand s := by
  rw [whileRunning_stopped hr, concludePlain_raised]

/-- A controller command but `START` is refused by a stopped block (R141). -/
theorem exec_refused_of_stopped {i : Instr} {s : State} (hr : s.running = false) (hu : blockUnitOf i = .clockController)
    (hi : i ≠ .start) : exec i s = .next (takeError .illegalCommand s) := by
  cases i with
  | start => exact absurd rfl hi
  | tick => exact congrArg Host.Outcome.next (concludePlain_whileRunning_stopped hr _)
  | inch => exact congrArg Host.Outcome.next (concludePlain_whileRunning_stopped hr _)
  | incm => exact congrArg Host.Outcome.next (concludePlain_whileRunning_stopped hr _)
  | recon => exact congrArg Host.Outcome.next (concludePlain_whileRunning_stopped hr _)
  | _ => cases hu

/-- A stopped block keeps the controller's elements, unless `START` completes. -/
theorem exec_of_stopped {i : Instr} {s t : State} (hr : s.running = false) (h : exec i s = .next t) :
    KeepsController s t ∨ Started t := by
  by_cases hu : blockUnitOf i = .clockController
  · by_cases hi : i = .start
    · subst hi
      obtain rfl := Host.Outcome.next.inj h
      rw [whileStopped_stopped hr]
      obtain ⟨e, u, hs, hk⟩ | ⟨u, hs, hd⟩ := startUp_cases s
      · rw [hs]
        exact .inl ⟨hk.running, hk.hour, hk.minute, hk.lastRecon⟩
      · rw [hs]
        exact .inr ⟨hd.running, hd.mirror, hd.display⟩
    · rw [exec_refused_of_stopped hr hu hi] at h
      obtain rfl := Host.Outcome.next.inj h
      exact .inl ⟨rfl, rfl, rfl, rfl⟩
  · exact .inl (exec_keepsController hu h)

end Sys2Proof.Machine
end

section
/-! PROOFS. The invariant (R42): it holds after every reset, and every step keeps it. -/

namespace Sys2Proof.Machine

/-! ## After a reset -/

/-- A button that is `Idle` has no schedule to meet. -/
theorem ButtonState.atReset_scheduled (cfg : Cfg) (down next : Nat) : (ButtonState.atReset down next).Scheduled cfg :=
  fun h => nomatch h

/-- `rst` brings about every clause of the invariant but those on the chip, which it spares (R192). -/
theorem State.Inv.assertReset {s : State} (h : s.Inv) (digits : Option (Vector Nibble 4)) : (s.assertReset digits).Inv where
  linesLow := rfl
  hourButton := ButtonState.atReset_scheduled _ _ _
  minuteButton := ButtonState.atReset_scheduled _ _ _
  mirror := fun hr => nomatch hr
  noRecon := fun _ => rfl
  failedResult := fun _ => rfl
  chipCanonical := h.chipCanonical
  chipRegisters := h.chipRegisters

/-- Settles O50: at power-up the lines are low, the buttons idle, the block stopped, and the chip lists nothing. -/
theorem invariantHoldsAtReset : Obligations.InvariantHoldsAtReset where
  linesLow := rfl
  hourButton := ButtonState.atReset_scheduled _ _ _
  minuteButton := ButtonState.atReset_scheduled _ _ _
  mirror := fun hr => nomatch hr
  noRecon := fun _ => rfl
  failedResult := fun _ => rfl
  chipCanonical := rfl
  chipRegisters := fun _ hc => nomatch hc

/-! ## Over a command -/

/-- Every command ends once, completed or failed (R16). -/
theorem exec_conclude (i : Instr) (s : State) : ∃ r, exec i s = .next (conclude r) := by
  cases i with
  | wrnib v => exact ⟨.done _ _, rfl⟩
  | wrnum n => exact ⟨.done _ _, rfl⟩
  | lastv => exact ⟨.done _ _, rfl⟩
  | dechr raw => exact ⟨.done _ _, rfl⟩
  | btnrst b => exact ⟨.done _ _, rfl⟩
  | btnproc b => exact ⟨.done _ _, rfl⟩
  | _ => exact ⟨_, rfl⟩

/-- A failed command leaves `RES` = 0 (R35, R171). -/
theorem exec_failedResult {i : Instr} {s t : State} (h : exec i s = .next t) (herr : t.err ≠ 0#2) : t.res = 0#32 := by
  obtain ⟨r, hr⟩ := exec_conclude i s
  rw [hr] at h
  obtain rfl := Host.Outcome.next.inj h
  cases r with
  | done w u => exact absurd rfl herr
  | raised e u => rfl

/-- The clauses of the phase, R42 (d) and `noRecon`: of a running block by `Kept`, of a stopped one because it either
stays as it is or completes `START`. -/
theorem exec_phase {i : Instr} {s t : State} (h : s.Inv) (hk : Kept s t) (he : exec i s = .next t) :
    (t.running = true → t.hour ≤ 45 ∧ t.minute ≤ 165) ∧ (t.running = false → t.lastRecon = none) := by
  cases hr : s.running with
  | true =>
    have hrun : t.running = true := hk.running hr
    exact ⟨fun _ => hk.mirror (h.mirror hr), fun hstop => absurd hstop (by simp [hrun])⟩
  | false =>
    obtain hsame | hstarted := exec_of_stopped hr he
    · have hstop : t.running = false := hsame.running.trans hr
      exact ⟨fun hrun => absurd hrun (by simp [hstop]), fun _ => hsame.lastRecon.trans (h.noRecon hr)⟩
    · exact ⟨fun _ => hstarted.mirror, fun hstop => absurd hstop (by simp [hstarted.running])⟩

/-- Every command keeps the invariant: `Kept` says it of all clauses but those of the phase and of the result. -/
theorem exec_inv {i : Instr} {s t : State} (h : s.Inv) (he : exec i s = .next t) : t.Inv := by
  obtain ⟨t', he', hk⟩ := exec_kept i s
  obtain rfl : t' = t := Host.Outcome.next.inj (he'.symm.trans he)
  obtain ⟨hmirror, hrecon⟩ := exec_phase h hk he
  exact {
    linesLow := hk.lines h.linesLow
    hourButton := hk.cfg ▸ hk.hourButton h.hourButton
    minuteButton := hk.cfg ▸ hk.minuteButton h.minuteButton
    mirror := hmirror
    noRecon := hrecon
    failedResult := exec_failedResult he
    chipCanonical := hk.chipCanonical h.chipCanonical
    chipRegisters := hk.chipRegisters h.chipRegisters }

/-! ## Over a step -/

/-- The invariant does not speak of the host's list, the ports or the script. -/
theorem State.Inv.presented {s : State} (h : s.Inv) (c : Presented) (rest : List HostInput) :
    (({ s with host := rest }).present c).Inv :=
  ⟨h.linesLow, h.hourButton, h.minuteButton, h.mirror, h.noRecon, h.failedResult, h.chipCanonical, h.chipRegisters⟩

theorem State.Inv.refuseWord {s : State} (h : s.Inv) : (refuseWord s).Inv :=
  ⟨h.linesLow, h.hourButton, h.minuteButton, h.mirror, h.noRecon, fun _ => rfl, h.chipCanonical, h.chipRegisters⟩

/-- The same for the list alone, which is all that `rst` and a power cycle use up. -/
theorem State.Inv.withHost {s : State} (h : s.Inv) (rest : List HostInput) : ({ s with host := rest } : State).Inv :=
  ⟨h.linesLow, h.hourButton, h.minuteButton, h.mirror, h.noRecon, h.failedResult, h.chipCanonical, h.chipRegisters⟩

/-- Settles O49, by the five things a step can be: idle, `rst`, a power cycle, a command, an illegal word. -/
theorem invariantKeptByEveryStep : Obligations.InvariantKeptByEveryStep := by
  unfold Obligations.InvariantKeptByEveryStep
  intro s t h hstep
  obtain ⟨-, rfl⟩ | ⟨digits, rest, -, rfl⟩ | ⟨rest, -, rfl⟩ | ⟨c, rest, i, -, -, he⟩ | ⟨c, rest, r, -, -, rfl⟩ := step_cases hstep
  · exact h
  · exact (h.withHost rest).assertReset digits
  · exact (h.withHost rest).assertReset _
  · exact exec_inv (h.presented c rest) he
  · exact (h.presented c rest).refuseWord

end Sys2Proof.Machine
end

section
/-! PROOFS. The display of a running block (R42 e): only host commands that pulse a latch line part it from the mirror. -/

namespace Sys2Proof.Machine

theorem OnlyChip.disp {s t : State} (h : OnlyChip s t) : t.disp = s.disp := by
  unfold OnlyChip at h
  rw [h]

theorem OnlyButton.disp {b : Button} {s t : State} (h : OnlyButton b s t) : t.disp = s.disp := by
  unfold OnlyButton at h
  rw [h]
  cases b <;> rfl

/-- Outside the controller, only the commands that pulse a latch line change a digit element (R89). -/
theorem exec_disp {i : Instr} {s t : State} (hu : blockUnitOf i ≠ .clockController) (hp : pulsesALine i = false)
    (h : exec i s = .next t) : t.disp = s.disp := by
  cases hi : blockUnitOf i with
  | digitBus =>
    cases i with
    | wrnib v =>
      obtain rfl := Host.Outcome.next.inj h
      rfl
    | lastv =>
      obtain rfl := Host.Outcome.next.inj h
      rfl
    | latch _ => cases hp
    | wrdig _ _ => cases hp
    | wrnum _ => cases hp
    | _ => cases hi
  | clockChip => exact (exec_onlyChip hi h).disp
  | buttonInput =>
    obtain ⟨b, hb⟩ := blockUnitOf_eq_buttonInput hi
    exact (exec_onlyButton hb h).disp
  | clockController => exact absurd hi hu

theorem State.ShowsMirror.concludePlain {r : Attempt Unit} (h : r.final.ShowsMirror) : (concludePlain r).ShowsMirror := by
  cases r with
  | done a t => exact h
  | raised e t => exact h

theorem State.ShowsMirror.catchTransport {r : Attempt Unit} (h : r.final.ShowsMirror) :
    (catchTransport r).final.ShowsMirror := by
  cases r with
  | done a t => exact h
  | raised e t => cases e with
    | transportError => exact h
    | invalidArgument => exact h
    | illegalCommand => exact h

theorem State.ShowsMirror.whileRunning {body : State → Attempt Unit} {s : State} (hs : s.ShowsMirror)
    (hb : (body s).final.ShowsMirror) : (whileRunning body s).final.ShowsMirror := by
  unfold Machine.whileRunning
  split
  · exact hb
  · exact hs

/-- The controller's commands keep the display on the mirror of a running block, failures included. -/
theorem exec_controller_showsMirror {i : Instr} {s t : State} (hr : s.running = true) (hs : s.ShowsMirror)
    (hu : blockUnitOf i = .clockController) (h : exec i s = .next t) : t.ShowsMirror := by
  cases i with
  | start =>
    obtain rfl := Host.Outcome.next.inj h
    rw [whileStopped_running hr]
    exact hs
  | tick =>
    obtain rfl := Host.Outcome.next.inj h
    exact .concludePlain (.whileRunning hs (tickSteps_showsMirror hs).catchTransport)
  | inch =>
    obtain rfl := Host.Outcome.next.inj h
    exact .concludePlain (.whileRunning hs (incHour_showsMirror hs))
  | incm =>
    obtain rfl := Host.Outcome.next.inj h
    exact .concludePlain (.whileRunning hs (incMinute_showsMirror hs))
  | recon =>
    obtain rfl := Host.Outcome.next.inj h
    exact .concludePlain (.whileRunning hs (reconcile_showsMirror hs))
  | _ => cases hu

/-- A command that pulses no latch line for the host keeps the display of a running block on its mirror; a completed
`START` puts it there. -/
theorem exec_showsMirror {i : Instr} {s t : State} (hs : s.running = true → s.ShowsMirror) (hp : pulsesALine i = false)
    (h : exec i s = .next t) (ht : t.running = true) : t.ShowsMirror := by
  cases hr : s.running with
  | false =>
    obtain hsame | hstarted := exec_of_stopped hr h
    · exact absurd ht (by simp [hsame.running, hr])
    · exact hstarted.display
  | true =>
    by_cases hu : blockUnitOf i = .clockController
    · exact exec_controller_showsMirror hr (hs hr) hu h
    · have hk := exec_keepsController hu h
      exact (hs hr).congr (exec_disp hu hp h) hk.hour hk.minute

/-- Settles O51: a reset block does not run, and a command is `exec_showsMirror`. -/
theorem displayFollowsTheMirror : Obligations.DisplayFollowsTheMirror := by
  unfold Obligations.DisplayFollowsTheMirror
  intro s t hs hstep hp ht
  obtain ⟨-, rfl⟩ | ⟨digits, rest, -, rfl⟩ | ⟨rest, -, rfl⟩ | ⟨c, rest, i, hc, hd, he⟩ | ⟨c, rest, r, -, -, rfl⟩ := step_cases hstep
  · exact hs ht
  · exact nomatch ht
  · exact nomatch ht
  · exact exec_showsMirror (s := ({ s with host := rest }).present c) hs (hp c rest i hc hd) he ht
  · exact hs ht

end Sys2Proof.Machine
end

section
/-! PROOFS. Steps and reset (R34, R41, R192): presented commands, the reset table, and what only a reset clears. -/

namespace Sys2Proof.Machine

/-- `rst` uses up its input and does nothing else but reset. -/
theorem step_reset {s : State} {digits : Option (Vector Nibble 4)} {rest : List HostInput} (h : s.host = .reset digits :: rest) :
    step s = .next (({ s with host := rest }).assertReset digits) := by
  simp only [step, h]

/-- Settles O10, by the laws of `State.assertReset`. -/
theorem assertedResetPutsTheTable : Obligations.AssertedResetPutsTheTable := by
  unfold Obligations.AssertedResetPutsTheTable
  intro s digits rest h
  exact ⟨_, step_reset h, fun i => Vector.getElem_replicate i.isLt, rfl, rfl, rfl, rfl, rfl, rfl, rfl, rfl, rfl, rfl, rfl, rfl⟩

/-- Settles O52: a command is `Kept`, an idle step and an illegal word leave both bits, and the rest is excluded. -/
theorem onlyResetClearsRunningAndTerr : Obligations.OnlyResetClearsRunningAndTerr := by
  unfold Obligations.OnlyResetClearsRunningAndTerr
  intro s t hreset hpower hstep
  obtain ⟨-, rfl⟩ | ⟨digits, rest, hh, -⟩ | ⟨rest, hh, -⟩ | ⟨c, rest, i, -, -, he⟩ | ⟨c, rest, r, -, -, rfl⟩ := step_cases hstep
  · exact ⟨id, id⟩
  · exact absurd hh (hreset digits rest)
  · exact absurd hh (hpower rest)
  · obtain ⟨u, he', hk⟩ := exec_kept i (({ s with host := rest }).present c)
    obtain rfl : u = t := Host.Outcome.next.inj (he'.symm.trans he)
    exact ⟨hk.running, hk.terr⟩
  · exact ⟨id, id⟩

/-- Settles O6: it is `step_command`, with the presented state written out. -/
theorem stepRunsTheDecodedCommand : Obligations.StepRunsTheDecodedCommand := by
  unfold Obligations.StepRunsTheDecodedCommand
  intro s c rest i hh hd
  exact step_command hh hd

/-- Settles O9: every specified element of the table is written out in `State.reset`. -/
theorem resetValuesAreTheTable : Obligations.ResetValuesAreTheTable := by
  unfold Obligations.ResetValuesAreTheTable
  exact ⟨fun i => Vector.getElem_replicate i.isLt, rfl, rfl, rfl, rfl, rfl, rfl, rfl, rfl⟩

end Sys2Proof.Machine
end

section
/-! PROOFS. The chip's registers (R48, R60 b): where the environment changes none of them by itself, a command
leaves in them what it wrote. `FollowsWrites` is shown for the remaining operations, then once for every command. -/

namespace Sys2Proof.Machine

/-! ## Events that write nothing -/

theorem Event.isWriteTo_of_noTransaction {e : Event} (h : e.isTransaction = false) (a : Fin 3) : e.isWriteTo a = false := by
  cases e with
  | regWrite b v => cases h
  | regFail dir b => cases h
  | _ => rfl

/-- The settle event is part of a digit write (R90). -/
theorem settleEvents_noTransaction (cfg : Cfg) : ∀ e ∈ settleEvents cfg, e.isTransaction = false :=
  fun e he => digitEvents_noTransaction cfg 0#4 0 e (by simp [digitEvents, he])

/-- A pulse is part of a digit write (R90). -/
theorem pulseEvents_noTransaction (cfg : Cfg) (i : Fin 4) : ∀ e ∈ pulseEvents cfg i, e.isTransaction = false :=
  fun e he => digitEvents_noTransaction cfg 0#4 i e (by simp [digitEvents, he])

/-! ## DigitBus and ButtonInput -/

theorem FollowsWrites.writeNibble (v : Int) (s : State) : FollowsWrites 0 s (.done () (writeNibble v s)) :=
  .silent (t := Machine.writeNibble v s) [.data (nibbleOf v)] rfl rfl rfl (fun _ he _ => List.mem_singleton.mp he ▸ rfl) 0

theorem FollowsWrites.settle (s : State) : FollowsWrites 0 s (.done () (settle s)) :=
  .silent (t := Machine.settle s) (settleEvents s.cfg) (by rw [settle_eq]) (by rw [settle_eq]) (by rw [settle_eq])
    (fun e he => Event.isWriteTo_of_noTransaction (settleEvents_noTransaction s.cfg e he)) 0

theorem FollowsWrites.pulse (i : Fin 4) (s : State) : FollowsWrites 0 s (.done () (pulse i s)) :=
  .silent (t := Machine.pulse i s) (pulseEvents s.cfg i) (by rw [pulse_eq]) (by rw [pulse_eq]) (by rw [pulse_eq])
    (fun e he => Event.isWriteTo_of_noTransaction (pulseEvents_noTransaction s.cfg i e he)) 0

theorem FollowsWrites.latch (idx : Int) (s : State) : FollowsWrites 0 s (latch idx s) := by
  unfold Machine.latch
  cases lineOf idx with
  | none => exact .refused _ s 0
  | some i => exact .pulse i s

/-- `writeDigit` applies, settles and latches (R90). -/
theorem FollowsWrites.writeDigit (v idx : Int) (s : State) : FollowsWrites 0 s (writeDigit v idx s) :=
  have hsettled : FollowsWrites 0 s (.done () (Machine.settle (Machine.writeNibble v s))) :=
    (FollowsWrites.writeNibble v s).andThen (m := 0) (f := fun _ t => .done () (Machine.settle t)) fun _ t => .settle t
  have hlatched : FollowsWrites 0 s (Machine.latch idx (Machine.settle (Machine.writeNibble v s))) :=
    hsettled.andThen (m := 0) (f := fun _ t => Machine.latch idx t) fun _ t => .latch idx t
  hlatched.andThen (m := 0) fun _ t => .refl _ t 0

theorem FollowsWrites.writeNumber (n : Int) (s : State) : FollowsWrites 0 s (.done () (writeNumber n s)) := by
  rw [writeNumber_rendered]
  exact .rendered _ rfl rfl rfl

theorem FollowsWrites.resetButton (b : Button) (s : State) : FollowsWrites 0 s (.done () (resetButton b s)) :=
  .silent [] (by cases b <;> simp [Machine.resetButton]) (by cases b <;> rfl) (by cases b <;> rfl) (fun _ he => nomatch he) 0

/-! ## Every command -/

/-- A command whose pseudocode `r` follows its writes ends as `r` does, with `result` of what `r` answers. -/
theorem FollowsWrites.command {α : Type} {k : Nat} {i : Instr} {s : State} {r : Attempt α} (h : FollowsWrites k s r)
    (result : α → Word) (hexec : exec i s = .next (conclude (r.andThen fun x t => .done (result x) t)))
    (hk : k ≤ 9 := by decide) : ∃ q, exec i s = .next (conclude q) ∧ FollowsWrites 9 s q :=
  ⟨_, hexec, (h.andThen (m := 0) fun _ t => .refl _ t 0).mono hk⟩

/-- Every command takes at most nine moves of the environment, and its registers hold what its events say. -/
theorem exec_followsWrites (i : Instr) (s : State) : ∃ q, exec i s = .next (conclude q) ∧ FollowsWrites 9 s q := by
  cases i with
  | wrnib v => exact (FollowsWrites.writeNibble v s).command (fun _ => resultNibble (nibbleOf v)) rfl
  | latch idx => exact (FollowsWrites.latch idx s).command (fun _ => 0#32) rfl
  | wrdig v idx => exact (FollowsWrites.writeDigit v idx s).command resultNibble rfl
  | wrnum n => exact (FollowsWrites.writeNumber n s).command (fun _ => 0#32) rfl
  | lastv => exact (FollowsWrites.refl () s 0).command (fun _ => resultNibble s.dv) rfl
  | rtcinit => exact (FollowsWrites.rtcInit s).command (fun _ => 0#32) rfl
  | dechr raw => exact (FollowsWrites.refl () s 0).command (fun _ => resultHour (decodeHours raw)) rfl
  | gettime => exact (FollowsWrites.getTime s).command resultTime rfl
  | settime h m sec => exact (FollowsWrites.setTime h m sec s).command (fun _ => 0#32) rfl
  | btnrst b => exact (FollowsWrites.resetButton b s).command (fun _ => 0#32) rfl
  | btnproc b => exact (FollowsWrites.process b s.now s).command (fun _ => resultFiring (firing b s.now s)) rfl
  | start =>
    have h : FollowsWrites 9 s (startUp s) := (FollowsWrites.startUp s).mono (by decide)
    exact h.whileStopped.command (fun _ => 0#32) rfl
  | tick =>
    have h : FollowsWrites 9 s (catchTransport (tickSteps s.now s)) := (FollowsWrites.tickSteps s.now s).catchTransport
    exact (h.whileRunning (f := fun s => catchTransport (tickSteps s.now s))).command (fun _ => 0#32) rfl
  | inch =>
    have h : FollowsWrites 9 s (incHour s) := (FollowsWrites.incHour s).mono (by decide)
    exact h.whileRunning.command (fun _ => 0#32) rfl
  | incm =>
    have h : FollowsWrites 9 s (incMinute s) := (FollowsWrites.incMinute s).mono (by decide)
    exact h.whileRunning.command (fun _ => 0#32) rfl
  | recon =>
    have h : FollowsWrites 9 s (reconcile s.now s) := (FollowsWrites.reconcile s.now s).mono (by decide)
    exact (h.whileRunning (f := fun s => reconcile s.now s)).command (fun _ => 0#32) rfl

/-- Settles O55: what a command does follows its writes (`exec_followsWrites`), and its end touches neither the trace
nor the chip (`conclude_eq`). -/
theorem registersHoldWhatWasLastWritten : Obligations.RegistersHoldWhatWasLastWritten := by
  unfold Obligations.RegistersHoldWhatWasLastWritten
  intro i s a huntouched
  obtain ⟨q, hexec, hfollows⟩ := exec_followsWrites i s
  obtain ⟨-, es, htrace, hheld⟩ := hfollows 0 a (by rwa [Nat.zero_add])
  have htraceEnd : (conclude q).trace = q.final.trace := by rw [conclude_eq]
  have hrtcEnd : (conclude q).rtc = q.final.rtc := by rw [conclude_eq]
  refine ⟨conclude q, es, hexec, htraceEnd.trans htrace, fun v hv => ?_⟩
  exact (State.chipByte_congr hrtcEnd a).trans (hheld _ v (fun w hw => Option.some.inj hw) hv)

end Sys2Proof.Machine
end

section
/-! PROOFS. The command encoding (`30_encoding.md`): what a word is by its bits, the two round trips, and R73's table.
A word is built from its fields (`eq_word…_iff`), and a row's mask selects the opcode and the reserved bits of its
format (`and_mask…_eq_iff`). -/

namespace Sys2Proof

/-! ## Bits: a range of bits that is two pieces, a mask of leading ones -/

theorem append_eq_append_iff {a b : Nat} {x x' : BitVec a} {y y' : BitVec b} :
    x ++ y = x' ++ y' ↔ x = x' ∧ y = y' := by
  constructor
  · intro h
    have hx := congrArg (BitVec.extractLsb' b a) h
    have hy := congrArg (BitVec.extractLsb' 0 b) h
    rw [BitVec.extractLsb'_append_eq_left, BitVec.extractLsb'_append_eq_left] at hx
    rw [BitVec.extractLsb'_append_eq_right, BitVec.extractLsb'_append_eq_right] at hy
    exact ⟨hx, hy⟩
  · rintro ⟨rfl, rfl⟩
    rfl

theorem extractLsb'_eq_append_iff {n a b : Nat} (w : BitVec n) (lo : Nat) (x : BitVec a) (y : BitVec b) :
    w.extractLsb' lo (a + b) = x ++ y ↔ w.extractLsb' (lo + b) a = x ∧ w.extractLsb' lo b = y := by
  rw [← BitVec.extractLsb'_append_extractLsb'_eq_extractLsb' rfl, append_eq_append_iff]

/-- A whole word is two pieces. -/
theorem eq_append_iff {a b : Nat} (w : BitVec (a + b)) (x : BitVec a) (y : BitVec b) :
    w = x ++ y ↔ w.extractLsb' b a = x ∧ w.extractLsb' 0 b = y := by
  have h := extractLsb'_eq_append_iff w 0 x y
  rwa [BitVec.extractLsb'_eq_self, Nat.zero_add] at h

/-- Masking with ones above bit `b` keeps the bits from `b` on. -/
theorem and_allOnes_append_eq_iff {a b : Nat} (w : BitVec (a + b)) (x : BitVec a) :
    w &&& (BitVec.allOnes a ++ 0#b) = x ++ 0#b ↔ w.extractLsb' b a = x := by
  have hw : w = w.extractLsb' b a ++ w.extractLsb' 0 b := (eq_append_iff w _ _).mpr ⟨rfl, rfl⟩
  have hand : w &&& (BitVec.allOnes a ++ 0#b) = w.extractLsb' b a ++ 0#b := by
    conv_lhs => rw [hw, BitVec.and_append, BitVec.and_allOnes, BitVec.and_zero]
  rw [hand, BitVec.append_left_inj]

/-! ## A word is an encoding if and only if its opcode, its reserved bits and its fields are the encoding's -/

theorem reservedZ_iff (w : Word) : reservedZ w = true ↔ w.extractLsb' 0 24 = 0#24 := beq_iff_eq
theorem reservedV_iff (w : Word) : reservedV w = true ↔ w.extractLsb' 8 16 = 0#16 := beq_iff_eq
theorem reservedDW_iff (w : Word) : reservedDW w = true ↔ w.extractLsb' 16 8 = 0#8 := beq_iff_eq
theorem reservedB_iff (w : Word) : reservedB w = true ↔ w.extractLsb' 1 23 = 0#23 := beq_iff_eq

/-- Format Z (R66). -/
theorem eq_wordZ_iff (w : Word) (op : Byte) : w = wordZ op ↔ opcodeOf w = op ∧ reservedZ w = true := by
  rw [reservedZ_iff]
  exact eq_append_iff (a := 8) (b := 24) w op 0#24

/-- Format V (R67). -/
theorem eq_wordV_iff (w : Word) (op v : Byte) :
    w = wordV op v ↔ opcodeOf w = op ∧ reservedV w = true ∧ w.extractLsb' 0 8 = v := by
  rw [reservedV_iff]
  exact (eq_append_iff (a := 8) (b := 24) w op _).trans
    (and_congr_right' (extractLsb'_eq_append_iff (a := 16) (b := 8) w 0 0#16 v))

/-- Format DV (R68). -/
theorem eq_wordDV_iff (w : Word) (op idx v : Byte) :
    w = wordDV op idx v ↔
      opcodeOf w = op ∧ reservedDW w = true ∧ w.extractLsb' 8 8 = idx ∧ w.extractLsb' 0 8 = v := by
  rw [reservedDW_iff]
  exact (eq_append_iff (a := 8) (b := 24) w op _).trans
    (and_congr_right' ((extractLsb'_eq_append_iff (a := 8) (b := 16) w 0 0#8 _).trans
      (and_congr_right' (extractLsb'_eq_append_iff (a := 8) (b := 8) w 0 idx v))))

/-- Format W (R69). -/
theorem eq_wordW_iff (w : Word) (op : Byte) (n : BitVec 16) :
    w = wordW op n ↔ opcodeOf w = op ∧ reservedDW w = true ∧ w.extractLsb' 0 16 = n := by
  rw [reservedDW_iff]
  exact (eq_append_iff (a := 8) (b := 24) w op _).trans
    (and_congr_right' (extractLsb'_eq_append_iff (a := 8) (b := 16) w 0 0#8 n))

/-- Format T (R70): no reserved bit. -/
theorem eq_wordT_iff (w : Word) (op h m s : Byte) :
    w = wordT op h m s ↔
      opcodeOf w = op ∧ w.extractLsb' 16 8 = h ∧ w.extractLsb' 8 8 = m ∧ w.extractLsb' 0 8 = s :=
  (eq_append_iff (a := 8) (b := 24) w op _).trans
    (and_congr_right' ((extractLsb'_eq_append_iff (a := 8) (b := 16) w 0 h _).trans
      (and_congr_right' (extractLsb'_eq_append_iff (a := 8) (b := 8) w 0 m s))))

/-- The button that bit 0 names (R71). -/
theorem bit_eq_buttonField (w : Word) : (buttonField w).bit = w.extractLsb' 0 1 := by
  refine BitVec.eq_of_getLsbD_eq_iff.mpr fun i hi => ?_
  obtain rfl : i = 0 := by omega
  rw [BitVec.getLsbD_extractLsb', buttonField]
  change _ = (true && w.getLsbD 0)
  cases w.getLsbD 0
  · rfl
  · rfl

theorem Button.bit_inj {b b' : Button} : b.bit = b'.bit ↔ b = b' := by
  cases b <;> cases b' <;> decide

/-- Format B (R71). -/
theorem eq_wordB_iff (w : Word) (op : Byte) (b : Button) :
    w = wordB op b ↔ opcodeOf w = op ∧ reservedB w = true ∧ buttonField w = b := by
  rw [reservedB_iff, ← Button.bit_inj, bit_eq_buttonField]
  exact (eq_append_iff (a := 8) (b := 24) w op _).trans
    (and_congr_right' (extractLsb'_eq_append_iff (a := 23) (b := 1) w 0 0#23 b.bit))

/-! ## A word matches a row's value if and only if the opcode is the row's and the format's reserved bits are 0 (R73) -/

/-- A mask of ones down to the lowest of `a` reserved bits selects the opcode and these bits. -/
theorem and_mask_eq_iff {a b : Nat} {w mask value : BitVec (8 + a + b)} {op : Byte}
    (hmask : mask = BitVec.allOnes (8 + a) ++ 0#b) (hvalue : value = (op ++ 0#a) ++ 0#b) :
    w &&& mask = value ↔ w.extractLsb' (b + a) 8 = op ∧ w.extractLsb' b a = 0#a := by
  rw [hmask, hvalue, and_allOnes_append_eq_iff, extractLsb'_eq_append_iff]

theorem and_maskZ_eq_iff (w : Word) (op : Byte) :
    w &&& 0xFFFFFFFF#32 = wordZ op ↔ opcodeOf w = op ∧ reservedZ w = true := by
  rw [← eq_wordZ_iff, show 0xFFFFFFFF#32 = BitVec.allOnes 32 from rfl, BitVec.and_allOnes]

theorem and_maskV_eq_iff (w : Word) (op : Byte) :
    w &&& 0xFFFFFF00#32 = wordZ op ↔ opcodeOf w = op ∧ reservedV w = true := by
  rw [reservedV_iff]
  exact and_mask_eq_iff (a := 16) (b := 8) (by decide) (BitVec.append_assoc (x₂ := 0#16) (x₃ := 0#8)).symm

theorem and_maskDW_eq_iff (w : Word) (op : Byte) :
    w &&& 0xFFFF0000#32 = wordZ op ↔ opcodeOf w = op ∧ reservedDW w = true := by
  rw [reservedDW_iff]
  exact and_mask_eq_iff (a := 8) (b := 16) (by decide) (BitVec.append_assoc (x₂ := 0#8) (x₃ := 0#16)).symm

theorem and_maskB_eq_iff (w : Word) (op : Byte) :
    w &&& 0xFFFFFFFE#32 = wordZ op ↔ opcodeOf w = op ∧ reservedB w = true := by
  rw [reservedB_iff]
  exact and_mask_eq_iff (a := 23) (b := 1) (by decide) (BitVec.append_assoc (x₂ := 0#23) (x₃ := 0#1)).symm

theorem and_maskT_eq_iff (w : Word) (op : Byte) : w &&& 0xFF000000#32 = wordZ op ↔ opcodeOf w = op :=
  and_allOnes_append_eq_iff (a := 8) (b := 24) w op

/-! ## The round trips -/

/-- Settles O1, command by command (`Laws.RoundTrip`). -/
theorem decodeOfEncodeIsTheCommand : Obligations.DecodeOfEncodeIsTheCommand := by
  unfold Obligations.DecodeOfEncodeIsTheCommand
  intro i
  cases i with
  | wrnib v => exact Laws.RoundTrip.wrnib v
  | latch idx => exact Laws.RoundTrip.latch idx
  | wrdig v idx => exact Laws.RoundTrip.wrdig v idx
  | wrnum n => exact Laws.RoundTrip.wrnum n
  | lastv => exact Laws.RoundTrip.lastv
  | rtcinit => exact Laws.RoundTrip.rtcinit
  | dechr raw => exact Laws.RoundTrip.dechr raw
  | gettime => exact Laws.RoundTrip.gettime
  | settime h m s => exact Laws.RoundTrip.settime h m s
  | btnrst b => exact Laws.RoundTrip.btnrst b
  | btnproc b => exact Laws.RoundTrip.btnproc b
  | start => exact Laws.RoundTrip.start
  | tick => exact Laws.RoundTrip.tick
  | inch => exact Laws.RoundTrip.inch
  | incm => exact Laws.RoundTrip.incm
  | recon => exact Laws.RoundTrip.recon

theorem fitsByte_iff (x : Int) : fitsByte x = true ↔ 0 ≤ x ∧ x ≤ 255 := by
  simp [fitsByte]

theorem fitsSigned16_iff (x : Int) : fitsSigned16 x = true ↔ -32768 ≤ x ∧ x ≤ 32767 := by
  simp [fitsSigned16]

theorem fitsByte_byteField (w : Word) (lo : Nat) : fitsByte (byteField w lo) = true := by
  have h : (w.extractLsb' lo 8).toNat < 256 := (w.extractLsb' lo 8).isLt
  rw [fitsByte_iff, byteField, Int.ofNat_eq_natCast]
  omega

theorem fitsSigned16_signedField (w : Word) : fitsSigned16 (signedField w) = true := by
  have hlo : -32768 ≤ signedField w := (w.extractLsb' 0 16).le_toInt
  have hhi : signedField w < 32768 := (w.extractLsb' 0 16).toInt_lt
  rw [fitsSigned16_iff]
  omega

/-- An unsigned field read as a number and written back. -/
theorem ofInt_byteField (w : Word) (lo : Nat) : BitVec.ofInt 8 (byteField w lo) = w.extractLsb' lo 8 := by
  rw [byteField, Int.ofNat_eq_natCast, BitVec.ofInt_natCast, BitVec.ofNat_toNat, BitVec.setWidth_eq]

/-- The signed field read as a number and written back. -/
theorem ofInt_signedField (w : Word) : BitVec.ofInt 16 (signedField w) = w.extractLsb' 0 16 := BitVec.ofInt_toInt

theorem wrdig_fields_wellFormed (w : Word) : (Instr.wrdig (byteField w 0) (byteField w 8)).WellFormed :=
  Bool.and_eq_true_iff.mpr ⟨fitsByte_byteField w 0, fitsByte_byteField w 8⟩

theorem settime_fields_wellFormed (w : Word) :
    (Instr.settime (byteField w 16) (byteField w 8) (byteField w 0)).WellFormed :=
  Bool.and_eq_true_iff.mpr
    ⟨Bool.and_eq_true_iff.mpr ⟨fitsByte_byteField w 16, fitsByte_byteField w 8⟩, fitsByte_byteField w 0⟩

section Rebuilt
/-! A word whose reserved bits are 0 is built again from its opcode and its operands. -/

variable {w : Word} {op : Byte}

theorem wordZ_rebuilt (h : opcodeOf w = op ∧ reservedZ w = true) : wordZ op = w := ((eq_wordZ_iff w op).mpr h).symm

theorem wordV_rebuilt (h : opcodeOf w = op ∧ reservedV w = true) : wordV op (w.extractLsb' 0 8) = w :=
  ((eq_wordV_iff w op _).mpr ⟨h.1, h.2, rfl⟩).symm

theorem wordV_byteField (h : opcodeOf w = op ∧ reservedV w = true) :
    wordV op (BitVec.ofInt 8 (byteField w 0)) = w := by
  rw [ofInt_byteField, wordV_rebuilt h]

theorem wordDV_byteField (h : opcodeOf w = op ∧ reservedDW w = true) :
    wordDV op (BitVec.ofInt 8 (byteField w 8)) (BitVec.ofInt 8 (byteField w 0)) = w :=
  ((eq_wordDV_iff w op _ _).mpr ⟨h.1, h.2, (ofInt_byteField w 8).symm, (ofInt_byteField w 0).symm⟩).symm

theorem wordW_signedField (h : opcodeOf w = op ∧ reservedDW w = true) :
    wordW op (BitVec.ofInt 16 (signedField w)) = w :=
  ((eq_wordW_iff w op _).mpr ⟨h.1, h.2, (ofInt_signedField w).symm⟩).symm

theorem wordT_byteField (h : opcodeOf w = op) :
    wordT op (BitVec.ofInt 8 (byteField w 16)) (BitVec.ofInt 8 (byteField w 8)) (BitVec.ofInt 8 (byteField w 0)) = w :=
  ((eq_wordT_iff w op _ _ _).mpr
    ⟨h, (ofInt_byteField w 16).symm, (ofInt_byteField w 8).symm, (ofInt_byteField w 0).symm⟩).symm

theorem wordB_buttonField (h : opcodeOf w = op ∧ reservedB w = true) : wordB op (buttonField w) = w :=
  ((eq_wordB_iff w op _).mpr ⟨h.1, h.2, rfl⟩).symm

end Rebuilt

/-- A listed command with its reserved bits 0 is what the decoder answers. -/
theorem roundTrip_of_listed {w : Word} {reservedZero : Bool} {i j : Instr} (h : listed w reservedZero j = .ok i)
    (hj : reservedZero = true → j.WellFormed ∧ encode j = w) : i.WellFormed ∧ encode i = w := by
  cases reservedZero with
  | false => cases h
  | true =>
    cases h
    exact hj rfl

/-- Settles O2: a decoded word has its row's opcode and no reserved bit set, and each operand is a field, which is in
range and is written back as it was read. -/
theorem encodeOfDecodeIsTheWord : Obligations.EncodeOfDecodeIsTheWord := by
  unfold Obligations.EncodeOfDecodeIsTheWord
  intro w i h
  unfold decode at h
  split at h
  · next hop => exact roundTrip_of_listed h fun hres => ⟨fitsByte_byteField w 0, wordV_byteField ⟨hop, hres⟩⟩
  · next hop => exact roundTrip_of_listed h fun hres => ⟨fitsByte_byteField w 0, wordV_byteField ⟨hop, hres⟩⟩
  · next hop => exact roundTrip_of_listed h fun hres => ⟨wrdig_fields_wellFormed w, wordDV_byteField ⟨hop, hres⟩⟩
  · next hop => exact roundTrip_of_listed h fun hres => ⟨fitsSigned16_signedField w, wordW_signedField ⟨hop, hres⟩⟩
  · next hop => exact roundTrip_of_listed h fun hres => ⟨rfl, wordZ_rebuilt ⟨hop, hres⟩⟩
  · next hop => exact roundTrip_of_listed h fun hres => ⟨rfl, wordZ_rebuilt ⟨hop, hres⟩⟩
  · next hop => exact roundTrip_of_listed h fun hres => ⟨rfl, wordV_rebuilt ⟨hop, hres⟩⟩
  · next hop => exact roundTrip_of_listed h fun hres => ⟨rfl, wordZ_rebuilt ⟨hop, hres⟩⟩
  · next hop => exact roundTrip_of_listed h fun _ => ⟨settime_fields_wellFormed w, wordT_byteField hop⟩
  · next hop => exact roundTrip_of_listed h fun hres => ⟨rfl, wordB_buttonField ⟨hop, hres⟩⟩
  · next hop => exact roundTrip_of_listed h fun hres => ⟨rfl, wordB_buttonField ⟨hop, hres⟩⟩
  · next hop => exact roundTrip_of_listed h fun hres => ⟨rfl, wordZ_rebuilt ⟨hop, hres⟩⟩
  · next hop => exact roundTrip_of_listed h fun hres => ⟨rfl, wordZ_rebuilt ⟨hop, hres⟩⟩
  · next hop => exact roundTrip_of_listed h fun hres => ⟨rfl, wordZ_rebuilt ⟨hop, hres⟩⟩
  · next hop => exact roundTrip_of_listed h fun hres => ⟨rfl, wordZ_rebuilt ⟨hop, hres⟩⟩
  · next hop => exact roundTrip_of_listed h fun hres => ⟨rfl, wordZ_rebuilt ⟨hop, hres⟩⟩
  · cases h

/-! ## R73's table -/

theorem wordZ_matches (op : Byte) : wordZ op &&& 0xFFFFFFFF#32 = wordZ op :=
  (and_maskZ_eq_iff _ op).mpr ((eq_wordZ_iff _ op).mp rfl)

theorem wordV_matches (op v : Byte) : wordV op v &&& 0xFFFFFF00#32 = wordZ op :=
  (and_maskV_eq_iff _ op).mpr ⟨Laws.wordV_opcode op v, Laws.wordV_reserved op v⟩

theorem wordDV_matches (op idx v : Byte) : wordDV op idx v &&& 0xFFFF0000#32 = wordZ op :=
  (and_maskDW_eq_iff _ op).mpr ⟨Laws.wordDV_opcode op idx v, Laws.wordDV_reserved op idx v⟩

theorem wordW_matches (op : Byte) (n : BitVec 16) : wordW op n &&& 0xFFFF0000#32 = wordZ op :=
  (and_maskDW_eq_iff _ op).mpr ⟨Laws.wordW_opcode op n, Laws.wordW_reserved op n⟩

theorem wordT_matches (op h m s : Byte) : wordT op h m s &&& 0xFF000000#32 = wordZ op :=
  (and_maskT_eq_iff _ op).mpr (Laws.wordT_opcode op h m s)

theorem wordB_matches (op : Byte) (b : Button) : wordB op b &&& 0xFFFFFFFE#32 = wordZ op := by
  obtain ⟨hop, hres, -⟩ := (eq_wordB_iff (wordB op b) op b).mp rfl
  exact (and_maskB_eq_iff _ op).mpr ⟨hop, hres⟩

/-- Every encoding matches the row of its command. -/
theorem encode_matches_row (i : Instr) :
    ∃ r ∈ opcodeTable, r.mnemonic = i.mnemonic ∧ encode i &&& r.mask = r.value := by
  cases i with
  | wrnib v => exact ⟨opcodeTable[0], List.getElem_mem _, rfl, wordV_matches _ _⟩
  | latch idx => exact ⟨opcodeTable[1], List.getElem_mem _, rfl, wordV_matches _ _⟩
  | wrdig v idx => exact ⟨opcodeTable[2], List.getElem_mem _, rfl, wordDV_matches _ _ _⟩
  | wrnum n => exact ⟨opcodeTable[3], List.getElem_mem _, rfl, wordW_matches _ _⟩
  | lastv => exact ⟨opcodeTable[4], List.getElem_mem _, rfl, wordZ_matches _⟩
  | rtcinit => exact ⟨opcodeTable[5], List.getElem_mem _, rfl, wordZ_matches _⟩
  | dechr raw => exact ⟨opcodeTable[6], List.getElem_mem _, rfl, wordV_matches _ _⟩
  | gettime => exact ⟨opcodeTable[7], List.getElem_mem _, rfl, wordZ_matches _⟩
  | settime h m s => exact ⟨opcodeTable[8], List.getElem_mem _, rfl, wordT_matches _ _ _ _⟩
  | btnrst b => exact ⟨opcodeTable[9], List.getElem_mem _, rfl, wordB_matches _ _⟩
  | btnproc b => exact ⟨opcodeTable[10], List.getElem_mem _, rfl, wordB_matches _ _⟩
  | start => exact ⟨opcodeTable[11], List.getElem_mem _, rfl, wordZ_matches _⟩
  | tick => exact ⟨opcodeTable[12], List.getElem_mem _, rfl, wordZ_matches _⟩
  | inch => exact ⟨opcodeTable[13], List.getElem_mem _, rfl, wordZ_matches _⟩
  | incm => exact ⟨opcodeTable[14], List.getElem_mem _, rfl, wordZ_matches _⟩
  | recon => exact ⟨opcodeTable[15], List.getElem_mem _, rfl, wordZ_matches _⟩

/-- A decoded word matches the row of its command. -/
theorem decoded_matches_row {w : Word} {i : Instr} (h : decode w = .ok i) :
    ∃ r ∈ opcodeTable, r.mnemonic = i.mnemonic ∧ w &&& r.mask = r.value := by
  obtain ⟨-, rfl⟩ := encodeOfDecodeIsTheWord w i h
  exact encode_matches_row i

theorem row_eq_of_mnemonic_eq : ∀ r ∈ opcodeTable, ∀ r' ∈ opcodeTable, r.mnemonic = r'.mnemonic → r = r' := by decide

theorem row_eq_of_opcode_eq : ∀ r ∈ opcodeTable, ∀ r' ∈ opcodeTable, opcodeOf r.value = opcodeOf r'.value → r = r' := by
  decide

theorem opcodeOf_mask : ∀ r ∈ opcodeTable, opcodeOf r.mask = BitVec.allOnes 8 := by decide

theorem opcodeOf_of_matches {w : Word} {r : Row} (hr : r ∈ opcodeTable) (h : w &&& r.mask = r.value) :
    opcodeOf w = opcodeOf r.value := by
  rw [← h, opcodeOf, opcodeOf, BitVec.extractLsb'_and]
  change _ = _ &&& opcodeOf r.mask
  rw [opcodeOf_mask r hr, BitVec.and_allOnes]

/-- Settles O4: every mask covers the opcode, and no two rows have the same one. -/
theorem atMostOneRowMatches : Obligations.AtMostOneRowMatches := by
  unfold Obligations.AtMostOneRowMatches
  intro w r r' hr hr' h h'
  exact row_eq_of_opcode_eq r hr r' hr' ((opcodeOf_of_matches hr h).symm.trans (opcodeOf_of_matches hr' h'))

/-- An encoding decodes to a command of its name. -/
theorem decode_of_encode_eq {w : Word} {i : Instr} (hwf : i.WellFormed) (h : encode i = w) :
    ∃ j, decode w = .ok j ∧ j.mnemonic = i.mnemonic :=
  ⟨i, h ▸ decodeOfEncodeIsTheCommand i hwf, rfl⟩

/-- A word that matches a row decodes to the row's command: it is the encoding of the command with its fields. -/
theorem decode_of_matches_row {w : Word} {r : Row} (hr : r ∈ opcodeTable) (h : w &&& r.mask = r.value) :
    ∃ i, decode w = .ok i ∧ i.mnemonic = r.mnemonic := by
  have hbyte := fitsByte_byteField w 0
  simp only [opcodeTable, List.mem_cons, List.not_mem_nil, or_false] at hr
  rcases hr with rfl | rfl | rfl | rfl | rfl | rfl | rfl | rfl | rfl | rfl | rfl | rfl | rfl | rfl | rfl | rfl
  · exact decode_of_encode_eq (i := .wrnib _) hbyte (wordV_byteField ((and_maskV_eq_iff w _).mp h))
  · exact decode_of_encode_eq (i := .latch _) hbyte (wordV_byteField ((and_maskV_eq_iff w _).mp h))
  · exact decode_of_encode_eq (i := .wrdig _ _) (wrdig_fields_wellFormed w)
      (wordDV_byteField ((and_maskDW_eq_iff w _).mp h))
  · exact decode_of_encode_eq (i := .wrnum _) (fitsSigned16_signedField w)
      (wordW_signedField ((and_maskDW_eq_iff w _).mp h))
  · exact decode_of_encode_eq (i := .lastv) rfl (wordZ_rebuilt ((and_maskZ_eq_iff w _).mp h))
  · exact decode_of_encode_eq (i := .rtcinit) rfl (wordZ_rebuilt ((and_maskZ_eq_iff w _).mp h))
  · exact decode_of_encode_eq (i := .dechr _) rfl (wordV_rebuilt ((and_maskV_eq_iff w _).mp h))
  · exact decode_of_encode_eq (i := .gettime) rfl (wordZ_rebuilt ((and_maskZ_eq_iff w _).mp h))
  · exact decode_of_encode_eq (i := .settime _ _ _) (settime_fields_wellFormed w)
      (wordT_byteField ((and_maskT_eq_iff w _).mp h))
  · exact decode_of_encode_eq (i := .btnrst _) rfl (wordB_buttonField ((and_maskB_eq_iff w _).mp h))
  · exact decode_of_encode_eq (i := .btnproc _) rfl (wordB_buttonField ((and_maskB_eq_iff w _).mp h))
  · exact decode_of_encode_eq (i := .start) rfl (wordZ_rebuilt ((and_maskZ_eq_iff w _).mp h))
  · exact decode_of_encode_eq (i := .tick) rfl (wordZ_rebuilt ((and_maskZ_eq_iff w _).mp h))
  · exact decode_of_encode_eq (i := .inch) rfl (wordZ_rebuilt ((and_maskZ_eq_iff w _).mp h))
  · exact decode_of_encode_eq (i := .incm) rfl (wordZ_rebuilt ((and_maskZ_eq_iff w _).mp h))
  · exact decode_of_encode_eq (i := .recon) rfl (wordZ_rebuilt ((and_maskZ_eq_iff w _).mp h))

/-- Settles O3. Left to right, the row that the decoded word matches has the row's mnemonic, so it is that row. -/
theorem wordIsTheCommandIffItMatchesItsRow : Obligations.WordIsTheCommandIffItMatchesItsRow := by
  unfold Obligations.WordIsTheCommandIffItMatchesItsRow
  intro w r hr
  constructor
  · rintro ⟨i, hd, hname⟩
    obtain ⟨r', hr', hname', hmatch⟩ := decoded_matches_row hd
    obtain rfl : r' = r := row_eq_of_mnemonic_eq r' hr' r hr (hname'.trans hname)
    exact hmatch
  · exact decode_of_matches_row hr

/-! ## Illegal words (R75) -/

/-- A word that matches no row decodes to no command. -/
theorem decode_ne_ok_of_no_row {w : Word} (h : ∀ r ∈ opcodeTable, w &&& r.mask ≠ r.value) (i : Instr) :
    decode w ≠ .ok i := by
  intro hd
  obtain ⟨r, hr, -, hmatch⟩ := decoded_matches_row hd
  exact h r hr hmatch

/-- A presented word that decodes to no command is refused, with its inputs on the ports. -/
theorem Machine.step_refused {s : State} {c : Presented} {rest : List HostInput} (h : s.host = .command c :: rest)
    (hd : ∀ i, decode c.word ≠ .ok i) : step s = .next (refuseWord (({ s with host := rest }).present c)) := by
  cases he : decode c.word with
  | ok i => exact absurd he (hd i)
  | error e => simp [step, h, execWord, he, State.present]

/-- Settles O7: such a word decodes to no command, so the step refuses it. -/
theorem illegalWordChangesOnlyTheErrorRegisters : Obligations.IllegalWordChangesOnlyTheErrorRegisters := by
  unfold Obligations.IllegalWordChangesOnlyTheErrorRegisters
  intro s c rest hh hnone
  exact Machine.step_refused hh (decode_ne_ok_of_no_row hnone)

/-- Settles O5: the legal words by running the decoder, the illegal ones because they match no row. -/
theorem workedEncodingsDecode : Obligations.WorkedEncodingsDecode := by
  unfold Obligations.WorkedEncodingsDecode
  exact ⟨rfl, rfl, rfl, rfl, rfl, rfl, rfl, rfl, rfl, rfl, rfl, rfl,
    rfl, rfl, rfl, rfl, rfl, rfl, rfl, rfl, rfl, rfl, rfl, rfl,
    decode_ne_ok_of_no_row (by decide), decode_ne_ok_of_no_row (by decide), decode_ne_ok_of_no_row (by decide),
    decode_ne_ok_of_no_row (by decide)⟩

end Sys2Proof
end

section
/-! PROOFS. DigitBus (`40_digitbus.md`): what its five commands leave, failures included. -/

namespace Sys2Proof.Machine

/-! ## The commands by the operations they run -/

theorem exec_wrnib (v : Int) (s : State) :
    exec (.wrnib v) s = .next (complete (resultNibble (nibbleOf v)) (writeNibble v s)) := rfl

theorem exec_latch (idx : Int) (s : State) : exec (.latch idx) s = .next (concludePlain (latch idx s)) := rfl

theorem exec_wrdig (v idx : Int) (s : State) :
    exec (.wrdig v idx) s = .next (conclude ((writeDigit v idx s).andThen fun n s => .done (resultNibble n) s)) := rfl

theorem exec_wrnum (n : Int) (s : State) : exec (.wrnum n) s = .next (complete 0#32 (writeNumber n s)) := rfl

theorem exec_lastv (s : State) : exec .lastv s = .next (complete (resultNibble s.dv) s) := rfl

/-! ## The nibble (R86, R87, R93) -/

/-- `v mod 16` is the two's complement of `v` in four bits. -/
theorem nibbleOf_eq_ofInt (v : Int) : nibbleOf v = BitVec.ofInt 4 v := by
  apply BitVec.eq_of_toNat_eq
  rw [nibbleOf, BitVec.toNat_ofNat, BitVec.toNat_ofInt]
  omega

/-- The low bits of a two's complement are the two's complement of that width. -/
theorem setWidth_ofInt_of_le {k w : Nat} (hk : k ≤ w) (v : Int) : (BitVec.ofInt w v).setWidth k = BitVec.ofInt k v := by
  have hdvd : ((2 ^ k : Nat) : Int) ∣ ((2 ^ w : Nat) : Int) := Int.natCast_dvd_natCast.mpr (Nat.pow_dvd_pow 2 hk)
  have hpos : 0 ≤ v % ((2 ^ w : Nat) : Int) := Int.emod_nonneg v (by positivity)
  apply BitVec.eq_of_toNat_eq
  rw [BitVec.toNat_setWidth, BitVec.toNat_ofInt, BitVec.toNat_ofInt, ← Int.emod_emod_of_dvd v hdvd,
    Int.toNat_emod hpos (Int.natCast_nonneg _), Int.toNat_natCast]

theorem resultNibble_eq_ofNat (n : Nibble) : resultNibble n = BitVec.ofNat 32 n.toNat := (BitVec.ofNat_toNat 32 n).symm

theorem toNat_nibbleOf (v : Int) : (nibbleOf v).toNat = (v % 16).toNat := by
  rw [nibbleOf, BitVec.toNat_ofNat]
  omega

/-- Settles O14: `RES` carries the nibble that `writeNibble` puts on the data lines. -/
theorem wrnibAppliesTheMaskedNibble : Obligations.WrnibAppliesTheMaskedNibble := by
  unfold Obligations.WrnibAppliesTheMaskedNibble
  intro v s
  rw [exec_wrnib, resultNibble_eq_ofNat, toNat_nibbleOf]
  rfl

/-- Settles O15: `v mod 16` is a two's complement of four bits, to which every wider one truncates. -/
theorem appliedNibbleIsTheTwosComplementMask : Obligations.AppliedNibbleIsTheTwosComplementMask := by
  unfold Obligations.AppliedNibbleIsTheTwosComplementMask
  intro v w s hw
  refine ⟨_, exec_wrnib v s, ?_⟩
  rw [complete_dv, writeNibble_dv, nibbleOf_eq_ofInt, setWidth_ofInt_of_le (by omega)]

/-- Settles O19: the command is its result. -/
theorem lastvReturnsTheAppliedNibble : Obligations.LastvReturnsTheAppliedNibble := by
  unfold Obligations.LastvReturnsTheAppliedNibble
  intro s
  rw [exec_lastv, resultNibble_eq_ofNat]
  rfl

/-! ## One digit (R88 to R90) -/

/-- Settles O16: a legal index is one pulse (`pulse_eq`), any other raises before a pin moves. -/
theorem latchPulsesOnlyItsOwnLine : Obligations.LatchPulsesOnlyItsOwnLine := by
  unfold Obligations.LatchPulsesOnlyItsOwnLine
  constructor
  · intro i s
    rw [exec_latch, latch_legal, concludePlain_done, pulse_eq]
    rfl
  · intro idx s hidx
    rw [exec_latch, latch_illegal hidx, concludePlain_raised]
    rfl

/-- Settles O17: a legal index is one digit write (`putDigit_eq`); any other raises after the nibble was applied and
the settle delay waited. -/
theorem wrdigAppliesThenLatches : Obligations.WrdigAppliesThenLatches := by
  unfold Obligations.WrdigAppliesThenLatches
  constructor
  · intro v i s
    rw [exec_wrdig, writeDigit_legal, Attempt.andThen_done, conclude_done, putDigit_eq]
    simp [complete, resultNibble, digitEvents, settleEvents, pulseEvents]
  · intro v idx s hidx
    rw [exec_wrdig, writeDigit_illegal v hidx, Attempt.andThen_raised, conclude_raised, settle_eq]
    rfl

/-! ## A number (R91, R92) -/

/-- The events of one digit write: `Data`, `Settle` if there is a delay, and the three of the pulse. -/
theorem digitEvents_length (cfg : Cfg) (d : Nibble) (i : Fin 4) :
    (digitEvents cfg d i).length = if cfg.settleUs > 0 then 5 else 4 := by
  unfold digitEvents settleEvents pulseEvents
  split <;> rfl

theorem numberEvents_length (cfg : Cfg) (x : Nat) :
    (numberEvents cfg x).length = if cfg.settleUs > 0 then 20 else 16 := by
  simp only [numberEvents, List.length_append, digitEvents_length]
  split <;> rfl

/-- Settles O18: `writeNumber_eq` speaks of the decimal digits of the clamped number, which are the given ones. -/
theorem wrnumShowsTheClampedNumber : Obligations.WrnumShowsTheClampedNumber := by
  unfold Obligations.WrnumShowsTheClampedNumber
  intro n x d0 d1 d2 d3 s hclamp h0 h1 h2 h3 hx
  have hshown : shownNumber n = x := Int.ofNat.inj ((shownNumber_eq n).trans hclamp.symm)
  have hd0 : decimalDigit x 0 = d0 := by rw [decimalDigit]; omega
  have hd1 : decimalDigit x 1 = d1 := by rw [decimalDigit]; omega
  have hd2 : decimalDigit x 2 = d2 := by rw [decimalDigit]; omega
  have hd3 : decimalDigit x 3 = d3 := by rw [decimalDigit]; omega
  refine ⟨?_, numberEvents_length s.cfg x⟩
  rw [exec_wrnum, writeNumber_eq, hshown]
  simp only [numberEvents, hd0, hd1, hd2, hd3, List.append_assoc]
  rfl

end Sys2Proof.Machine
end

section
/-! PROOFS. ClockChip (`41_clockchip.md`): what its four commands leave, for every way a transaction can end. -/

namespace Sys2Proof.Machine

/-! ## The commands by the operations they run -/

theorem exec_rtcinit (s : State) : exec .rtcinit s = .next (concludePlain (rtcInit s)) := rfl

theorem exec_dechr (raw : Byte) (s : State) : exec (.dechr raw) s = .next (complete (resultHour (decodeHours raw)) s) := rfl

theorem exec_gettime (s : State) :
    exec .gettime s = .next (conclude ((getTime s).andThen fun t s => .done (resultTime t) s)) := rfl

theorem exec_gettime_of_done {s t : State} {x : Time} (h : getTime s = .done x t) :
    exec .gettime s = .next (complete (resultTime x) t) := by
  rw [exec_gettime, h, Attempt.andThen_done, conclude_done]

theorem exec_gettime_of_raised {s t : State} {e : ErrorKind} (h : getTime s = .raised e t) :
    exec .gettime s = .next (takeError e t) := by
  rw [exec_gettime, h, Attempt.andThen_raised, conclude_raised]

theorem exec_settime (h m sec : Int) (s : State) : exec (.settime h m sec) s = .next (concludePlain (setTime h m sec s)) := rfl

/-! ## Bytes by their number (R12, R52, R100, R101) -/

/-- A concatenation as a number in base `2 ^ b`. -/
theorem toNat_append_eq_add {a b : Nat} (x : BitVec a) (y : BitVec b) : (x ++ y).toNat = x.toNat * 2 ^ b + y.toNat := by
  rw [BitVec.toNat_append, ← Nat.shiftLeft_add_eq_or_of_lt y.isLt, Nat.shiftLeft_eq]

theorem highNibble_eq (b : Byte) : highNibble b = b.toNat / 16 := by
  rw [highNibble, BitVec.extractLsb'_toNat, Nat.shiftRight_eq_div_pow]
  have := b.isLt
  omega

theorem lowNibble_eq (b : Byte) : lowNibble b = b.toNat % 16 := by
  rw [lowNibble, BitVec.extractLsb'_toNat, Nat.shiftRight_zero]

theorem hourField12_eq (b : Byte) : hourField12 b = b.toNat / 16 % 2 * 10 + b.toNat % 16 := by
  rw [hourField12, lowNibble_eq, BitVec.extractLsb'_toNat, Nat.shiftRight_eq_div_pow]

theorem hourField24_eq (b : Byte) : hourField24 b = b.toNat / 16 % 4 * 10 + b.toNat % 16 := by
  rw [hourField24, lowNibble_eq, BitVec.extractLsb'_toNat, Nat.shiftRight_eq_div_pow]

theorem twelveHourFlag_iff (b : Byte) : twelveHourFlag b = true ↔ b.toNat / 64 % 2 = 1 := by
  rw [twelveHourFlag, BitVec.getLsbD, Nat.testBit_eq_decide_div_mod_eq, decide_eq_true_iff]

theorem pmFlag_iff (b : Byte) : pmFlag b = true ↔ b.toNat / 32 % 2 = 1 := by
  rw [pmFlag, BitVec.getLsbD, Nat.testBit_eq_decide_div_mod_eq, decide_eq_true_iff]

/-- `decodeHours` by the spec's formula over the byte's number (R103). -/
theorem decodeHours_eq (raw : Byte) :
    decodeHours raw =
      if raw.toNat / 64 % 2 = 1 then
        (raw.toNat / 16 % 2 * 10 + raw.toNat % 16) % 12 + (if raw.toNat / 32 % 2 = 1 then 12 else 0)
      else raw.toNat / 16 % 4 * 10 + raw.toNat % 16 := by
  simp only [decodeHours, twelveHourFlag_iff, pmFlag_iff, hourField12_eq, hourField24_eq, add_ite, add_zero]

/-- The 12-hour encoding of hour `h` with PM flag `p` (R52) decodes to the hour of the day (R103). -/
theorem decodeHours_twelveHour {h : Nat} (hh : h ≤ 12) (p : Bool) :
    decodeHours (BitVec.ofNat 8 (64 + (if p then 32 else 0) + h / 10 * 16 + h % 10)) =
      h % 12 + (if p then 12 else 0) := by
  decide +revert

theorem toNat_dec2bcd {d : Nat} (h : d < 100) : (dec2bcd d).toNat = d / 10 * 16 + d % 10 := by
  rw [dec2bcd, toNat_append_eq_add, BitVec.toNat_ofNat, BitVec.toNat_ofNat]
  omega

theorem bcd2dec_dec2bcd {d : Nat} (h : d < 100) : bcd2dec (dec2bcd d) = d := by
  rw [bcd2dec, highNibble_eq, lowNibble_eq, toNat_dec2bcd h]
  omega

theorem decodeHours_dec2bcd {d : Nat} (h : d < 24) : decodeHours (dec2bcd d) = d := by
  have hlt : d / 10 * 16 + d % 10 < 64 := by omega
  rw [decodeHours_eq, toNat_dec2bcd (by omega), if_neg (by omega)]
  omega

theorem toNat_withoutHalt (b : Byte) : (withoutHalt b).toNat = b.toNat % 128 := by
  rw [withoutHalt, BitVec.toNat_and]
  exact Nat.and_two_pow_sub_one_eq_mod b.toNat 7

theorem decodeSeconds_dec2bcd {d : Nat} (h : d < 60) : decodeSeconds (dec2bcd d) = d := by
  have hlt : d / 10 * 16 + d % 10 < 128 := by omega
  rw [decodeSeconds, bcd2dec, highNibble_eq, lowNibble_eq, toNat_withoutHalt, toNat_dec2bcd (by omega), Nat.mod_eq_of_lt hlt]
  omega

/-- The bytes that `setTime` writes spell the wrapped time (R108). -/
theorem decodeTime_setTime (h m sec : Int) :
    decodeTime (secondsByte sec) (minutesByte m) (hoursByte h) =
      { hour := wrapField h 24, minute := wrapField m 60, second := wrapField sec 60 } := by
  have hhour := wrapField_lt h (n := 24) (by decide)
  have hmin := wrapField_lt m (n := 60) (by decide)
  have hsec := wrapField_lt sec (n := 60) (by decide)
  rw [decodeTime, secondsByte, minutesByte, hoursByte, decodeHours_dec2bcd hhour, bcd2dec_dec2bcd (hmin.trans (by decide)),
    decodeSeconds_dec2bcd hsec]

theorem natCast_wrapField (x : Int) {n : Nat} (hn : 0 < n) : (wrapField x n : Int) = x % n :=
  Int.toNat_of_nonneg (Int.emod_nonneg x (by omega))

/-- A byte with the number that R106 gives for `x mod n` is the one `setTime` writes. -/
theorem eq_dec2bcd_wrapField {b : Byte} {x : Int} {n : Nat} (hn : 0 < n) (hle : n ≤ 100)
    (h : (b.toNat : Int) = x % n / 10 * 16 + x % n % 10) : b = dec2bcd (wrapField x n) := by
  have hlt := wrapField_lt x hn
  apply BitVec.eq_of_toNat_eq
  rw [toNat_dec2bcd (by omega)]
  rw [← natCast_wrapField x hn] at h
  omega

/-! ## Results (R80) -/

theorem resultHour_eq {hour : Nat} (h : hour < 256) : resultHour hour = BitVec.ofNat 32 hour := by
  apply BitVec.eq_of_toNat_eq
  rw [resultHour, BitVec.toNat_setWidth, BitVec.toNat_ofNat, BitVec.toNat_ofNat]
  omega

theorem toNat_resultTime {t : Time} (hh : t.hour < 256) (hm : t.minute < 256) (hs : t.second < 256) :
    (resultTime t).toNat = t.hour * 65536 + t.minute * 256 + t.second := by
  simp only [resultTime, toNat_append_eq_add, BitVec.toNat_ofNat]
  omega

/-- `RES` of `GETTIME` by the three bytes (R104, R105). -/
theorem resultTime_decodeTime (r0 r1 r2 : Byte) :
    resultTime (decodeTime r0 r1 r2) =
      BitVec.ofNat 32 (decodeHours r2 * 65536 + bcd2dec r1 * 256 + bcd2dec (r0 &&& 0x7F#8)) := by
  have hhour := decodeHours_le r2
  have hmin := bcd2dec_le r1
  have hsec := bcd2dec_le (r0 &&& 0x7F#8)
  have htime := toNat_resultTime (t := decodeTime r0 r1 r2) (hhour.trans_lt (by decide)) (hmin.trans_lt (by decide))
    (hsec.trans_lt (by decide))
  apply BitVec.eq_of_toNat_eq
  rw [htime, BitVec.toNat_ofNat, Nat.mod_eq_of_lt (by omega)]
  rfl

/-- `RES` of `GETTIME` by the three bytes that `setTime` writes (R108). -/
theorem toNat_resultTime_setTime (h m sec : Int) :
    ((resultTime (decodeTime (secondsByte sec) (minutesByte m) (hoursByte h))).toNat : Int) =
      h % 24 * 65536 + m % 60 * 256 + sec % 60 := by
  have hhour := wrapField_lt h (n := 24) (by decide)
  have hmin := wrapField_lt m (n := 60) (by decide)
  have hsec := wrapField_lt sec (n := 60) (by decide)
  have htime := toNat_resultTime (t := ⟨wrapField h 24, wrapField m 60, wrapField sec 60⟩) (hhour.trans (by decide))
    (hmin.trans (by decide)) (hsec.trans (by decide))
  rw [decodeTime_setTime, htime]
  push_cast [natCast_wrapField _ (n := 24) (by decide), natCast_wrapField _ (n := 60) (by decide)]
  rfl

/-! ## `SETTIME` on a quiescent chip (R106, R107) -/

/-- `SETTIME` on a quiescent chip completes and leaves its three bytes in the registers (R106, R107). -/
theorem exec_settime_quiet {s : State} {n : Nat} (hq : s.Quiescent (n + 3)) (h m sec : Int) :
    ∃ t, exec (.settime h m sec) s = .next t ∧ t.err = 0#2 ∧ t.chipByte 0 = secondsByte sec ∧ t.chipByte 1 = minutesByte m ∧
      t.chipByte 2 = hoursByte h ∧ t.Quiescent n := by
  obtain ⟨t, hdone, -, hb0, hb1, hb2, hquiet⟩ := setTime_quiet hq h m sec
  refine ⟨complete 0#32 t, ?_, rfl, hb0, hb1, hb2, hquiet⟩
  rw [exec_settime, hdone, concludePlain_done]

/-- The mode and the halt flag that `setTime`'s bytes spell (R107). -/
theorem chipTime_of_setTime {t : State} {h sec : Int} (hb0 : t.chipByte 0 = secondsByte sec) (hb2 : t.chipByte 2 = hoursByte h) :
    t.chipTime.clockHalted = false ∧ t.chipTime.twelveHour = false := by
  constructor
  · show haltFlag (t.chipByte 0) = false
    rw [hb0, haltFlag_secondsByte]
  · show twelveHourFlag (t.chipByte 2) = false
    rw [hb2, (hoursByte_flags h).1]

/-! ## Failures (R109) -/

/-- From `s` to the end `t` of a command, `ERR` says whether one of the command's own events is a failed transaction. -/
def ErrTellsFailures (s t : State) (es : List Event) : Prop :=
  t.trace = s.trace ++ es ∧ (t.err = 2#2 ↔ ∃ e ∈ es, e.isFailure = true) ∧ (t.err = 0#2 ↔ ∀ e ∈ es, e.isFailure = false)

theorem FailsByTransport.conclude {s : State} {r : Attempt Word} (h : FailsByTransport s r) :
    ∃ es, ErrTellsFailures s (conclude r) es := by
  obtain ⟨es, htrace, -, -, -, hend⟩ := h
  cases r with
  | done result t =>
    refine ⟨es, htrace, ?_, ?_⟩
    · simpa [complete] using hend
    · simpa [complete] using hend
  | raised e t =>
    obtain ⟨rfl, hfail⟩ := hend
    refine ⟨es, htrace, ?_, ?_⟩
    · simpa [takeError, ErrorKind.code] using hfail
    · simpa [takeError, ErrorKind.code] using hfail

theorem FailsByTransport.concludePlain {s : State} {r : Attempt Unit} (h : FailsByTransport s r) :
    ∃ es, ErrTellsFailures s (concludePlain r) es :=
  (h.andThen fun _ t => .refl 0#32 t).conclude

/-! ## The obligations -/

/-- Settles O20: the four ways `rtcInit` can end. -/
theorem rtcinitClearsOnlyTheHaltFlag : Obligations.RtcinitClearsOnlyTheHaltFlag := by
  unfold Obligations.RtcinitClearsOnlyTheHaltFlag
  refine ⟨?_, ?_, ?_, ?_⟩
  · intro s h0 hclear
    rw [exec_rtcinit, rtcInit_running h0 hclear]
    rfl
  · intro s h0 h1 hset
    rw [exec_rtcinit, rtcInit_halted h0 h1 hset]
    rfl
  · intro s h0
    rw [exec_rtcinit, rtcInit_fail0 h0]
    rfl
  · intro s left h0 h1 hset
    rw [exec_rtcinit, rtcInit_fail1 h0 h1 hset]
    rfl

/-- Settles O21: the command is its result, which fits `RES` (`decodeHours_le`). -/
theorem dechrDecodesBothModes : Obligations.DechrDecodesBothModes := by
  unfold Obligations.DechrDecodesBothModes
  have hresult (raw : Byte) : resultHour (decodeHours raw) = BitVec.ofNat 32 (decodeHours raw) :=
    resultHour_eq (Nat.lt_of_le_of_lt (decodeHours_le raw) (by decide))
  constructor
  · intro raw s
    rw [exec_dechr, hresult, decodeHours_eq]
    rfl
  · intro h p s _ hle
    rw [exec_dechr, hresult, decodeHours_twelveHour hle]
    rfl

/-- Settles O22: the four ways `getTime` can end. -/
theorem gettimeReadsThreeRegisters : Obligations.GettimeReadsThreeRegisters := by
  unfold Obligations.GettimeReadsThreeRegisters
  refine ⟨?_, ?_, ?_, ?_⟩
  · intro s h0 h1 h2
    rw [exec_gettime_of_done (getTime_ok h0 h1 h2), resultTime_decodeTime]
    rfl
  · intro s h0
    rw [exec_gettime_of_raised (getTime_fail0 h0)]
    rfl
  · intro s h0 h1
    rw [exec_gettime_of_raised (getTime_fail1 h0 h1)]
    rfl
  · intro s h0 h1 h2
    rw [exec_gettime_of_raised (getTime_fail2 h0 h1 h2)]
    rfl

/-- Settles O23: the four ways `setTime` can end; the given numbers determine the bytes (`eq_dec2bcd_wrapField`). -/
theorem settimeWritesWrappedBcd : Obligations.SettimeWritesWrappedBcd := by
  unfold Obligations.SettimeWritesWrappedBcd
  refine ⟨?_, ?_, ?_, ?_⟩
  · intro h m sec b0 b1 b2 s h0 h1 h2 hb0 hb1 hb2
    have hsec : b0 = secondsByte sec := eq_dec2bcd_wrapField (by decide) (by decide) hb0
    have hmin : b1 = minutesByte m := eq_dec2bcd_wrapField (by decide) (by decide) hb1
    have hhour : b2 = hoursByte h := eq_dec2bcd_wrapField (by decide) (by decide) hb2
    rw [exec_settime, setTime_ok h0 h1 h2, hsec, hmin, hhour]
    rfl
  · intro h m sec left s h0
    rw [exec_settime, setTime_fail0 h0]
    rfl
  · intro h m sec left s h0 h1
    rw [exec_settime, setTime_fail1 h0 h1]
    rfl
  · intro h m sec left s h0 h1 h2
    rw [exec_settime, setTime_fail2 h0 h1 h2]
    rfl

/-- Settles O24: by the bytes the command leaves. -/
theorem settimeLeavesTwentyFourHourMode : Obligations.SettimeLeavesTwentyFourHourMode := by
  unfold Obligations.SettimeLeavesTwentyFourHourMode
  intro h m sec s hq
  obtain ⟨t, hexec, herr, hb0, -, hb2, -⟩ := exec_settime_quiet (n := 0) hq h m sec
  obtain ⟨hhalt, hmode⟩ := chipTime_of_setTime hb0 hb2
  refine ⟨t, hexec, herr, hhalt, hmode, ?_⟩
  rw [hb2, (hoursByte_flags h).2]

/-- Settles O25: `getTime` reads the three bytes back, which spell the wrapped time (`decodeTime_setTime`). -/
theorem settimeGettimeRoundTrip : Obligations.SettimeGettimeRoundTrip := by
  unfold Obligations.SettimeGettimeRoundTrip
  intro h m sec s hq
  obtain ⟨t, hset, herr, hb0, hb1, hb2, hquiet⟩ := exec_settime_quiet (n := 3) hq h m sec
  have hget := getTime_quiet (n := 0) hquiet
  obtain ⟨hhalt, hmode⟩ := chipTime_of_setTime hb0 hb2
  refine ⟨t, _, hset, exec_gettime_of_done hget, herr, rfl, ?_, hmode, hhalt⟩
  rw [hb0, hb1, hb2]
  exact toNat_resultTime_setTime h m sec

/-- Settles O26: the three operations fail by transport only, and by their own events (`FailsByTransport`). -/
theorem transportErrorExactlyWhenATransactionFails : Obligations.TransportErrorExactlyWhenATransactionFails := by
  unfold Obligations.TransportErrorExactlyWhenATransactionFails
  refine ⟨?_, fun raw s => ⟨_, exec_dechr raw s, rfl⟩⟩
  rintro i s (rfl | rfl | ⟨h, m, sec, rfl⟩)
  · obtain ⟨es, hends⟩ := (FailsByTransport.rtcInit s).concludePlain
    exact ⟨_, es, exec_rtcinit s, hends⟩
  · obtain ⟨es, hends⟩ := ((FailsByTransport.getTime s).andThen fun x t => .refl (resultTime x) t).conclude
    exact ⟨_, es, exec_gettime s, hends⟩
  · obtain ⟨es, hends⟩ := (FailsByTransport.setTime h m sec s).concludePlain
    exact ⟨_, es, exec_settime h m sec s, hends⟩

end Sys2Proof.Machine
end

section
/-! PROOFS. ButtonInput (`42_buttoninput.md`): what its two commands leave, and what a whole press fires. -/

namespace Sys2Proof.Machine

/-! ## One command (R122 to R127) -/

theorem exec_btnrst (b : Button) (s : State) : exec (.btnrst b) s = .next (complete 0#32 (resetButton b s)) := rfl

/-- A button put back as it is. -/
theorem State.setButton_button_self (b : Button) (s : State) : s.setButton b (s.button b) = s := by cases b <;> rfl

/-- A call that fires nothing leaves the trace. -/
theorem exec_btnproc_silent {b : Button} {s : State} {x : ButtonState}
    (h : nextButton s.cfg (s.asserted b) s.now (s.button b) = (x, none)) :
    exec (.btnproc b) s = .next { s.setButton b x with res := 0#32, err := 0#2 } := by
  rw [exec_btnproc, h]
  simp only [firingEvents, List.append_nil]
  cases b <;> rfl

/-- A call that fires appends its event and reports it in `RES`. -/
theorem exec_btnproc_fires {b : Button} {s : State} {x : ButtonState} {f : Firing}
    (h : nextButton s.cfg (s.asserted b) s.now (s.button b) = (x, some f)) :
    exec (.btnproc b) s = .next { s.setButton b x with
      trace := s.trace ++ firingEvents b (some f), res := resultFiring (some f), err := 0#2 } := by
  rw [exec_btnproc, h]

/-- A call that moves and fires nothing leaves everything. -/
theorem exec_btnproc_unmoved {b : Button} {s : State}
    (h : nextButton s.cfg (s.asserted b) s.now (s.button b) = (s.button b, none)) :
    exec (.btnproc b) s = .next { s with res := 0#32, err := 0#2 } := by
  rw [exec_btnproc_silent h, State.setButton_button_self]

/-- Settles O27: construction sets `st` alone. -/
theorem btnrstGoesIdle : Obligations.BtnrstGoesIdle := by
  unfold Obligations.BtnrstGoesIdle
  exact ⟨fun s => exec_btnrst .hour s, fun s => exec_btnrst .minute s⟩

/-- Settles O28. -/
theorem btnprocPressEdge : Obligations.BtnprocPressEdge := by
  unfold Obligations.BtnprocPressEdge
  intro b s hidle hpin
  apply exec_btnproc_silent
  rw [asserted_of_active hpin, nextButton_pressEdge s.cfg s.now hidle]

/-- Settles O29: the call fires if and only if `NOW` has reached `nextRepeatAt`. -/
theorem btnprocHeld : Obligations.BtnprocHeld := by
  unfold Obligations.BtnprocHeld
  constructor <;> intro b s hpressed hpin hnow
  · apply exec_btnproc_fires (f := .autoRepeat)
    rw [asserted_of_active hpin, nextButton_fires s.cfg hpressed hnow]
  · apply exec_btnproc_unmoved
    rw [asserted_of_active hpin, nextButton_waits s.cfg hpressed hnow]

/-- Settles O30: the difference on integers says whether `NOW` is before `pressDownAt + LONG_MS`. -/
theorem btnprocReleaseEdge : Obligations.BtnprocReleaseEdge := by
  unfold Obligations.BtnprocReleaseEdge
  constructor <;> intro b s hpressed hpin hhold
  · apply exec_btnproc_fires (f := .click)
    rw [not_asserted_of_inactive hpin, nextButton_clicks s.cfg hpressed (by omega)]
  · apply exec_btnproc_silent
    rw [not_asserted_of_inactive hpin, nextButton_releases s.cfg hpressed (by omega)]

/-- Settles O31. -/
theorem btnprocIdleReleased : Obligations.BtnprocIdleReleased := by
  unfold Obligations.BtnprocIdleReleased
  intro b s hidle hpin
  apply exec_btnproc_unmoved
  rw [not_asserted_of_inactive hpin, nextButton_rests s.cfg s.now hidle]

/-! ## Call times (R130, R134) -/

@[simp] theorem lastCall_nil (t0 : Nat) : lastCall t0 [] = t0 := rfl

theorem NonDecreasing.le_lastCall {t0 : Nat} {ts : List Nat} (h : NonDecreasing t0 ts) : t0 ≤ lastCall t0 ts := by
  induction ts generalizing t0 with
  | nil => exact le_rfl
  | cons t ts ih =>
    obtain ⟨hle, hrest⟩ := h
    rw [lastCall_cons]
    exact hle.trans (ih hrest)

theorem nonDecreasing_concat_iff {t0 tr : Nat} {ts : List Nat} :
    NonDecreasing t0 (ts ++ [tr]) ↔ NonDecreasing t0 ts ∧ lastCall t0 ts ≤ tr := by
  induction ts generalizing t0 with
  | nil => simp [NonDecreasing]
  | cons t ts ih => simp [NonDecreasing, ih, and_assoc]

theorem Dense.nonDecreasing {gap t0 : Nat} {ts : List Nat} (h : Dense gap t0 ts) : NonDecreasing t0 ts := by
  induction ts generalizing t0 with
  | nil => trivial
  | cons t ts ih =>
    obtain ⟨hle, -, hrest⟩ := h
    exact ⟨hle, ih hrest⟩

/-! ## How many repeats held calls fire (R124) -/

/-- The repeats that held calls at these times fire, with the next one scheduled at `next`. -/
def repeatsOver (repeatMs : Nat) : Nat → List Nat → Nat
  | _, [] => 0
  | next, t :: ts => if next ≤ t then repeatsOver repeatMs (next + repeatMs) ts + 1 else repeatsOver repeatMs next ts

theorem repeatsOver_cons_of_le (repeatMs : Nat) {next t : Nat} (h : next ≤ t) (ts : List Nat) :
    repeatsOver repeatMs next (t :: ts) = repeatsOver repeatMs (next + repeatMs) ts + 1 := if_pos h

theorem repeatsOver_cons_of_lt (repeatMs : Nat) {next t : Nat} (h : t < next) (ts : List Nat) :
    repeatsOver repeatMs next (t :: ts) = repeatsOver repeatMs next ts := if_neg (Nat.not_le.mpr h)

/-- Nothing fires if and only if the last call, and so every call, comes before the schedule. -/
theorem repeatsOver_eq_zero_iff (repeatMs : Nat) {t0 next : Nat} {ts : List Nat} (h : NonDecreasing t0 ts) :
    repeatsOver repeatMs next ts = 0 ↔ ts = [] ∨ lastCall t0 ts < next := by
  induction ts generalizing t0 with
  | nil => simp [repeatsOver]
  | cons t ts ih =>
    obtain ⟨-, hrest⟩ := h
    have hlast : t ≤ lastCall t ts := hrest.le_lastCall
    by_cases ht : next ≤ t
    · have hreached : ¬ lastCall t ts < next := by omega
      simp [repeatsOver_cons_of_le repeatMs ht, hreached]
    · have ht : t < next := Nat.not_le.mp ht
      rw [repeatsOver_cons_of_lt repeatMs ht, ih hrest, lastCall_cons]
      simp only [List.cons_ne_nil, false_or, or_iff_right_iff_imp]
      rintro rfl
      exact ht

/-- Calls no further apart than the schedule's period never fall behind it (`t0 < next` is kept), so every scheduled
time up to the last call fires. -/
theorem repeatsOver_of_dense {repeatMs t0 next : Nat} {ts : List Nat} (h : Dense repeatMs t0 ts) (hnext : t0 < next) :
    repeatsOver repeatMs next ts =
      if lastCall t0 ts < next then 0 else (lastCall t0 ts - next) / repeatMs + 1 := by
  induction ts generalizing t0 next with
  | nil => simp [repeatsOver, hnext]
  | cons t ts ih =>
    obtain ⟨-, hgap, hrest⟩ := h
    have hlast : t ≤ lastCall t ts := hrest.nonDecreasing.le_lastCall
    rw [lastCall_cons]
    by_cases ht : next ≤ t
    · have hpos : 0 < repeatMs := by omega
      rw [repeatsOver_cons_of_le repeatMs ht, ih hrest (by omega), if_neg (by omega : ¬ lastCall t ts < next)]
      split
      · rw [Nat.div_eq_of_lt (by omega)]
      · rw [← Nat.sub_sub, ← Nat.div_eq_sub_div hpos (by omega)]
    · have ht : t < next := Nat.not_le.mp ht
      rw [repeatsOver_cons_of_lt repeatMs ht, ih hrest ht]

/-- R130: the count of a dense press is the formula's. -/
theorem repeatsOver_eq_repeatCount {cfg : Cfg} {t0 : Nat} {ts : List Nat} (hlong : 0 < cfg.longMs)
    (h : Dense cfg.repeatMs t0 ts) :
    repeatsOver cfg.repeatMs (t0 + cfg.longMs) ts = repeatCount cfg t0 (lastCall t0 ts) := by
  have hlast : t0 ≤ lastCall t0 ts := h.nonDecreasing.le_lastCall
  rw [repeatsOver_of_dense h (by omega), repeatCount, Nat.sub_sub]
  exact if_congr (by omega) rfl rfl

/-- A button after `k` repeats: its schedule has advanced `k` times (R124). -/
def ButtonState.afterRepeats (cfg : Cfg) (k : Nat) (x : ButtonState) : ButtonState :=
  { x with nextRepeatAt := x.nextRepeatAt + k * cfg.repeatMs }

@[simp] theorem ButtonState.afterRepeats_st (cfg : Cfg) (k : Nat) (x : ButtonState) : (x.afterRepeats cfg k).st = x.st := rfl

@[simp] theorem ButtonState.afterRepeats_zero (cfg : Cfg) (x : ButtonState) : x.afterRepeats cfg 0 = x := by
  simp [afterRepeats]

theorem ButtonState.afterRepeats_one_nextRepeatAt (cfg : Cfg) (x : ButtonState) :
    (x.afterRepeats cfg 1).nextRepeatAt = x.nextRepeatAt + cfg.repeatMs := by
  simp [afterRepeats]

theorem ButtonState.afterRepeats_add (cfg : Cfg) (k m : Nat) (x : ButtonState) :
    (x.afterRepeats cfg m).afterRepeats cfg k = x.afterRepeats cfg (k + m) := by
  simp only [afterRepeats, Nat.add_mul, Nat.add_assoc, Nat.add_comm (m * _)]

/-- One held call by the number of repeats it fires. -/
theorem nextButton_held (cfg : Cfg) (now : Nat) {x : ButtonState} (h : x.st = .pressed) :
    nextButton cfg true now x =
      if x.nextRepeatAt ≤ now then (x.afterRepeats cfg 1, some .autoRepeat) else (x, none) := by
  split
  case isTrue hnow => rw [nextButton_fires cfg h hnow, ButtonState.afterRepeats, Nat.one_mul]
  case isFalse hnow => exact nextButton_waits cfg h (Nat.not_le.mp hnow)

/-! ## Runs of polls -/

/-- Held calls advance the schedule once for each repeat they fire, and leave the press. -/
theorem run_held {b : Button} {s : State} {held : List Nat} {rest : List HostInput} (hst : (s.button b).st = .pressed)
    (hhost : s.host = held.map (pollInput b s.cfg.activeLevel) ++ rest) :
    ∃ t k, Host.Core.run core held.length s = .next t ∧ k = repeatsOver s.cfg.repeatMs (s.button b).nextRepeatAt held ∧
      t.host = rest ∧ t.cfg = s.cfg ∧ t.button b = (s.button b).afterRepeats s.cfg k ∧
      t.trace = s.trace ++ List.replicate k (.autoRepeat b) := by
  induction held generalizing s with
  | nil => exact ⟨s, 0, rfl, rfl, hhost, rfl, by simp, by simp⟩
  | cons now held ih =>
    rw [List.map_cons, List.cons_append] at hhost
    obtain ⟨u, hstep, huhost, hucfg, hubtn, hutrace⟩ := step_poll hhost
    rw [beq_self_eq_true, nextButton_held s.cfg now hst] at hubtn hutrace
    have hust : (u.button b).st = .pressed := by rw [hubtn]; split <;> exact hst
    obtain ⟨t, k, hrun, hk, hthost, htcfg, htbtn, httrace⟩ := ih hust (by rw [huhost, hucfg])
    rw [← run_succ hstep] at hrun
    rw [hucfg] at hk htcfg htbtn
    by_cases hnow : (s.button b).nextRepeatAt ≤ now
    · rw [if_pos hnow] at hubtn hutrace
      rw [hubtn, ButtonState.afterRepeats_one_nextRepeatAt] at hk
      refine ⟨t, k + 1, hrun, ?_, hthost, htcfg, ?_, ?_⟩
      · rw [repeatsOver_cons_of_le _ hnow, hk]
      · rw [htbtn, hubtn, ButtonState.afterRepeats_add]
      · rw [httrace, hutrace, List.append_assoc, List.replicate_succ]
        rfl
    · rw [if_neg hnow] at hubtn hutrace
      rw [hubtn] at hk htbtn
      refine ⟨t, k, hrun, ?_, hthost, htcfg, htbtn, ?_⟩
      · rw [repeatsOver_cons_of_lt _ (Nat.not_le.mp hnow), hk]
      · rw [httrace, hutrace, firingEvents, List.append_nil]

/-- A press edge at `t0` and its held calls (R123, R124). -/
theorem run_press {b : Button} {s : State} {t0 : Nat} {held : List Nat} {rest : List HostInput}
    (hst : (s.button b).st = .idle) (hhost : s.host = (t0 :: held).map (pollInput b s.cfg.activeLevel) ++ rest) :
    ∃ t k, Host.Core.run core (held.length + 1) s = .next t ∧
      k = repeatsOver s.cfg.repeatMs (t0 + s.cfg.longMs) held ∧ t.host = rest ∧ t.cfg = s.cfg ∧
      t.button b = { st := .pressed, pressDownAt := t0, nextRepeatAt := t0 + s.cfg.longMs + k * s.cfg.repeatMs } ∧
      t.trace = s.trace ++ List.replicate k (.autoRepeat b) := by
  rw [List.map_cons, List.cons_append] at hhost
  obtain ⟨u, hstep, huhost, hucfg, hubtn, hutrace⟩ := step_poll hhost
  rw [beq_self_eq_true, nextButton_pressEdge s.cfg t0 hst] at hubtn hutrace
  rw [firingEvents, List.append_nil] at hutrace
  obtain ⟨t, k, hrun, hk, hthost, htcfg, htbtn, httrace⟩ := run_held (b := b) (held := held) (rest := rest)
    (by rw [hubtn]) (by rw [huhost, hucfg])
  rw [← run_succ hstep] at hrun
  rw [hubtn, hucfg] at hk htbtn
  rw [hucfg] at htcfg
  rw [hutrace] at httrace
  exact ⟨t, k, hrun, hk, hthost, htcfg, htbtn, httrace⟩

/-- The release of a pressed button, polled at `now` (R125). -/
theorem step_release {b : Button} {now : Nat} {s : State} {rest : List HostInput} (hst : (s.button b).st = .pressed)
    (hhost : s.host = pollInput b (!s.cfg.activeLevel) now :: rest) :
    ∃ t, step s = .next t ∧ (t.button b).st = .idle ∧
      t.trace = s.trace ++ if now < (s.button b).pressDownAt + s.cfg.longMs then [.click b] else [] := by
  obtain ⟨t, hstep, -, -, hbtn, htrace⟩ := step_poll hhost
  rw [Bool.not_beq_self] at hbtn htrace
  refine ⟨t, hstep, ?_⟩
  split
  case isTrue hnow =>
    rw [nextButton_clicks s.cfg hst hnow] at hbtn htrace
    exact ⟨by rw [hbtn], htrace⟩
  case isFalse hnow =>
    rw [nextButton_releases s.cfg hst (Nat.not_lt.mp hnow)] at hbtn htrace
    exact ⟨by rw [hbtn], htrace⟩

/-! ## A whole press (R129 to R131) -/

/-- Settles O32: a release before `LONG_MS` leaves no held call that could have reached it, since `NOW` never
decreases. -/
theorem pressClicksOrRepeatsNeverBoth : Obligations.PressClicksOrRepeatsNeverBoth := by
  unfold Obligations.PressClicksOrRepeatsNeverBoth
  intro b s t0 tr held rest hst hmono hhost
  obtain ⟨hheld, hlast⟩ := nonDecreasing_concat_iff.mp hmono
  obtain ⟨u, k, hrun, hk, huhost, hucfg, hubtn, hutrace⟩ := run_press hst hhost
  obtain ⟨t, hstep, hidle, httrace⟩ := step_release (b := b) (s := u) (by rw [hubtn]) (by rw [huhost, hucfg])
  have hzero := repeatsOver_eq_zero_iff s.cfg.repeatMs (next := t0 + s.cfg.longMs) hheld
  rw [← hk] at hzero
  refine ⟨t, k, ?_, ?_, hzero, ?_, hidle⟩
  · rw [show held.length + 2 = held.length + 1 + 1 by omega, run_add hrun, run_succ hstep]
    rfl
  · rw [httrace, hutrace, hubtn, hucfg]
  · intro htr
    exact hzero.mpr (.inr (hlast.trans_lt htr))

/-- Settles O33: the repeats of the press are counted by `repeatsOver`, which is R130's formula on a dense list. -/
theorem repeatCountOfAHeldPress : Obligations.RepeatCountOfAHeldPress := by
  unfold Obligations.RepeatCountOfAHeldPress
  intro b s t0 held rest hlong _ hst hdense hhost
  obtain ⟨t, k, hrun, hk, hthost, -, htbtn, httrace⟩ := run_press hst hhost
  obtain rfl : k = repeatCount s.cfg t0 (lastCall t0 held) := hk.trans (repeatsOver_eq_repeatCount hlong hdense)
  exact ⟨t, hrun, httrace, htbtn, hthost⟩

end Sys2Proof.Machine
end

section
/-! PROOFS. ClockController's commands of one operation (`43_controller.md` sections 1 to 3): `START`, `INCH`, `INCM`,
`RECON`, and the phase rule. -/

namespace Sys2Proof.Machine

/-! ## The commands by the operations they run -/

theorem exec_start_of_stopped {s : State} (hr : s.running = false) : exec .start s = .next (concludePlain (startUp s)) := by
  rw [← whileStopped_stopped hr startUp]
  rfl

theorem exec_start_of_running {s : State} (hr : s.running = true) :
    exec .start s = .next (takeError .illegalCommand s) := by
  rw [← concludePlain_raised, ← whileStopped_running hr startUp]
  rfl

theorem exec_inch_of_running {s : State} (hr : s.running = true) : exec .inch s = .next (concludePlain (incHour s)) := by
  rw [← whileRunning_running hr incHour]
  rfl

theorem exec_incm_of_running {s : State} (hr : s.running = true) : exec .incm s = .next (concludePlain (incMinute s)) := by
  rw [← whileRunning_running hr incMinute]
  rfl

theorem exec_recon_of_running {s : State} (hr : s.running = true) :
    exec .recon s = .next (concludePlain (reconcile s.now s)) := by
  rw [← whileRunning_running hr fun s => reconcile s.now s]
  rfl

/-! ## The phase rule (R141) -/

/-- A piece of pseudocode that never raises IllegalCommand. -/
def NeverIllegal {α : Type} (r : Attempt α) : Prop := ∀ t, r ≠ .raised .illegalCommand t

theorem NeverIllegal.andThen {α β : Type} {r : Attempt α} {f : α → State → Attempt β} (h : NeverIllegal r)
    (hf : ∀ a t, NeverIllegal (f a t)) : NeverIllegal (r.andThen f) := by
  cases r with
  | done a t => exact hf a t
  | raised e t =>
    rintro u hu
    obtain ⟨rfl, rfl⟩ := Attempt.raised.inj hu
    exact h t rfl

theorem NeverIllegal.done {α : Type} (a : α) (s : State) : NeverIllegal (.done a s) := fun _ h => nomatch h

theorem NeverIllegal.latch (idx : Int) (s : State) : NeverIllegal (latch idx s) := by
  unfold Machine.latch
  split
  · exact .done _ _
  · exact fun _ h => nomatch h

/-- What fails by transport only raises no other kind. -/
theorem FailsByTransport.neverIllegal {α : Type} {s : State} {r : Attempt α} (h : FailsByTransport s r) : NeverIllegal r := by
  rintro t rfl
  obtain ⟨es, -, -, -, -, hkind, -⟩ := h
  cases hkind

theorem complete_err_ne_illegal (w : Word) (s : State) : (complete w s).err ≠ 3#2 := by
  rw [complete_err]
  decide

theorem ErrorKind.code_ne_illegal {e : ErrorKind} (h : e ≠ .illegalCommand) : e.code ≠ 3#2 := by
  cases e with
  | illegalCommand => exact absurd rfl h
  | invalidArgument => decide
  | transportError => decide

/-- `ERR` = 3 comes from a raised IllegalCommand only. -/
theorem NeverIllegal.conclude {r : Attempt Word} (h : NeverIllegal r) : (conclude r).err ≠ 3#2 := by
  cases r with
  | done w t => exact complete_err_ne_illegal w t
  | raised e t => exact ErrorKind.code_ne_illegal fun he => h t (by rw [he])

theorem NeverIllegal.concludePlain {r : Attempt Unit} (h : NeverIllegal r) : (concludePlain r).err ≠ 3#2 :=
  (h.andThen fun _ t => .done 0#32 t).conclude

/-- Outside the controller no command answers IllegalCommand (R168): DigitBus's raise InvalidArgument only, ClockChip's
TransportError only, ButtonInput's nothing. -/
theorem exec_err_ne_illegal {i : Instr} (hu : blockUnitOf i ≠ .clockController) (s : State) :
    ∃ t, exec i s = .next t ∧ t.err ≠ 3#2 := by
  cases i with
  | wrnib v => exact ⟨_, exec_wrnib v s, complete_err_ne_illegal _ _⟩
  | latch idx => exact ⟨_, exec_latch idx s, (NeverIllegal.latch idx s).concludePlain⟩
  | wrdig v idx =>
    have hwrite : NeverIllegal (writeDigit v idx s) := (NeverIllegal.latch idx _).andThen fun _ t => .done _ t
    exact ⟨_, exec_wrdig v idx s, (hwrite.andThen fun _ t => .done _ t).conclude⟩
  | wrnum n => exact ⟨_, exec_wrnum n s, complete_err_ne_illegal _ _⟩
  | lastv => exact ⟨_, exec_lastv s, complete_err_ne_illegal _ _⟩
  | rtcinit => exact ⟨_, exec_rtcinit s, (FailsByTransport.rtcInit s).neverIllegal.concludePlain⟩
  | dechr raw => exact ⟨_, exec_dechr raw s, complete_err_ne_illegal _ _⟩
  | gettime => exact ⟨_, exec_gettime s, ((FailsByTransport.getTime s).neverIllegal.andThen fun _ t => .done _ t).conclude⟩
  | settime h m sec => exact ⟨_, exec_settime h m sec s, (FailsByTransport.setTime h m sec s).neverIllegal.concludePlain⟩
  | btnrst b => exact ⟨_, exec_btnrst b s, complete_err_ne_illegal _ _⟩
  | btnproc b => exact ⟨_, rfl, complete_err_ne_illegal _ _⟩
  | _ => exact absurd rfl hu

/-- Settles O13: the phase checks raise before anything else happens. -/
theorem wrongPhaseIsRefused : Obligations.WrongPhaseIsRefused := by
  unfold Obligations.WrongPhaseIsRefused
  refine ⟨fun s hr => exec_start_of_running hr, ?_, fun s i hu => exec_err_ne_illegal hu s⟩
  rintro s i hr (rfl | rfl | rfl | rfl) <;> exact exec_refused_of_stopped hr rfl (by decide)

/-! ## The increments (R145 to R147) -/

theorem secondsByte_zero : secondsByte 0 = 0x00#8 := by decide

/-- `t` ends a command in `s` whose last event is a failed write: of its transactions, the ones before it stay (R106). -/
def EndsInFailedWrite (s t : State) (es : List Event) : Prop :=
  t.err = 2#2 ∧ t.res = 0#32 ∧ t.trace = s.trace ++ es ∧ (∀ e ∈ es, e.isTransaction = true) ∧
    (∃ a, es.getLast? = some (.regFail .wr a)) ∧ OnlyChip s t

/-- An increment whose `setTime` fails raises where that raised. -/
theorem concludePlain_endsInFailedWrite {s : State} {r : Attempt Unit} {h m : Int}
    (hr : ∀ {e t}, setTime h m 0 s = .raised e t → r = .raised e t) (hn : ¬ (s.Succeeds 0 ∧ s.Succeeds 1 ∧ s.Succeeds 2)) :
    ∃ es, EndsInFailedWrite s (concludePlain r) es := by
  obtain ⟨t, es, hset, hframe, htrace, htrans, hlast⟩ := setTime_failed h m 0 hn
  rw [hr hset, concludePlain_raised]
  exact ⟨es, rfl, rfl, htrace, htrans, hlast, congrArg (takeError .transportError) hframe⟩

/-- Settles O36: the three ways `incHour` can end, and the phase check. -/
theorem inchAdvancesTheHour : Obligations.InchAdvancesTheHour := by
  unfold Obligations.InchAdvancesTheHour
  refine ⟨?_, ?_, ?_, fun s hr => exec_refused_of_stopped hr rfl (by decide)⟩
  · intro s hr h0 h1 h2
    rw [exec_inch_of_running hr, incHour_ok h0 h1 h2]
    rfl
  · intro s hr hn
    obtain ⟨es, hends⟩ := concludePlain_endsInFailedWrite (fun hset => incHour_failed hset) hn
    exact ⟨_, es, exec_inch_of_running hr, hends⟩
  · intro s k left hr hf
    rw [exec_inch_of_running hr, incHour_failsAt hf]
    rfl

/-- Settles O37: the three ways `incMinute` can end, and the phase check. -/
theorem incmAdvancesTheMinute : Obligations.IncmAdvancesTheMinute := by
  unfold Obligations.IncmAdvancesTheMinute
  refine ⟨?_, ?_, ?_, fun s hr => exec_refused_of_stopped hr rfl (by decide)⟩
  · intro s hr h0 h1 h2
    rw [exec_incm_of_running hr, incMinute_ok h0 h1 h2]
    rfl
  · intro s hr hn
    obtain ⟨es, hends⟩ := concludePlain_endsInFailedWrite (fun hset => incMinute_failed hset) hn
    exact ⟨_, es, exec_incm_of_running hr, hends⟩
  · intro s k left hr hf
    rw [exec_incm_of_running hr, incMinute_failsAt hf]
    rfl

@[simp] theorem State.wrote_hour (a : Fin 3) (v : Byte) (s : State) : (s.wrote a v).hour = s.hour := by simp [State.wrote]
@[simp] theorem State.wrote_minute (a : Fin 3) (v : Byte) (s : State) : (s.wrote a v).minute = s.minute := by simp [State.wrote]

/-- An increment completes in the state `w` of its three good writes, or fails and keeps the mirror. -/
theorem exec_increment_ends {i : Instr} {s w : State}
    (hok : s.running = true → s.Succeeds 0 → s.Succeeds 1 → s.Succeeds 2 → exec i s = .next w)
    (hfailed : s.running = true → ¬ (s.Succeeds 0 ∧ s.Succeeds 1 ∧ s.Succeeds 2) →
      ∃ t es, exec i s = .next t ∧ EndsInFailedWrite s t es)
    (hstopped : s.running = false → exec i s = .next (takeError .illegalCommand s)) :
    exec i s = .next w ∨ ∃ t, exec i s = .next t ∧ t.err ≠ 0#2 ∧ KeepsController s t := by
  cases hr : s.running with
  | false => exact .inr ⟨_, hstopped hr, by simp [takeError, ErrorKind.code], rfl, rfl, rfl, rfl⟩
  | true =>
    by_cases hs : s.Succeeds 0 ∧ s.Succeeds 1 ∧ s.Succeeds 2
    · obtain ⟨h0, h1, h2⟩ := hs
      exact .inl (hok hr h0 h1 h2)
    · obtain ⟨t, es, hexec, herr, -, -, -, -, hframe⟩ := hfailed hr hs
      exact .inr ⟨t, hexec, by simp [herr], hframe.keepsController⟩

/-- Settles O38: each increment computes its own field alone, or keeps both. -/
theorem incrementsNeverCarry : Obligations.IncrementsNeverCarry := by
  unfold Obligations.IncrementsNeverCarry
  intro s
  constructor
  · obtain ⟨hok, hfailed, -, hstopped⟩ := incmAdvancesTheMinute
    obtain hexec | ⟨t, hexec, herr, hkeeps⟩ := exec_increment_ends (hok s) (hfailed s) (hstopped s)
    · exact ⟨_, hexec, by simp [State.rendered], fun h59 _ => by simp [h59]⟩
    · exact ⟨t, hexec, hkeeps.hour, fun _ hzero => absurd hzero herr⟩
  · obtain ⟨hok, hfailed, -, hstopped⟩ := inchAdvancesTheHour
    obtain hexec | ⟨t, hexec, herr, hkeeps⟩ := exec_increment_ends (hok s) (hfailed s) (hstopped s)
    · exact ⟨_, hexec, by simp [State.rendered], fun h23 _ => by simp [h23]⟩
    · exact ⟨t, hexec, hkeeps.minute, fun _ hzero => absurd hzero herr⟩

/-! ## `RECON` (R152, R154) -/

/-- `reconcile` on a chip that agrees with the mirror reads and stamps, and changes nothing else. -/
theorem reconcile_same {s : State} (h0 : s.Succeeds 0) (h1 : s.Succeeds 1) (h2 : s.Succeeds 2)
    (hh : decodeHours (s.readAt 2 2) = s.hour) (hm : bcd2dec (s.readAt 1 1) = s.minute) (now : Nat) :
    reconcile now s = .done () { s.moves 3 with
      lastRecon := some now
      trace := s.trace ++ [.regRead 0 (s.readAt 0 0), .regRead 1 (s.readAt 1 1), .regRead 2 (s.readAt 2 2)] } := by
  rw [reconcile_ok h0 h1 h2, adopt_same]
  exact ⟨by simpa [decodeTime] using hh, by simpa [decodeTime] using hm⟩

/-- `reconcile` on a chip that differs from the mirror adopts and renders the chip's hour and minute. -/
theorem reconcile_differs {s : State} (h0 : s.Succeeds 0) (h1 : s.Succeeds 1) (h2 : s.Succeeds 2)
    (hd : decodeHours (s.readAt 2 2) ≠ s.hour ∨ bcd2dec (s.readAt 1 1) ≠ s.minute) (now : Nat) :
    reconcile now s = .done () { State.rendered (mirrorNumber (decodeHours (s.readAt 2 2)) (bcd2dec (s.readAt 1 1))) { s.moves 3 with
        trace := s.trace ++ [.regRead 0 (s.readAt 0 0), .regRead 1 (s.readAt 1 1), .regRead 2 (s.readAt 2 2)] } with
      hour := decodeHours (s.readAt 2 2)
      minute := bcd2dec (s.readAt 1 1)
      lastRecon := some now } := by
  rw [reconcile_ok h0 h1 h2, adopt_differs]
  · rfl
  · rintro ⟨hh, hm⟩
    obtain hne | hne := hd
    · exact hne (by simpa [decodeTime] using hh)
    · exact hne (by simpa [decodeTime] using hm)

/-- Settles O39: the ways `reconcile` can end, and the phase check. -/
theorem reconAdoptsTheChip : Obligations.ReconAdoptsTheChip := by
  unfold Obligations.ReconAdoptsTheChip
  refine ⟨?_, ?_, ?_, ?_, fun s hr => exec_refused_of_stopped hr rfl (by decide)⟩
  · intro s hr h0 h1 h2 hh hm
    rw [exec_recon_of_running hr, reconcile_same h0 h1 h2 hh hm]
    rfl
  · intro s hr h0 h1 h2 hd
    rw [exec_recon_of_running hr, reconcile_differs h0 h1 h2 hd]
    rfl
  · intro s hr hn
    have hstamped : ¬ ((stampRecon s.now s).Succeeds 0 ∧ (stampRecon s.now s).Succeeds 1 ∧ (stampRecon s.now s).Succeeds 2) := by
      simpa only [State.succeeds_stampRecon] using hn
    obtain ⟨t, es, hget, hframe, htrace, htrans, hlast, hwrites⟩ := getTime_failed hstamped
    refine ⟨takeError .transportError t, es, ?_, rfl, rfl, ?_, htrace, htrans, hlast, hwrites, ?_⟩
    · rw [exec_recon_of_running hr, reconcile_failed hget, concludePlain_raised]
    · rw [hframe]
      rfl
    · rw [hframe]
      rfl
  · intro s k left hr hf
    rw [exec_recon_of_running hr, reconcile_failsAt hf]
    rfl

/-! ## `START` (R142, R143) -/

/-- The environment does not look at the trace. -/
theorem State.moves_withTrace (k : Nat) (tr : List Event) (s : State) :
    ({ s with trace := tr } : State).moves k = { s.moves k with trace := tr } := by
  induction k with
  | zero => rfl
  | succ k ih =>
    rw [State.moves_succ, ih, State.moves_succ]
    unfold State.envMove
    dsimp only
    cases (s.moves k).turns <;> rfl

theorem State.readAt_withTrace (k : Nat) (a : Fin 3) (tr : List Event) (s : State) :
    ({ s with trace := tr } : State).readAt k a = s.readAt k a := by
  rw [State.readAt, State.moves_withTrace]
  rfl

/-- The state in which `START` reads the time: construction is over, both buttons are `Idle` (R122, R142). -/
def State.constructed (s : State) : State := resetButton .minute (resetButton .hour s)

theorem State.constructed_eq (s : State) :
    s.constructed = (s.setButton .hour { s.btnH with st := .idle }).setButton .minute { s.btnM with st := .idle } := rfl

theorem State.moves_constructed (k : Nat) (s : State) :
    s.constructed.moves k = { s.moves k with btnH := { s.btnH with st := .idle }, btnM := { s.btnM with st := .idle } } := by
  rw [State.constructed_eq, State.moves_setButton, State.moves_setButton]
  rfl

theorem State.readAt_constructed (k : Nat) (a : Fin 3) (s : State) : s.constructed.readAt k a = s.readAt k a := by
  rw [State.constructed_eq, State.readAt_setButton, State.readAt_setButton]

theorem State.readFailure_constructed (k : Fin 3) (s : State) :
    s.constructed.readFailure k =
      { s.readFailure k with btnH := { s.btnH with st := .idle }, btnM := { s.btnM with st := .idle } } := by
  rw [State.constructed_eq, State.readFailure_setButton, State.readFailure_setButton]
  rfl

/-- The transactions of `START` (R142): construction, then the three reads. -/
def startReads (s : State) : Attempt Time := (rtcInit s).andThen fun _ u => getTime u.constructed

/-- After its transactions `START` cannot fail. -/
theorem startUp_eq (s : State) :
    startUp s = (startReads s).andThen fun x u =>
      .done () { render (u.setMirror x.hour x.minute) with lastRecon := none, running := true } := by
  unfold startUp startReads
  cases rtcInit s <;> rfl

theorem startReads_of_init {s u : State} (hi : rtcInit s = .done () u) : startReads s = getTime u.constructed := by
  rw [startReads, hi, Attempt.andThen_done]

/-- `START` whose construction step fails goes no further (R143). -/
theorem startUp_of_failedInit {s t : State} (hi : rtcInit s = .raised .transportError t) :
    startUp s = .raised .transportError t := by
  rw [startUp, hi, Attempt.andThen_raised]

/-- A completed construction step has not moved the buttons. -/
theorem rtcInit_buttons {s u : State} (hi : rtcInit s = .done () u) : u.btnH = s.btnH ∧ u.btnM = s.btnM := by
  have hframe := rtcInit_only s
  rw [hi, Attempt.final_done] at hframe
  unfold OnlyTransport at hframe
  rw [hframe]
  exact ⟨rfl, rfl⟩

/-- `START` after its construction step, three good reads: the chip's time is adopted and rendered (R142). -/
theorem startUp_of_reads {s u : State} (hi : rtcInit s = .done () u) (h0 : u.Succeeds 0) (h1 : u.Succeeds 1)
    (h2 : u.Succeeds 2) :
    startUp s = .done () { State.rendered (mirrorNumber (decodeHours (u.readAt 2 2)) (bcd2dec (u.readAt 1 1))) { u.moves 3 with
        trace := u.trace ++ [.regRead 0 (u.readAt 0 0), .regRead 1 (u.readAt 1 1), .regRead 2 (u.readAt 2 2)] } with
      btnH := { s.btnH with st := .idle }
      btnM := { s.btnM with st := .idle }
      hour := decodeHours (u.readAt 2 2)
      minute := bcd2dec (u.readAt 1 1)
      lastRecon := none
      running := true } := by
  have hget := getTime_ok (s := u.constructed) (h0.congr rfl rfl) (h1.congr rfl rfl) (h2.congr rfl rfl)
  simp only [State.readAt_constructed, State.moves_constructed] at hget
  obtain ⟨hH, hM⟩ := rtcInit_buttons hi
  rw [startUp_eq, startReads_of_init hi, hget, Attempt.andThen_done, render_rendered, ← hH, ← hM]
  rfl

/-- `START` after its construction step, the `k`-th read failing (R143). -/
theorem startUp_of_failedRead {s u : State} {k : Fin 3} {left : Option Byte} (hi : rtcInit s = .done () u)
    (hf : u.FailsAt k left) :
    startUp s = .raised .transportError
      { u.readFailure k with btnH := { s.btnH with st := .idle }, btnM := { s.btnM with st := .idle } } := by
  have hget := getTime_failsAt (s := u.constructed) (hf.congr rfl rfl)
  obtain ⟨hH, hM⟩ := rtcInit_buttons hi
  rw [startUp_eq, startReads_of_init hi, hget, Attempt.andThen_raised, State.readFailure_constructed, hH, hM]

/-- Settles O34: `rtcInit` without and with its write, then three good reads; and the phase check. -/
theorem startInitialisesTheClock : Obligations.StartInitialisesTheClock := by
  unfold Obligations.StartInitialisesTheClock
  refine ⟨?_, ?_, fun s hr => exec_start_of_running hr⟩
  · intro s hr h0 h1 h2 h3 hclear
    have h1' : (s.moves 1).Succeeds 0 := h1
    have h2' : (s.moves 1).Succeeds 1 := h2
    have h3' : (s.moves 1).Succeeds 2 := h3
    rw [exec_start_of_stopped hr,
      startUp_of_reads (rtcInit_running h0 hclear) (h1'.congr rfl rfl) (h2'.congr rfl rfl) (h3'.congr rfl rfl)]
    simp only [State.readAt_withTrace, State.moves_withTrace, List.append_assoc]
    rfl
  · intro s u hr h0 h1 h2 h3 h4 hset hu
    have h2' : (s.moves 2).Succeeds 0 := h2
    have h3' : (s.moves 2).Succeeds 1 := h3
    have h4' : (s.moves 2).Succeeds 2 := h4
    rw [exec_start_of_stopped hr,
      startUp_of_reads (rtcInit_halted h0 h1 hset) (h2'.congr rfl rfl) (h3'.congr rfl rfl) (h4'.congr rfl rfl)]
    simp only [State.readAt_withTrace, State.moves_withTrace, List.append_assoc, hu]
    rfl

/-! ### Failures -/

/-- Only the buttons and what transactions touch differ (R143). -/
def OnlyStarting (s t : State) : Prop :=
  t = { s with btnH := t.btnH, btnM := t.btnM, rtc := t.rtc, turns := t.turns, draws := t.draws, trace := t.trace }

theorem OnlyTransport.onlyStarting {s t u : State} (h : OnlyStarting s t) (k : OnlyTransport t u) : OnlyStarting s u := by
  unfold OnlyStarting OnlyTransport at *
  rw [k]
  rw [h]

/-- A `START` that is still at its transactions has not written the mirror, the display, the pins or `lastRecon`. -/
theorem OnlyStarting.unwritten {s t : State} (h : OnlyStarting s t) : t.hour = s.hour ∧ t.minute = s.minute ∧
    t.disp = s.disp ∧ t.dv = s.dv ∧ t.le = s.le ∧ t.lastRecon = s.lastRecon ∧ t.terr = s.terr := by
  unfold OnlyStarting at h
  rw [h]
  exact ⟨rfl, rfl, rfl, rfl, rfl, rfl, rfl⟩

theorem startReads_onlyStarting (s : State) : OnlyStarting s (startReads s).final :=
  have hinit : OnlyStarting s (rtcInit s).final := OnlyTransport.onlyStarting (t := s) rfl (rtcInit_only s)
  Attempt.final_andThen (OnlyStarting s) hinit fun _ u hu =>
    have hconstructed : OnlyStarting s u.constructed := by
      unfold OnlyStarting at *
      rw [hu]
      rfl
    OnlyTransport.onlyStarting hconstructed (getTime_only u.constructed)

theorem FailsByTransport.startReads (s : State) : FailsByTransport s (startReads s) :=
  (FailsByTransport.rtcInit s).andThen fun _ u => FailsByTransport.getTime u.constructed

/-- How `START` ends at all: its transactions go well and it runs, or one of them failed and the clock stays stopped. -/
theorem exec_start_ends {s : State} (hr : s.running = false) :
    ∃ t es, exec .start s = .next t ∧ t.trace = s.trace ++ es ∧ t.res = 0#32 ∧
      ((t.err = 0#2 ∧ t.running = true ∧ ∀ e ∈ es, e.isFailure = false) ∨
       (t.err = 2#2 ∧ t.running = false ∧ (∃ e ∈ es, e.isFailure = true) ∧ t.hour = s.hour ∧ t.minute = s.minute ∧
        t.disp = s.disp ∧ t.dv = s.dv ∧ t.le = s.le ∧ t.lastRecon = s.lastRecon ∧ t.terr = s.terr)) := by
  obtain ⟨es, htrace, -, hrun, -, hend⟩ := FailsByTransport.startReads s
  have hunwritten := (startReads_onlyStarting s).unwritten
  rw [exec_start_of_stopped hr, startUp_eq]
  cases h : startReads s with
  | raised e t =>
    rw [h] at htrace hrun hend hunwritten
    obtain ⟨rfl, hfail⟩ := hend
    exact ⟨takeError .transportError t, es, rfl, htrace, rfl, .inr ⟨rfl, hrun.trans hr, hfail, hunwritten⟩⟩
  | done x t =>
    rw [h, Attempt.final_done] at htrace
    rw [h] at hend
    rw [Attempt.andThen_done, render_rendered]
    have hsilent := numberEvents_silent t.cfg (mirrorNumber x.hour x.minute)
    refine ⟨_, es ++ numberEvents t.cfg (mirrorNumber x.hour x.minute), rfl, ?_, rfl, .inl ⟨rfl, rfl, ?_⟩⟩
    · rw [← List.append_assoc, ← htrace]
      rfl
    · intro e he
      obtain he | he := List.mem_append.mp he
      · exact hend e he
      · exact (hsilent e he).1

/-- Settles O35: the two ends of `START`, and each transaction that can fail: the construction read, the construction
write, one of the three reads. -/
theorem failedStartLeavesTheClockStopped : Obligations.FailedStartLeavesTheClockStopped := by
  unfold Obligations.FailedStartLeavesTheClockStopped
  refine ⟨fun s hr => exec_start_ends hr, ?_, ?_, ?_, ?_⟩
  · intro s hr h0
    rw [exec_start_of_stopped hr, startUp_of_failedInit (rtcInit_fail0 h0)]
    rfl
  · intro s left hr h0 h1 hset
    rw [exec_start_of_stopped hr, startUp_of_failedInit (rtcInit_fail1 h0 h1 hset)]
    rfl
  · rintro s u k left hr h0 hclear rfl hf
    rw [exec_start_of_stopped hr, startUp_of_failedRead (rtcInit_running h0 hclear) hf]
    rfl
  · rintro s u k left hr h0 h1 hset rfl hf
    rw [exec_start_of_stopped hr, startUp_of_failedRead (rtcInit_halted h0 h1 hset) hf]
    rfl

end Sys2Proof.Machine
end

section
/-! PROOFS. `TICK` (`43_controller.md` section 3): its steps one by one, in any environment. -/

namespace Sys2Proof.Machine

/-! ## One button step (R120, R127, R150) -/

/-- The ButtonState that one `process` call leaves (R127). -/
def State.moved (b : Button) (s : State) : ButtonState := (nextButton s.cfg (s.asserted b) s.now (s.button b)).1

/-- A call of `process b` in `t` samples what it would sample in `s` (R120, R155): what else differs does not matter to it. -/
structure SameCall (b : Button) (s t : State) : Prop where
  cfg : t.cfg = s.cfg
  now : t.now = s.now
  pin : t.buttonPin b = s.buttonPin b
  button : t.button b = s.button b

theorem SameCall.refl (b : Button) (s : State) : SameCall b s s := ⟨rfl, rfl, rfl, rfl⟩

theorem SameCall.nextButton_eq {b : Button} {s t : State} (h : SameCall b s t) :
    nextButton t.cfg (t.asserted b) s.now (t.button b) = nextButton s.cfg (s.asserted b) s.now (s.button b) := by
  rw [State.asserted, State.asserted, h.cfg, h.pin, h.button]

theorem SameCall.firing_eq {b : Button} {s t : State} (h : SameCall b s t) : firing b s.now t = firing b s.now s :=
  congrArg Prod.snd h.nextButton_eq

theorem SameCall.process_eq {b : Button} {s t : State} (h : SameCall b s t) :
    process b s.now t = { t.setButton b (s.moved b) with trace := t.trace ++ firingEvents b (firing b s.now s) } := by
  rw [Machine.process_eq, h.nextButton_eq, h.firing_eq]
  rfl

/-- Transactions do not touch what a button samples. -/
theorem OnlyTransport.sameCall {s t : State} (h : OnlyTransport s t) (b : Button) : SameCall b s t := by
  unfold OnlyTransport at h
  rw [h]
  cases b <;> exact ⟨rfl, rfl, rfl, rfl⟩

/-- Button `b` has moved to `x`, and its event `f` is in the trace (R133). -/
def State.called (b : Button) (x : ButtonState) (f : Firing) (s : State) : State :=
  { s.setButton b x with trace := s.trace ++ [firingEvent b f] }

/-- A button step without an event moves the button alone. -/
theorem SameCall.buttonStep_silent {b : Button} {s t : State} (h : SameCall b s t) (hf : firing b s.now s = none)
    (inc : State → Attempt Unit) : buttonStep b inc s.now t = .done () (t.setButton b (s.moved b)) := by
  rw [buttonStep_none (h.firing_eq.trans hf), h.process_eq, hf]
  simp only [firingEvents, List.append_nil]
  cases b <;> rfl

/-- A button step with an event increments after the button has moved and its event is in the trace (R133). -/
theorem SameCall.buttonStep_fired {b : Button} {s t : State} {f : Firing} (h : SameCall b s t)
    (hf : firing b s.now s = some f) (inc : State → Attempt Unit) :
    buttonStep b inc s.now t = inc (t.called b (s.moved b) f) := by
  rw [buttonStep_some (h.firing_eq.trans hf), h.process_eq, hf]
  rfl

/-! ## Increments on a polled button -/

theorem State.wrote_setButton (a : Fin 3) (v : Byte) (b : Button) (x : ButtonState) (s : State) :
    (s.setButton b x).wrote a v = (s.wrote a v).setButton b x := by
  show ((s.setButton b x).moves 1).putChip a v = _
  rw [State.moves_setButton]
  cases b <;> rfl

theorem State.wrote_withTrace (a : Fin 3) (v : Byte) (tr : List Event) (s : State) :
    ({ s with trace := tr } : State).wrote a v = { s.wrote a v with trace := tr } := by
  show (({ s with trace := tr } : State).moves 1).putChip a v = _
  rw [State.moves_withTrace]
  rfl

/-- Three writes touch nothing but the chip and the script. -/
theorem State.wrote_three_only (b0 b1 b2 : Byte) (s : State) :
    OnlyTransport s (((s.wrote 0 b0).wrote 1 b1).wrote 2 b2) :=
  have hwrote (a : Fin 3) (v : Byte) (t : State) : OnlyTransport t (t.wrote a v) :=
    t.envMove_only.trans (State.putChip_only a v t.envMove)
  ((hwrote 0 b0 s).trans (hwrote 1 b1 _)).trans (hwrote 2 b2 _)

/-- What step 2 of a tick with the event `f` leaves when its three writes succeed (R145). -/
def State.hourStepped (f : Firing) (s : State) : State :=
  { State.rendered (mirrorNumber ((s.hour + 1) % 24) s.minute)
      { ((s.wrote 0 0x00#8).wrote 1 (minutesByte s.minute)).wrote 2 (hoursByte ((s.hour + 1) % 24 : Nat)) with
        trace := s.trace ++ [firingEvent .hour f, .regWrite 0 0x00#8, .regWrite 1 (minutesByte s.minute),
          .regWrite 2 (hoursByte ((s.hour + 1) % 24 : Nat))] } with
    btnH := s.moved .hour
    hour := (s.hour + 1) % 24 }

/-- What step 3 of a tick with the event `f` leaves when its three writes succeed (R146). -/
def State.minuteStepped (f : Firing) (s : State) : State :=
  { State.rendered (mirrorNumber s.hour ((s.minute + 1) % 60))
      { ((s.wrote 0 0x00#8).wrote 1 (minutesByte ((s.minute + 1) % 60 : Nat))).wrote 2 (hoursByte s.hour) with
        trace := s.trace ++ [firingEvent .minute f, .regWrite 0 0x00#8, .regWrite 1 (minutesByte ((s.minute + 1) % 60 : Nat)),
          .regWrite 2 (hoursByte s.hour)] } with
    btnM := s.moved .minute
    minute := (s.minute + 1) % 60 }

theorem hourStep_fired {s : State} {f : Firing} (hf : firing .hour s.now s = some f) (h0 : s.Succeeds 0) (h1 : s.Succeeds 1)
    (h2 : s.Succeeds 2) : buttonStep .hour incHour s.now s = .done () (s.hourStepped f) := by
  rw [(SameCall.refl .hour s).buttonStep_fired hf,
    incHour_ok (s := s.called .hour (s.moved .hour) f) (h0.congr rfl rfl) (h1.congr rfl rfl) (h2.congr rfl rfl),
    secondsByte_zero]
  simp only [State.called, State.wrote_withTrace, State.wrote_setButton, List.append_assoc]
  rfl

theorem minuteStep_fired {s : State} {f : Firing} (hf : firing .minute s.now s = some f) (h0 : s.Succeeds 0)
    (h1 : s.Succeeds 1) (h2 : s.Succeeds 2) :
    buttonStep .minute incMinute s.now s = .done () (s.minuteStepped f) := by
  rw [(SameCall.refl .minute s).buttonStep_fired hf,
    incMinute_ok (s := s.called .minute (s.moved .minute) f) (h0.congr rfl rfl) (h1.congr rfl rfl) (h2.congr rfl rfl),
    secondsByte_zero]
  simp only [State.called, State.wrote_withTrace, State.wrote_setButton, List.append_assoc]
  rfl

/-- The hour step does not touch what the minute button samples. -/
theorem State.hourStepped_sameCall (f : Firing) (s : State) : SameCall .minute s (s.hourStepped f) := by
  obtain ⟨hcfg, hnow, hpin, hbtn⟩ := (s.wrote_three_only _ _ (hoursByte ((s.hour + 1) % 24 : Nat))).sameCall .minute
  exact ⟨hcfg, hnow, hpin, hbtn⟩

theorem State.hourStepped_minute (f : Firing) (s : State) : (s.hourStepped f).minute = s.minute :=
  (s.wrote_three_only _ _ (hoursByte ((s.hour + 1) % 24 : Nat))).keepsController.minute

/-! ## The steps composed (R149, R150) -/

/-- After steps 2 and 3 have gone well the tick is its step 4. -/
theorem tickSteps_of_buttons {s u v : State} {now : Nat} (hu : buttonStep .hour incHour now s = .done () u)
    (hv : buttonStep .minute incMinute now u = .done () v) : tickSteps now s = reconStep now v := by
  rw [tickSteps, hu, Attempt.andThen_done, hv, Attempt.andThen_done]

/-- A raising step 2 ends the tick (R153). -/
theorem tickSteps_of_hour_raised {s u : State} {now : Nat} {e : ErrorKind}
    (hu : buttonStep .hour incHour now s = .raised e u) : tickSteps now s = .raised e u := by
  rw [tickSteps, hu, Attempt.andThen_raised]

/-- A raising step 3 ends the tick (R153). -/
theorem tickSteps_of_minute_raised {s u v : State} {now : Nat} {e : ErrorKind}
    (hu : buttonStep .hour incHour now s = .done () u) (hv : buttonStep .minute incMinute now u = .raised e v) :
    tickSteps now s = .raised e v := by
  rw [tickSteps, hu, Attempt.andThen_done, hv, Attempt.andThen_raised]

/-- `t` has what the condition of step 4 looks at as in `s` (R151). -/
structure SameDue (s t : State) : Prop where
  cfg : t.cfg = s.cfg
  now : t.now = s.now
  lastRecon : t.lastRecon = s.lastRecon

theorem SameDue.reconDue_iff {s t : State} (h : SameDue s t) : t.ReconDue ↔ s.ReconDue := by
  rw [State.ReconDue, State.ReconDue, h.cfg, h.now, h.lastRecon]

theorem SameDue.reconStep_due {s t : State} (h : SameDue s t) (hd : s.ReconDue) :
    reconStep s.now t = reconcile s.now t := by
  rw [← h.now]
  exact Machine.reconStep_due ((Machine.reconDue_iff t).mpr (h.reconDue_iff.mpr hd))

theorem SameDue.reconStep_notDue {s t : State} (h : SameDue s t) (hd : ¬ s.ReconDue) : reconStep s.now t = .done () t := by
  rw [← h.now]
  exact Machine.reconStep_notDue (reconDue_eq_false fun ht => hd (h.reconDue_iff.mp ht))

theorem OnlyTransport.sameDue {s t : State} (h : OnlyTransport s t) : SameDue s t := by
  unfold OnlyTransport at h
  rw [h]
  exact ⟨rfl, rfl, rfl⟩

theorem State.hourStepped_sameDue (f : Firing) (s : State) : SameDue s (s.hourStepped f) := by
  obtain ⟨hcfg, hnow, hlast⟩ := (s.wrote_three_only _ _ (hoursByte ((s.hour + 1) % 24 : Nat))).sameDue
  exact ⟨hcfg, hnow, hlast⟩

theorem State.minuteStepped_sameDue (f : Firing) (s : State) : SameDue s (s.minuteStepped f) := by
  obtain ⟨hcfg, hnow, hlast⟩ := (s.wrote_three_only _ _ (hoursByte s.hour)).sameDue
  exact ⟨hcfg, hnow, hlast⟩

/-! ## No button event (R149, R151, R152) -/

/-- Both buttons moved by their own machines (R120, R127). -/
def State.buttonsMoved (s : State) : State := (s.setButton .hour (s.moved .hour)).setButton .minute (s.moved .minute)

theorem State.moves_buttonsMoved (k : Nat) (s : State) :
    s.buttonsMoved.moves k = { s.moves k with btnH := s.buttonsMoved.btnH, btnM := s.buttonsMoved.btnM } := by
  rw [State.buttonsMoved, State.moves_setButton, State.moves_setButton]
  rfl

theorem State.readAt_buttonsMoved (k : Nat) (a : Fin 3) (s : State) : s.buttonsMoved.readAt k a = s.readAt k a := by
  rw [State.buttonsMoved, State.readAt_setButton, State.readAt_setButton]

theorem State.readFailure_buttonsMoved (k : Fin 3) (s : State) :
    s.buttonsMoved.readFailure k = { s.readFailure k with btnH := s.buttonsMoved.btnH, btnM := s.buttonsMoved.btnM } := by
  rw [State.buttonsMoved, State.readFailure_setButton, State.readFailure_setButton]
  rfl

/-- A tick in which no button fires is its step 4 on the moved buttons. -/
theorem tickSteps_silent {s : State} (hH : firing .hour s.now s = none) (hM : firing .minute s.now s = none) :
    tickSteps s.now s = reconStep s.now s.buttonsMoved := by
  have hcall : SameCall .minute s (s.setButton .hour (s.moved .hour)) := ⟨rfl, rfl, rfl, rfl⟩
  exact tickSteps_of_buttons ((SameCall.refl .hour s).buttonStep_silent hH incHour) (hcall.buttonStep_silent hM incMinute)

/-- With no button event and a reconciliation due the tick is `reconcile` on the moved buttons. -/
theorem tickSteps_silent_due {s : State} (hH : firing .hour s.now s = none) (hM : firing .minute s.now s = none)
    (hd : s.ReconDue) : tickSteps s.now s = reconcile s.now s.buttonsMoved :=
  (tickSteps_silent hH hM).trans (SameDue.reconStep_due ⟨rfl, rfl, rfl⟩ hd)

/-- A reconciliation that is not due. -/
theorem State.not_reconDue {s : State} {last : Nat} (hlast : s.lastRecon = some last)
    (h : (s.now : Int) - (last : Int) < (s.cfg.refreshMs : Int)) : ¬ s.ReconDue := by
  rintro (hnone | ⟨l, hl, hle⟩)
  · rw [hlast] at hnone
    cases hnone
  · rw [hlast] at hl
    obtain rfl := Option.some.inj hl
    omega

/-- Settles O40: no step has anything to do but to move its button. -/
theorem quietTickMovesOnlyTheButtons : Obligations.QuietTickMovesOnlyTheButtons := by
  unfold Obligations.QuietTickMovesOnlyTheButtons
  rintro s hr hH hM ⟨last, hlast, hlt⟩
  exact exec_tick_done hr ((tickSteps_silent hH hM).trans
    (SameDue.reconStep_notDue ⟨rfl, rfl, rfl⟩ (State.not_reconDue hlast hlt)))

/-- Settles O44: the three ways `reconcile` can end, on the moved buttons. -/
theorem tickWithoutEventsReconciles : Obligations.TickWithoutEventsReconciles := by
  unfold Obligations.TickWithoutEventsReconciles
  refine ⟨?_, ?_, ?_⟩
  · intro s hr hH hM hd h0 h1 h2 hh hm
    have hrec := reconcile_same (s := s.buttonsMoved) (h0.congr rfl rfl) (h1.congr rfl rfl) (h2.congr rfl rfl)
      (by rw [State.readAt_buttonsMoved]; exact hh) (by rw [State.readAt_buttonsMoved]; exact hm) s.now
    simp only [State.readAt_buttonsMoved, State.moves_buttonsMoved] at hrec
    exact exec_tick_done hr ((tickSteps_silent_due hH hM hd).trans hrec)
  · intro s hr hH hM hd h0 h1 h2 hne
    have hrec := reconcile_differs (s := s.buttonsMoved) (h0.congr rfl rfl) (h1.congr rfl rfl) (h2.congr rfl rfl)
      (by rw [State.readAt_buttonsMoved, State.readAt_buttonsMoved]; exact hne) s.now
    simp only [State.readAt_buttonsMoved, State.moves_buttonsMoved] at hrec
    exact exec_tick_done hr ((tickSteps_silent_due hH hM hd).trans hrec)
  · intro s k left hr hH hM hd hf
    have hrec := reconcile_failsAt (s := s.buttonsMoved) (hf.congr rfl rfl) s.now
    rw [State.readFailure_buttonsMoved] at hrec
    exact exec_tick_raised hr ((tickSteps_silent_due hH hM hd).trans hrec)

/-! ## One button event (R150) -/

/-- Settles O45: the button that fires increments (`hourStep_fired`, `minuteStep_fired`), the other moves alone. -/
theorem tickWithOneEventIncrementsOne : Obligations.TickWithOneEventIncrementsOne := by
  unfold Obligations.TickWithOneEventIncrementsOne
  constructor
  · intro s f hr hH hM hd h0 h1 h2
    have hsteps := tickSteps_of_buttons (hourStep_fired hH h0 h1 h2)
      ((s.hourStepped_sameCall f).buttonStep_silent hM incMinute)
    obtain ⟨hcfg, hnow, hlast⟩ := s.hourStepped_sameDue f
    have hdue : SameDue s ((s.hourStepped f).setButton .minute (s.moved .minute)) := ⟨hcfg, hnow, hlast⟩
    exact exec_tick_done hr (hsteps.trans (hdue.reconStep_notDue hd))
  · intro s f hr hH hM hd h0 h1 h2
    have hfires : firing .minute s.now (s.setButton .hour (s.moved .hour)) = some f := by
      rw [firing_setButton (by decide), hM]
    have hsteps := tickSteps_of_buttons ((SameCall.refl .hour s).buttonStep_silent hH incHour)
      (minuteStep_fired hfires (h0.congr rfl rfl) (h1.congr rfl rfl) (h2.congr rfl rfl))
    obtain ⟨hcfg, hnow, hlast⟩ := (s.setButton .hour (s.moved .hour)).minuteStepped_sameDue f
    have hdue : SameDue s ((s.setButton .hour (s.moved .hour)).minuteStepped f) := ⟨hcfg, hnow, hlast⟩
    refine (exec_tick_done hr (hsteps.trans (hdue.reconStep_notDue hd))).trans ?_
    simp only [State.minuteStepped, State.wrote_setButton]
    rfl

/-! ## A failing increment (R153) -/

/-- A step 2 whose `k`-th write fails (R106, R153). -/
theorem tickSteps_of_failed_hour {s : State} {f : Firing} {k : Fin 3} {left : Option Byte}
    (hH : firing .hour s.now s = some f) (hf : s.FailsAt k left) :
    tickSteps s.now s = .raised .transportError (State.writeFailure 0x00#8 (minutesByte s.minute) k left
      (s.called .hour (s.moved .hour) f)) := by
  apply tickSteps_of_hour_raised
  rw [(SameCall.refl .hour s).buttonStep_fired hH, incHour_failsAt (s := s.called .hour (s.moved .hour) f) (hf.congr rfl rfl),
    secondsByte_zero]
  rfl

/-- A step 3 whose `k`-th write fails, after a step 2 that went well and left the minute and its button (R106, R153). -/
theorem tickSteps_of_failed_minute {s u : State} {f : Firing} {k : Fin 3} {left : Option Byte}
    (hu : buttonStep .hour incHour s.now s = .done () u) (hcall : SameCall .minute s u) (hmin : u.minute = s.minute)
    (hM : firing .minute s.now s = some f) (hf : u.FailsAt k left) :
    tickSteps s.now s = .raised .transportError (State.writeFailure 0x00#8 (minutesByte ((s.minute + 1) % 60 : Nat)) k left
      (u.called .minute (s.moved .minute) f)) := by
  apply tickSteps_of_minute_raised hu
  rw [hcall.buttonStep_fired hM, incMinute_failsAt (s := u.called .minute (s.moved .minute) f) (hf.congr rfl rfl),
    secondsByte_zero, ← hmin]
  rfl

/-- Settles O47: step 2 went well, without or with an event, and step 3 fails. -/
theorem failedMinuteStepKeepsTheHoursChange : Obligations.FailedMinuteStepKeepsTheHoursChange := by
  unfold Obligations.FailedMinuteStepKeepsTheHoursChange
  constructor
  · intro s f k left hr hH hM hf
    exact exec_tick_raised hr (tickSteps_of_failed_minute ((SameCall.refl .hour s).buttonStep_silent hH incHour)
      ⟨rfl, rfl, rfl, rfl⟩ rfl hM (hf.congr rfl rfl))
  · rintro s u f g k left hr hH hM h0 h1 h2 rfl hf
    exact exec_tick_raised hr (tickSteps_of_failed_minute (hourStep_fired hH h0 h1 h2) (s.hourStepped_sameCall f)
      (s.hourStepped_minute f) hM hf)

/-- Settles O46: the failing write is one of three (`State.failsAt_of_not_all`). -/
theorem failedHourStepSkipsTheRestOfTheTick : Obligations.FailedHourStepSkipsTheRestOfTheTick := by
  unfold Obligations.FailedHourStepSkipsTheRestOfTheTick
  constructor
  · intro s f hr hH hn
    have hn' : ¬ ((s.called .hour (s.moved .hour) f).Succeeds 0 ∧ (s.called .hour (s.moved .hour) f).Succeeds 1 ∧
        (s.called .hour (s.moved .hour) f).Succeeds 2) :=
      fun ⟨h0, h1, h2⟩ => hn ⟨h0.congr rfl rfl, h1.congr rfl rfl, h2.congr rfl rfl⟩
    obtain ⟨t, es, hset, hframe, htrace, htrans, hlast⟩ := setTime_failed ((s.hour + 1) % 24 : Nat) s.minute 0 hn'
    have hstep := ((SameCall.refl .hour s).buttonStep_fired hH incHour).trans (incHour_failed hset)
    unfold OnlyTransport at hframe
    refine ⟨t.reported, es, exec_tick_raised hr (tickSteps_of_hour_raised hstep), rfl, rfl, rfl, ?_⟩
    rw [hframe]
    refine ⟨hr, rfl, rfl, rfl, rfl, rfl, rfl, rfl, rfl, ?_, htrans, hlast⟩
    exact congrArg (· ++ [Event.report .transportError]) htrace
  · intro s f k left hr hH hf
    exact exec_tick_raised hr (tickSteps_of_failed_hour hH hf)

/-- Settles O48: the body of a tick raises exactly when one of its transactions fails (`FailsByTransport`), and the catch
reports exactly then. -/
theorem tickCatchesEveryTransportError : Obligations.TickCatchesEveryTransportError := by
  unfold Obligations.TickCatchesEveryTransportError
  intro s hr
  obtain ⟨es, htrace, hsilent, hrun, hterr, hend⟩ := FailsByTransport.tickSteps s.now s
  cases h : tickSteps s.now s with
  | done a t =>
    rw [h] at htrace hrun hterr hend
    refine ⟨_, es, exec_tick_done hr h, rfl, rfl, hrun.trans hr, htrace, ?_, ?_⟩
    · refine iff_of_false ?_ (hsilent _)
      rintro ⟨e, he, hfail⟩
      exact absurd hfail (by simp [hend e he])
    · show t.terr = true ↔ _
      rw [show t.terr = s.terr from hterr]
      exact (or_iff_left (hsilent _)).symm
  | raised e t =>
    rw [h] at htrace hrun hend
    obtain ⟨rfl, e, he, hfail⟩ := hend
    refine ⟨t.reported, es ++ [.report .transportError], exec_tick_raised hr h, rfl, rfl, hrun.trans hr, ?_, ?_, ?_⟩
    · rw [← List.append_assoc, ← htrace]
      rfl
    · exact iff_of_true ⟨e, List.mem_append_left _ he, hfail⟩ (by simp)
    · exact iff_of_true rfl (.inr (by simp))

end Sys2Proof.Machine
end

section
/-! PROOFS. `TICK` by the commands it is made of (R149, R153): its steps have the effects of `INCH`, `INCM` and `RECON`. -/

namespace Sys2Proof.Machine

/-! ## What a command's end says of its pseudocode (R16, R171) -/

theorem ErrorKind.code_ne_zero (e : ErrorKind) : e.code ≠ 0#2 := by
  cases e with
  | invalidArgument => decide
  | transportError => decide
  | illegalCommand => decide

/-- `ERR` = 0 says that nothing was raised. -/
theorem done_of_concludePlain {r : Attempt Unit} {w : State} (h : concludePlain r = w) (herr : w.err = 0#2) :
    ∃ t, r = .done () t ∧ w = complete 0#32 t := by
  cases r with
  | done a t => exact ⟨t, rfl, h.symm⟩
  | raised e t =>
    rw [← h] at herr
    exact absurd herr e.code_ne_zero

/-- Any other `ERR` says that a transport error was raised, where no other kind can be. -/
theorem FailsByTransport.raised_of_concludePlain {s w : State} {r : Attempt Unit} (hr : FailsByTransport s r)
    (h : Machine.concludePlain r = w) (herr : w.err ≠ 0#2) :
    ∃ t, r = .raised .transportError t ∧ w = takeError .transportError t := by
  cases r with
  | done a t =>
    rw [← h] at herr
    exact absurd rfl herr
  | raised e t =>
    obtain ⟨es, -, -, -, -, rfl, -⟩ := hr
    exact ⟨t, rfl, h.symm⟩

/-! ## A button step and its command (R148, R150) -/

/-- `inc` is what the command `i` runs; it can fail by transport only, and leaves `RES` and `ERR` to the command's end. -/
structure IncrementOf (i : Instr) (inc : State → Attempt Unit) : Prop where
  exec_eq : ∀ p : State, p.running = true → exec i p = .next (concludePlain (inc p))
  result : ∀ p, (inc p).final.res = p.res ∧ (inc p).final.err = p.err
  fails : ∀ p, FailsByTransport p (inc p)
  kept : ∀ p, Kept p (inc p).final

theorem OnlyTransport.result {s t : State} (h : OnlyTransport s t) : t.res = s.res ∧ t.err = s.err := by
  unfold OnlyTransport at h
  rw [h]
  exact ⟨rfl, rfl⟩

/-- Neither a transaction nor a rendering writes `RES` or `ERR` (R35). -/
theorem incHour_result (s : State) : (incHour s).final.res = s.res ∧ (incHour s).final.err = s.err :=
  Attempt.final_andThen (fun t => t.res = s.res ∧ t.err = s.err) (setTime_only _ _ _ s).result fun _ t ht => by
    rw [Attempt.final_done, render_rendered]
    exact ht

theorem incMinute_result (s : State) : (incMinute s).final.res = s.res ∧ (incMinute s).final.err = s.err :=
  Attempt.final_andThen (fun t => t.res = s.res ∧ t.err = s.err) (setTime_only _ _ _ s).result fun _ t ht => by
    rw [Attempt.final_done, render_rendered]
    exact ht

theorem incrementOf_inch : IncrementOf .inch incHour where
  exec_eq := fun _ hr => exec_inch_of_running hr
  result := incHour_result
  fails := FailsByTransport.incHour
  kept := Kept.incHour

theorem incrementOf_incm : IncrementOf .incm incMinute where
  exec_eq := fun _ hr => exec_incm_of_running hr
  result := incMinute_result
  fails := FailsByTransport.incMinute
  kept := Kept.incMinute

theorem State.polled_running (b : Button) (s : State) : (s.polled b).running = s.running := by cases b <;> rfl

/-- A step that went well by its command went well, and ended in the same state. -/
theorem IncrementOf.buttonStep_done {i : Instr} {inc : State → Attempt Unit} {b : Button} {s u : State}
    (hi : IncrementOf i inc) (hr : s.running = true) (h : StepRan i (firing b s.now s) (s.polled b) u) :
    buttonStep b inc s.now s = .done () u := by
  cases hf : firing b s.now s with
  | none =>
    rw [hf] at h
    rw [buttonStep_none hf, process_polled, show u = s.polled b from h]
  | some f =>
    rw [hf] at h
    obtain ⟨hexec, hres, herr⟩ := h
    rw [hi.exec_eq _ ((s.polled_running b).trans hr)] at hexec
    obtain ⟨t, hdone, ht⟩ := done_of_concludePlain (Host.Outcome.next.inj hexec) rfl
    obtain ⟨htres, hterr⟩ := hi.result (s.polled b)
    rw [hdone, Attempt.final_done] at htres hterr
    have htu : t = u := calc
      t = { complete 0#32 t with res := t.res, err := t.err } := rfl
      _ = u := by rw [← ht, htres, hterr, ← hres, ← herr]
    rw [buttonStep_some hf, process_polled, hdone, htu]

/-- A step whose command fails raises a transport error where the command raised it. -/
theorem IncrementOf.buttonStep_raised {i : Instr} {inc : State → Attempt Unit} {b : Button} {s u : State}
    (hi : IncrementOf i inc) (hr : s.running = true) (hf : firing b s.now s ≠ none) (h : exec i (s.polled b) = .next u)
    (herr : u.err ≠ 0#2) :
    ∃ t, buttonStep b inc s.now s = .raised .transportError t ∧ u = takeError .transportError t := by
  obtain ⟨f, hf⟩ := Option.ne_none_iff_exists'.mp hf
  rw [hi.exec_eq _ ((s.polled_running b).trans hr)] at h
  obtain ⟨t, hraised, ht⟩ := (hi.fails _).raised_of_concludePlain (Host.Outcome.next.inj h) herr
  exact ⟨t, by rw [buttonStep_some hf, process_polled, hraised], ht⟩

/-- A step that went well keeps `NOW` and the phase (R155). -/
theorem IncrementOf.kept_of_done {i : Instr} {inc : State → Attempt Unit} {b : Button} {s u : State}
    (hi : IncrementOf i inc) (h : buttonStep b inc s.now s = .done () u) : Kept s u := by
  have hk : Kept s (buttonStep b inc s.now s).final := .buttonStep b hi.kept s.now s
  rwa [h, Attempt.final_done] at hk

/-! ## The steps of a tick by their commands -/

theorem hourStep_of_stepRan {s u : State} (hr : s.running = true)
    (h : StepRan .inch (firing .hour s.now s) (s.polled .hour) u) :
    buttonStep .hour incHour s.now s = .done () u ∧ u.running = true ∧ u.now = s.now := by
  have hstep := incrementOf_inch.buttonStep_done hr h
  have hk := incrementOf_inch.kept_of_done hstep
  exact ⟨hstep, hk.running hr, hk.now⟩

theorem minuteStep_of_stepRan {u v : State} (hr : u.running = true)
    (h : StepRan .incm (firing .minute u.now u) (u.polled .minute) v) :
    buttonStep .minute incMinute u.now u = .done () v ∧ v.running = true ∧ v.now = u.now := by
  have hstep := incrementOf_incm.buttonStep_done hr h
  have hk := incrementOf_incm.kept_of_done hstep
  exact ⟨hstep, hk.running hr, hk.now⟩

/-- After steps 2 and 3 by their commands the tick is its step 4. -/
theorem tickSteps_of_stepsRan {s u v : State} (hr : s.running = true)
    (hu : StepRan .inch (firing .hour s.now s) (s.polled .hour) u)
    (hv : StepRan .incm (firing .minute u.now u) (u.polled .minute) v) :
    tickSteps s.now s = reconStep v.now v ∧ v.running = true := by
  obtain ⟨hstepH, hurun, hunow⟩ := hourStep_of_stepRan hr hu
  obtain ⟨hstepM, hvrun, hvnow⟩ := minuteStep_of_stepRan hurun hv
  rw [hunow] at hstepM hvnow
  rw [tickSteps_of_buttons hstepH hstepM, hvnow]
  exact ⟨rfl, hvrun⟩

/-- Settles O43: each step does what its command does (`IncrementOf`), and the first that raises is the last. -/
theorem tickRunsItsStepsInOrder : Obligations.TickRunsItsStepsInOrder := by
  unfold Obligations.TickRunsItsStepsInOrder
  refine ⟨?_, ?_, ?_, ?_, fun s hr => exec_refused_of_stopped hr rfl (by decide)⟩
  · rintro s u v w hr hu hv (⟨hd, hexec, herr⟩ | ⟨hd, rfl⟩)
    · obtain ⟨hsteps, hvrun⟩ := tickSteps_of_stepsRan hr hu hv
      rw [exec_recon_of_running hvrun] at hexec
      obtain ⟨t, hdone, rfl⟩ := done_of_concludePlain (Host.Outcome.next.inj hexec) herr
      rw [reconStep_due ((reconDue_iff v).mpr hd), hdone] at hsteps
      rw [exec_tick_done hr hsteps]
      rfl
    · obtain ⟨hsteps, -⟩ := tickSteps_of_stepsRan hr hu hv
      exact exec_tick_done hr (hsteps.trans (reconStep_notDue (reconDue_eq_false hd)))
  · intro s u hr hf hexec herr
    obtain ⟨t, hstep, rfl⟩ := incrementOf_inch.buttonStep_raised hr hf hexec herr
    rw [exec_tick_raised hr (tickSteps_of_hour_raised hstep)]
    rfl
  · intro s u v hr hu hf hexec herr
    obtain ⟨hstepH, hurun, hunow⟩ := hourStep_of_stepRan hr hu
    obtain ⟨t, hstepM, rfl⟩ := incrementOf_incm.buttonStep_raised hurun hf hexec herr
    rw [hunow] at hstepM
    rw [exec_tick_raised hr (tickSteps_of_minute_raised hstepH hstepM)]
    rfl
  · intro s u v w hr hu hv hd hexec herr
    obtain ⟨hsteps, hvrun⟩ := tickSteps_of_stepsRan hr hu hv
    rw [exec_recon_of_running hvrun] at hexec
    have hfails := FailsByTransport.reconcile v.now v
    obtain ⟨t, hraised, rfl⟩ := hfails.raised_of_concludePlain (Host.Outcome.next.inj hexec) herr
    rw [reconStep_due ((reconDue_iff v).mpr hd), hraised] at hsteps
    rw [exec_tick_raised hr hsteps]
    rfl

end Sys2Proof.Machine
end

section
/-! PROOFS. `TICK` on a quiescent chip (R53, R150, R155): whichever buttons fire, and whether or not a reconciliation is
due. -/

namespace Sys2Proof.Machine

theorem State.Quiescent.mono {s : State} {m n : Nat} (h : s.Quiescent n) (hmn : m ≤ n) : s.Quiescent m := by
  have htake := congrArg (List.take m) (show s.turns.take n = List.replicate n Turn.quiet from h)
  rw [List.take_take, List.take_replicate, Nat.min_eq_left hmn] at htake
  exact htake

/-! ## What a tick can change on a quiescent chip -/

/-- Only the buttons, the mirror, `lastRecon`, the chip, the script, the display, the pins and the trace differ. -/
def OnlyTicked (s t : State) : Prop :=
  t = { s with
    btnH := t.btnH, btnM := t.btnM, hour := t.hour, minute := t.minute, lastRecon := t.lastRecon, rtc := t.rtc
    turns := t.turns, dv := t.dv, le := t.le, disp := t.disp, trace := t.trace }

theorem OnlyTicked.trans {s t u : State} (h : OnlyTicked s t) (k : OnlyTicked t u) : OnlyTicked s u := by
  unfold OnlyTicked at *
  rw [k]
  rw [h]

theorem OnlyTicked.setButton (b : Button) (x : ButtonState) (s : State) : OnlyTicked s (s.setButton b x) := by
  cases b <;> rfl

theorem OnlyTicked.sameDue {s t : State} (h : OnlyTicked s t) (hlast : t.lastRecon = s.lastRecon) : SameDue s t := by
  refine ⟨?_, ?_, hlast⟩ <;> rw [h]

theorem OnlyTicked.sameCall {b : Button} {s t : State} (h : OnlyTicked s t) (hb : t.button b = s.button b) :
    SameCall b s t := by
  refine ⟨by rw [h], by rw [h], ?_, hb⟩
  rw [h]
  cases b <;> rfl

/-! ## Button steps -/

/-- `u` comes from `s` by button steps of a tick with the events `es`, after which `n` quiet transactions are still to come.
If none of them incremented, only buttons have moved; if one did, the chip spells the mirror and the display shows it. -/
structure QuietSteps (s u : State) (incremented : Prop) (es : List Event) (n : Nat) : Prop where
  frame : OnlyTicked s u
  lastRecon : u.lastRecon = s.lastRecon
  trace : u.trace = s.trace ++ es
  quiet : u.Quiescent n
  still : ¬ incremented → u.rtc = s.rtc ∧ u.hour = s.hour ∧ u.minute = s.minute ∧ u.disp = s.disp ∧ u.dv = s.dv ∧ u.le = s.le
  written : incremented → u.chipByte 0 = 0x00#8 ∧ u.chipByte 1 = minutesByte u.minute ∧ u.chipByte 2 = hoursByte u.hour ∧
    u.ShowsMirror

theorem QuietSteps.of_iff {s u : State} {p q : Prop} {es : List Event} {n : Nat} (h : QuietSteps s u p es n) (hpq : p ↔ q) :
    QuietSteps s u q es n := propext hpq ▸ h

theorem QuietSteps.trans {s u v : State} {p q : Prop} {es fs : List Event} {m n : Nat} (h : QuietSteps s u p es m)
    (k : QuietSteps u v q fs n) : QuietSteps s v (p ∨ q) (es ++ fs) n where
  frame := h.frame.trans k.frame
  lastRecon := k.lastRecon.trans h.lastRecon
  trace := by rw [k.trace, h.trace, List.append_assoc]
  quiet := k.quiet
  still := by
    intro hpq
    obtain ⟨hp, hq⟩ := not_or.mp hpq
    obtain ⟨h1, h2, h3, h4, h5, h6⟩ := h.still hp
    obtain ⟨k1, k2, k3, k4, k5, k6⟩ := k.still hq
    exact ⟨k1.trans h1, k2.trans h2, k3.trans h3, k4.trans h4, k5.trans h5, k6.trans h6⟩
  written := by
    intro hpq
    by_cases hq : q
    · exact k.written hq
    · obtain ⟨hrtc, hhour, hmin, hdisp, -, -⟩ := k.still hq
      obtain ⟨hb0, hb1, hb2, hshow⟩ := h.written (hpq.resolve_right hq)
      have hbyte (a : Fin 3) : v.chipByte a = u.chipByte a := congrArg (Memory.byteAt · a) hrtc
      exact ⟨(hbyte 0).trans hb0, by rw [hbyte, hb1, hmin], by rw [hbyte, hb2, hhour], hshow.congr hdisp hhour hmin⟩

/-- A button that moved without an event. -/
theorem QuietSteps.setButton {s : State} {n : Nat} (hq : s.Quiescent n) (b : Button) (x : ButtonState) :
    QuietSteps s (s.setButton b x) False [] n where
  frame := .setButton b x s
  lastRecon := State.setButton_lastRecon b x s
  trace := by rw [State.setButton_trace, List.append_nil]
  quiet := hq.congr (State.setButton_turns b x s)
  still := fun _ => by cases b <;> exact ⟨rfl, rfl, rfl, rfl, rfl, rfl⟩
  written := False.elim

/-- A button that moved with an event, before its increment. -/
theorem QuietSteps.called {s : State} {n : Nat} (hq : s.Quiescent n) (b : Button) (x : ButtonState) (f : Firing) :
    QuietSteps s (s.called b x f) False [firingEvent b f] n where
  frame := (OnlyTicked.setButton b x s).trans rfl
  lastRecon := State.setButton_lastRecon b x s
  trace := rfl
  quiet := hq.congr (State.setButton_turns b x s)
  still := fun _ => by cases b <;> exact ⟨rfl, rfl, rfl, rfl, rfl, rfl⟩
  written := False.elim

/-! ## Increments -/

/-- The events of an increment to `hour`, `minute` (R145, R146): three writes and the render. -/
def incrementEvents (cfg : Cfg) (hour minute : Nat) : List Event :=
  [.regWrite 0 0x00#8, .regWrite 1 (minutesByte minute), .regWrite 2 (hoursByte hour)] ++
    numberEvents cfg (mirrorNumber hour minute)

/-- On a quiescent chip `inc` writes, stores and renders the mirror that `nextHour` and `nextMinute` give. -/
def IncrementsTo (inc : State → Attempt Unit) (nextHour nextMinute : Nat → Nat) : Prop :=
  ∀ (s : State) (n : Nat), s.Quiescent (n + 3) → ∃ u, inc s = .done () u ∧ u.hour = nextHour s.hour ∧
    u.minute = nextMinute s.minute ∧ (∀ b, u.button b = s.button b) ∧
    QuietSteps s u True (incrementEvents s.cfg u.hour u.minute) n

theorem render_mirror (s : State) : (render s).hour = s.hour ∧ (render s).minute = s.minute :=
  ⟨(render_onlyDigits s).keepsController.hour, (render_onlyDigits s).keepsController.minute⟩

/-- Writing a time, then storing and rendering it. -/
theorem setTime_render_quiet {s : State} {n : Nat} (hq : s.Quiescent (n + 3)) (h m : Nat) :
    ∃ t, setTime h m 0 s = .done () t ∧ t.hour = s.hour ∧ t.minute = s.minute ∧
      (∀ b, (render (t.setMirror h m)).button b = s.button b) ∧
      QuietSteps s (render (t.setMirror h m)) True (incrementEvents s.cfg h m) n := by
  obtain ⟨t, hset, hframe, hb0, hb1, hb2, hquiet⟩ := setTime_quiet hq h m 0
  have hshow := render_showsMirror (t.setMirror h m)
  have hhour : t.hour = s.hour := by rw [hframe]
  have hmin : t.minute = s.minute := by rw [hframe]
  refine ⟨t, hset, hhour, hmin, ?_⟩
  rw [render_rendered] at hshow ⊢
  constructor
  · intro b
    rw [hframe]
    cases b <;> rfl
  · refine ⟨?_, ?_, ?_, hquiet, fun hp => absurd trivial hp, fun _ => ⟨hb0, hb1, hb2, hshow⟩⟩
    · unfold OnlyTicked
      rw [hframe]
      rfl
    · rw [hframe]
      rfl
    · rw [hframe, secondsByte_zero, incrementEvents, ← List.append_assoc]
      rfl

theorem incHour_incrementsTo : IncrementsTo incHour (fun h => (h + 1) % 24) id := by
  intro s n hq
  obtain ⟨t, hset, -, hmin, hbtn, hsteps⟩ := setTime_render_quiet hq ((s.hour + 1) % 24) s.minute
  obtain ⟨huhour, humin⟩ := render_mirror (t.setMirror ((s.hour + 1) % 24) s.minute)
  refine ⟨_, ?_, huhour, humin, hbtn, ?_⟩
  · rw [incHour, hset, Attempt.andThen_done, hmin]
  · rw [huhour, humin]
    exact hsteps

theorem incMinute_incrementsTo : IncrementsTo incMinute id (fun m => (m + 1) % 60) := by
  intro s n hq
  obtain ⟨t, hset, hhour, -, hbtn, hsteps⟩ := setTime_render_quiet hq s.hour ((s.minute + 1) % 60)
  obtain ⟨huhour, humin⟩ := render_mirror (t.setMirror s.hour ((s.minute + 1) % 60))
  refine ⟨_, ?_, huhour, humin, hbtn, ?_⟩
  · rw [incMinute, hset, Attempt.andThen_done, hhour]
  · rw [huhour, humin]
    exact hsteps

/-! ## Steps 2 and 3 -/

/-- The events of the step of button `b` that fires `f` and leaves the mirror at `hour`, `minute`. -/
def stepEvents (b : Button) (f : Option Firing) (cfg : Cfg) (hour minute : Nat) : List Event :=
  firingEvents b f ++ if f = none then [] else incrementEvents cfg hour minute

/-- A button step on a quiescent chip: its own button moves, and it increments if and only if it fires. -/
theorem buttonStep_quiet {b : Button} {inc : State → Attempt Unit} {nextHour nextMinute : Nat → Nat} {s t : State} {n : Nat}
    (hinc : IncrementsTo inc nextHour nextMinute) (hcall : SameCall b s t) (hq : t.Quiescent (n + 3)) {f : Option Firing}
    (hf : firing b s.now s = f) :
    ∃ u, buttonStep b inc s.now t = .done () u ∧ u.hour = (if f = none then t.hour else nextHour t.hour) ∧
      u.minute = (if f = none then t.minute else nextMinute t.minute) ∧ u.button b = s.moved b ∧
      (∀ c, c ≠ b → u.button c = t.button c) ∧ QuietSteps t u (f ≠ none) (stepEvents b f t.cfg u.hour u.minute) n := by
  cases f with
  | none =>
    refine ⟨_, hcall.buttonStep_silent hf inc, ?_, ?_, State.button_setButton_same ..,
      fun c hc => State.button_setButton_other hc .., ?_⟩
    · rw [if_pos rfl, State.setButton_hour]
    · rw [if_pos rfl, State.setButton_minute]
    · exact (QuietSteps.setButton (hq.mono (by omega)) b (s.moved b)).of_iff (by simp)
  | some f =>
    obtain ⟨u, hdone, hhour, hmin, hbtn, hsteps⟩ := hinc (t.called b (s.moved b) f) n (hq.congr (State.setButton_turns b _ t))
    have hcalled := QuietSteps.called hq b (s.moved b) f
    refine ⟨u, (hcall.buttonStep_fired hf inc).trans hdone, ?_, ?_, ?_, fun c hc => ?_, ?_⟩
    · rw [if_neg (by simp), hhour]
      exact congrArg nextHour (State.setButton_hour b _ t)
    · rw [if_neg (by simp), hmin]
      exact congrArg nextMinute (State.setButton_minute b _ t)
    · exact (hbtn b).trans (State.button_setButton_same b _ t)
    · exact (hbtn c).trans (State.button_setButton_other hc _ t)
    · have hall := (hcalled.trans hsteps).of_iff (q := some f ≠ none) (by simp)
      rw [show (t.called b (s.moved b) f).cfg = t.cfg from State.setButton_cfg b _ t] at hall
      exact hall

/-- Steps 2 and 3 of a tick on a quiescent chip. -/
theorem buttonSteps_quiet {s : State} {n : Nat} (hq : s.Quiescent (n + 6)) {oh om : Option Firing}
    (hoh : firing .hour s.now s = oh) (hom : firing .minute s.now s = om) :
    ∃ v, tickSteps s.now s = reconStep s.now v ∧ v.hour = (if oh = none then s.hour else (s.hour + 1) % 24) ∧
      v.minute = (if om = none then s.minute else (s.minute + 1) % 60) ∧ v.btnH = s.moved .hour ∧ v.btnM = s.moved .minute ∧
      QuietSteps s v (oh ≠ none ∨ om ≠ none)
        (stepEvents .hour oh s.cfg v.hour s.minute ++ stepEvents .minute om s.cfg v.hour v.minute) n := by
  obtain ⟨u, hu, huhour, humin, hubtn, huother, husteps⟩ :=
    buttonStep_quiet (n := n + 3) incHour_incrementsTo (SameCall.refl .hour s) hq hoh
  obtain ⟨v, hv, hvhour, hvmin, hvbtn, hvother, hvsteps⟩ :=
    buttonStep_quiet (n := n) incMinute_incrementsTo (husteps.frame.sameCall (huother .minute (by decide))) husteps.quiet hom
  simp only [id, ite_self] at humin hvhour
  rw [humin] at hvmin husteps
  rw [show u.cfg = s.cfg by rw [husteps.frame]] at hvsteps
  refine ⟨v, tickSteps_of_buttons hu hv, hvhour.trans huhour, hvmin, (hvother .hour (by decide)).trans hubtn, hvbtn, ?_⟩
  rw [hvhour]
  rw [hvhour] at hvsteps
  exact husteps.trans hvsteps

/-! ## Step 4 -/

/-- What a due reconciliation of `v` leaves on a quiescent chip (R152): the chip's hour and minute in the mirror, rendered if
they differ from the mirror of `v`. -/
structure Reconciled (now : Nat) (v w : State) : Prop where
  frame : OnlyTicked v w
  rtc : w.rtc = v.rtc
  btnH : w.btnH = v.btnH
  btnM : w.btnM = v.btnM
  hour : w.hour = decodeHours (v.chipByte 2)
  minute : w.minute = bcd2dec (v.chipByte 1)
  lastRecon : w.lastRecon = some now
  trace : w.trace = v.trace ++ [.regRead 0 (v.chipByte 0), .regRead 1 (v.chipByte 1), .regRead 2 (v.chipByte 2)] ++
    (if decodeHours (v.chipByte 2) = v.hour ∧ bcd2dec (v.chipByte 1) = v.minute then []
      else numberEvents v.cfg (mirrorNumber (decodeHours (v.chipByte 2)) (bcd2dec (v.chipByte 1))))
  same : decodeHours (v.chipByte 2) = v.hour ∧ bcd2dec (v.chipByte 1) = v.minute →
    w.disp = v.disp ∧ w.dv = v.dv ∧ w.le = v.le
  differs : ¬ (decodeHours (v.chipByte 2) = v.hour ∧ bcd2dec (v.chipByte 1) = v.minute) → w.ShowsMirror

theorem reconcile_quiet {v : State} {n : Nat} (hq : v.Quiescent (n + 3)) (now : Nat) :
    ∃ w, reconcile now v = .done () w ∧ Reconciled now v w := by
  have hread := getTime_quiet (s := stampRecon now v) hq
  rw [reconcile, hread, Attempt.andThen_done]
  refine ⟨_, rfl, ?_⟩
  by_cases hsame : decodeHours (v.chipByte 2) = v.hour ∧ bcd2dec (v.chipByte 1) = v.minute
  · rw [adopt_same hsame]
    obtain ⟨hhour, hmin⟩ := hsame
    refine ⟨rfl, rfl, rfl, rfl, hhour.symm, hmin.symm, rfl, ?_, fun _ => ⟨rfl, rfl, rfl⟩, fun hn => absurd ⟨hhour, hmin⟩ hn⟩
    rw [if_pos ⟨hhour, hmin⟩, List.append_nil]
    rfl
  · rw [adopt_differs hsame]
    refine ⟨rfl, rfl, rfl, rfl, rfl, rfl, rfl, ?_, fun hs => absurd hs hsame, fun _ => rfl⟩
    rw [if_neg hsame]
    rfl

/-! ## The whole tick -/

/-- The chip after the button steps: as it was, or the three bytes of the last increment. -/
theorem QuietSteps.bytes {s v : State} {p : Prop} [Decidable p] {es : List Event} {n : Nat} {b0 b1 b2 : Byte}
    (h : QuietSteps s v (¬ p) es n)
    (hb : if p then b0 = s.chipByte 0 ∧ b1 = s.chipByte 1 ∧ b2 = s.chipByte 2
      else b0 = 0x00#8 ∧ b1 = minutesByte v.minute ∧ b2 = hoursByte v.hour) :
    v.chipByte 0 = b0 ∧ v.chipByte 1 = b1 ∧ v.chipByte 2 = b2 := by
  by_cases hp : p
  · obtain ⟨hrtc, -⟩ := h.still (not_not.mpr hp)
    rw [if_pos hp] at hb
    obtain ⟨rfl, rfl, rfl⟩ := hb
    exact ⟨congrArg (Memory.byteAt · 0) hrtc, congrArg (Memory.byteAt · 1) hrtc, congrArg (Memory.byteAt · 2) hrtc⟩
  · obtain ⟨hb0, hb1, hb2, -⟩ := h.written hp
    rw [if_neg hp] at hb
    obtain ⟨rfl, rfl, rfl⟩ := hb
    exact ⟨hb0, hb1, hb2⟩

/-- The end of a tick whose steps left `w`, with both buttons moved. -/
theorem OnlyTicked.completed {s w : State} (h : OnlyTicked s w) (hH : w.btnH = s.moved .hour) (hM : w.btnM = s.moved .minute) :
    complete 0#32 w = { s with
      btnH := s.moved .hour, btnM := s.moved .minute, hour := w.hour, minute := w.minute, lastRecon := w.lastRecon
      rtc := w.rtc, turns := w.turns, dv := w.dv, le := w.le, disp := w.disp, trace := w.trace, res := 0#32, err := 0#2 } := by
  unfold OnlyTicked at h
  rw [← hH, ← hM]
  exact congrArg (complete 0#32) h

/-- Settles O42: the button steps (`buttonSteps_quiet`), then nothing, or a reconciliation (`reconcile_quiet`). -/
theorem tickOnAQuietChip : Obligations.TickOnAQuietChip := by
  unfold Obligations.TickOnAQuietChip
  intro s oh om h m b0 b1 b2 es hr hq hoh hom hh hm hb hes
  obtain ⟨v, hsteps, hvhour, hvmin, hbtnH, hbtnM, hv⟩ := buttonSteps_quiet (n := 3) hq hoh hom
  obtain rfl : v.hour = h := hvhour.trans hh.symm
  obtain rfl : v.minute = m := hvmin.trans hm.symm
  have hfired : oh ≠ none ∨ om ≠ none ↔ ¬ (oh = none ∧ om = none) := not_and_or.symm
  obtain ⟨rfl, rfl, rfl⟩ := (hv.of_iff hfired).bytes hb
  have hvtrace : v.trace = s.trace ++ es := by
    rw [hv.trace, hes, List.append_assoc _ (firingEvents .minute om)]
    rfl
  by_cases hd : s.ReconDue
  · obtain ⟨w, hrec, hw⟩ := reconcile_quiet (n := 0) hv.quiet s.now
    have hdone := hsteps.trans (((hv.frame.sameDue hv.lastRecon).reconStep_due hd).trans hrec)
    have hbyte (a : Fin 3) : w.chipByte a = v.chipByte a := congrArg (Memory.byteAt · a) hw.rtc
    refine ⟨complete 0#32 w, exec_tick_done hr hdone, hbyte 0, hbyte 1, hbyte 2,
      (hv.frame.trans hw.frame).completed (hw.btnH.trans hbtnH) (hw.btnM.trans hbtnM), fun hn => absurd hd hn,
      fun _ => ⟨hw.hour, hw.minute, hw.lastRecon, ?_⟩, ?_, ?_⟩
    · rw [← hvtrace, ← show v.cfg = s.cfg by rw [hv.frame]]
      exact hw.trace
    · intro hshow
      by_cases hsame : decodeHours (v.chipByte 2) = v.hour ∧ bcd2dec (v.chipByte 1) = v.minute
      · obtain ⟨-, -, -, hvshow⟩ := hv.written (by tauto)
        obtain ⟨hdisp, -, -⟩ := hw.same hsame
        exact hvshow.congr hdisp (hw.hour.trans hsame.1) (hw.minute.trans hsame.2)
      · exact hw.differs hsame
    · rintro ⟨hnoH, hnoM, hno⟩
      obtain ⟨hdisp, hdv, hle⟩ := hw.same (by tauto)
      obtain ⟨-, -, -, hvdisp, hvdv, hvle⟩ := hv.still (by tauto)
      exact ⟨hdisp.trans hvdisp, hdv.trans hvdv, hle.trans hvle⟩
  · have hdone := hsteps.trans ((hv.frame.sameDue hv.lastRecon).reconStep_notDue hd)
    refine ⟨complete 0#32 v, exec_tick_done hr hdone, rfl, rfl, rfl, hv.frame.completed hbtnH hbtnM,
      fun _ => ⟨rfl, rfl, hv.lastRecon, hvtrace⟩, fun hdue => absurd hdue hd, ?_, ?_⟩
    · intro hshow
      obtain ⟨-, -, -, hvshow⟩ := hv.written (by tauto)
      exact hvshow
    · rintro ⟨hnoH, hnoM, -⟩
      obtain ⟨-, -, -, hdisp, hdv, hle⟩ := hv.still (by tauto)
      exact ⟨hdisp, hdv, hle⟩

theorem decodeHours_hoursByte {h : Nat} (hh : h < 24) : decodeHours (hoursByte h) = h := by
  rw [hoursByte, decodeHours_dec2bcd (wrapField_lt _ (by decide))]
  exact Int.ofNat.inj ((natCast_wrapField _ (by decide)).trans (Int.emod_eq_of_lt (by omega) (by omega)))

theorem bcd2dec_minutesByte {m : Nat} (hm : m < 60) : bcd2dec (minutesByte m) = m := by
  have hlt := wrapField_lt m (n := 60) (by decide)
  rw [minutesByte, bcd2dec_dec2bcd (by omega)]
  exact Int.ofNat.inj ((natCast_wrapField _ (by decide)).trans (Int.emod_eq_of_lt (by omega) (by omega)))

/-- Settles O41: the tick on a quiescent chip with both buttons firing and a reconciliation due, where the bytes written
decode to the mirror. -/
theorem tickHandlesHourThenMinuteThenChip : Obligations.TickHandlesHourThenMinuteThenChip := by
  unfold Obligations.TickHandlesHourThenMinuteThenChip
  intro s f g hr hq hH hM hd
  obtain ⟨t, hexec, -, -, -, hframe, -, hdue, hshow, -⟩ :=
    tickOnAQuietChip s (some f) (some g) ((s.hour + 1) % 24) ((s.minute + 1) % 60) 0x00#8 _ _ _ hr hq hH hM rfl rfl
      ⟨rfl, rfl, rfl⟩ rfl
  obtain ⟨hhour, hmin, hlast, htrace⟩ := hdue hd
  have hdecH := decodeHours_hoursByte (h := (s.hour + 1) % 24) (by omega)
  have hdecM := bcd2dec_minutesByte (m := (s.minute + 1) % 60) (by omega)
  refine ⟨t, hexec, by rw [hframe], by rw [hframe], hhour.trans hdecH, hmin.trans hdecM, hlast, by rw [hframe],
    hshow (.inl (by simp)), ?_⟩
  rw [htrace, if_pos (And.intro hdecH hdecM)]
  simp only [firingEvents, reduceCtorEq, if_false, List.append_assoc, List.cons_append, List.nil_append, List.append_nil]

end Sys2Proof.Machine
end

section
/-! PROOFS. Exceptions (R186, R187): an idle step holds the state, and no step is without a next state. -/

namespace Sys2Proof.Machine

/-- With nothing presented a step answers the state it was given (R186). -/
theorem step_idle {s : State} (h : s.host = []) : step s = .next s := by
  simp only [step, h]

/-- A power cycle uses up its input and does nothing else but lose power. -/
theorem step_powerCycle {s : State} {rest : List HostInput} (h : s.host = .powerCycle :: rest) :
    step s = .next ({ s with host := rest } : State).losePower := by
  simp only [step, h]

/-- Settles O8: it is `step_idle`. -/
theorem idleStepHoldsTheState : Obligations.IdleStepHoldsTheState := by
  unfold Obligations.IdleStepHoldsTheState
  intro s h
  exact step_idle h

/-- Settles O12: an idle step, `rst`, a power cycle and a refused word each name their next state, and a command ends in
one (`exec_conclude`). -/
theorem everyStepAnswersANextState : Obligations.EveryStepAnswersANextState := by
  unfold Obligations.EveryStepAnswersANextState
  intro s
  match h : s.host with
  | [] => exact ⟨_, step_idle h⟩
  | .reset digits :: rest => exact ⟨_, step_reset h⟩
  | .powerCycle :: rest => exact ⟨_, step_powerCycle h⟩
  | .command c :: rest =>
    cases hd : decode c.word with
    | ok i =>
      obtain ⟨r, hr⟩ := exec_conclude i (({ s with host := rest } : State).present c)
      exact ⟨_, (step_command h hd).trans hr⟩
    | error e => exact ⟨_, step_refused h fun i hok => nomatch hd.symm.trans hok⟩

end Sys2Proof.Machine
end

section
/-! PROOFS. Reset and hazards (R190, R192): what a power cycle leaves. -/

namespace Sys2Proof.Machine

@[simp] theorem State.losePower_btnH_st (s : State) : s.losePower.btnH.st = .idle := rfl
@[simp] theorem State.losePower_btnM_st (s : State) : s.losePower.btnM.st = .idle := rfl

/-- Settles O11: the step only loses power (`step_powerCycle`); what that leaves is said by the lemmas about `losePower`. -/
theorem powerCycleKeepsOnlyTheChip : Obligations.PowerCycleKeepsOnlyTheChip := by
  unfold Obligations.PowerCycleKeepsOnlyTheChip
  intro s rest h
  have hlines (i : Fin 4) : ({ s with host := rest } : State).losePower.le[i] = false := Vector.getElem_replicate i.isLt
  exact ⟨_, step_powerCycle h, State.losePower_rtc _, hlines, State.losePower_btnH_st _, State.losePower_btnM_st _,
    State.losePower_running _, State.losePower_lastRecon _, State.losePower_terr _, State.losePower_res _,
    State.losePower_err _, State.losePower_trace _, State.losePower_cfg _, State.losePower_host _⟩

end Sys2Proof.Machine
end
